-- ==== Sys2Proof/Word.lean ====
section
/-! DEFINITION. The word types of CORE: samples, bytes, the operand widths of the commands (00_scope.md R5, R106). -/

namespace Sys2Proof

/-- A sample, "unsigned integer, domain [0,255]" (`SW = 8`, R5). -/
abbrev Sample := BitVec 8

/-- One byte of a byte image (R60 (b)). -/
abbrev Byte := BitVec 8

/-- The `value[15:0]` operand of `WRITE` and the `result[15:0]` of `READ` (R106). -/
abbrev FieldValue := BitVec 16

/-- The `n[4:0]` operand of `WRITE` and `READ` (R106). -/
abbrev FieldWidth := BitVec 5

/-- The `W[3:0]` operand of `ENC.START` and `DEC.START` (R5, R106). -/
abbrev LdWidth := BitVec 4

end Sys2Proof
end

