-- ==== Sys2Proof/Config.lean ====
section
/-! DEFINITION. The implementation parameters of CORE (00_scope.md R5). `W` is not here: it is an operand of both
`START` commands. `SW` is the width of `Sample`. -/

namespace Sys2Proof

/-- `CAP`, the capacity of one Bit Buffer instance in bits: "a positive integer or `unbounded`" (R5, decision D5). -/
inductive Cap where
  | unbounded
  | finite (bits : Nat)
  deriving DecidableEq, Repr

/-- The parameters that the model takes as an argument: one `CAP`, that of both instances (log entry 3). -/
structure Config where
  cap : Cap
  deriving DecidableEq, Repr

/-- `FW`: the widest field one `WRITE` or `READ` moves (R5). -/
abbrev fw : Nat := 16

/-- `RUNMAX`: the longest zero run one Zero-Run symbol carries (R5). -/
abbrev runMax : Nat := 8

/-- `SDMAX`: the largest magnitude a Small-Delta symbol carries (R5). -/
abbrev sdMax : Nat := 30

end Sys2Proof
end

