-- ==== Sys2Proof/Syntax.lean ====
section
/-! DEFINITION. The instructions of CORE: the stream symbols that the decoder executes and the commands that the host
issues (30_encoding.md; spec/opcode_table.json), and the form in which a command reaches CORE. -/

namespace Sys2Proof

/-- One constructor per row of spec/opcode_table.json; its two `LD` rows are one instruction at two widths, `ld`
(log entry 9). Operands have the widths of the table. -/
inductive Instr where
  /-- `RAW8`, `vvvvvvvv`: the raw first sample, selected by position (R91, R182). -/
  | raw8 (v : Sample)
  /-- `SD.B0`, `00 00 cc` (R91, R183). -/
  | sdB0 (code : BitVec 2)
  /-- `SD.B1`, `00 01 ccc` (R91, R184). -/
  | sdB1 (code : BitVec 3)
  /-- `SD.B2`, `00 10 cccc` (R91, R185). -/
  | sdB2 (code : BitVec 4)
  /-- `SD.B3`, `00 11 ccccc` (R91, R186). -/
  | sdB3 (code : BitVec 5)
  /-- `ZR`, `01 nnn`: `n + 1` repeats (R91, R97, R188). -/
  | zr (n : BitVec 3)
  /-- `LD`, `10 s m...m`: a sign bit (`true` negative) and a magnitude of `W` bits, `W <= 15` (R91, R98, R189). -/
  | ld (sign : Bool) (m : BitVec 15)
  /-- `TERM`, `11` (R91, R190). -/
  | term
  /-- `EB.CLEAR` (R130). -/
  | ebClear
  /-- `EB.WRITE(value, n)` (R131). -/
  | ebWrite (value : FieldValue) (n : FieldWidth)
  /-- `EB.READ(n)` (R132). -/
  | ebRead (n : FieldWidth)
  /-- `EB.PACK` (R133). -/
  | ebPack
  /-- `EB.LOADBYTES(bytes)` (R134). -/
  | ebLoadBytes (bytes : List Byte)
  /-- `EB.LOADBITS(seq)` (R135). -/
  | ebLoadBits (seq : List Bool)
  /-- `DB.CLEAR` (R130). -/
  | dbClear
  /-- `DB.WRITE(value, n)` (R131). -/
  | dbWrite (value : FieldValue) (n : FieldWidth)
  /-- `DB.READ(n)` (R132). -/
  | dbRead (n : FieldWidth)
  /-- `DB.PACK` (R133). -/
  | dbPack
  /-- `DB.LOADBYTES(bytes)` (R134). -/
  | dbLoadBytes (bytes : List Byte)
  /-- `DB.LOADBITS(seq)` (R135). -/
  | dbLoadBits (seq : List Bool)
  /-- `ENC.START(W)` (R150). -/
  | encStart (W : LdWidth)
  /-- `ENC.PUSH(s)` (R151). -/
  | encPush (x : Sample)
  /-- `ENC.FINISH` (R162). -/
  | encFinish
  /-- `DEC.START(W)` (R180). -/
  | decStart (W : LdWidth)
  deriving DecidableEq, Repr

/-- What the host presents with one command: the 5-bit code `cmd[4:0] = {unit[1:0], op[2:0]}` and the operand ports of
R106, each at its own width. A command reads only the ports R106 gives it (log entry 8). -/
structure Packet where
  cmd   : BitVec 5
  value : FieldValue := 0
  n     : FieldWidth := 0
  bytes : List Byte := []
  seq   : List Bool := []
  W     : LdWidth := 0
  s     : Sample := 0
  deriving DecidableEq, Repr

/-- The encoded form of an instruction: bits in stream order for a symbol, a packet for a command (30_encoding.md). -/
inductive Encoded where
  | stream (bits : List Bool)
  | command (p : Packet)
  deriving DecidableEq, Repr

end Sys2Proof
end

