-- ==== Sys2Proof/Machine/State.lean ====
section
/-! DEFINITION. The whole state of CORE (10_state.md R20 to R34), plain data, and its value after reset. -/

namespace Sys2Proof.Machine

/-- The control state of a unit (R24, R29). -/
inductive Mode where
  | idle
  | run
  | done
  | err
  deriving DecidableEq, Repr

/-- The error kinds, code 0 `None` among them (R210). -/
inductive ErrCode where
  | noError
  | emptyInput
  | outOfRange
  | underflow
  | truncatedStream
  /-- Reserved: "CORE never raises it and never writes code 5 anywhere" (R215). -/
  | widthMismatch
  | overflow
  | sampleRange
  deriving DecidableEq, Repr

/-- One Bit Buffer instance (R21). `bits` is its content, bit address 0 first; the write pointer is the content's length
(`BitBuffer.wp`), since an address at or beyond it has no value (log entry 1). `rp` is the read cursor. -/
structure BitBuffer where
  bits : List Bool
  rp   : Nat
  deriving DecidableEq, Repr

/-- The encoder's registers `E.prev`, `E.run`, `E.have` (`haveFirst`), `E.W`, `E.mode`, `E.err` (R23, R24). -/
structure Encoder where
  prev      : Sample
  run       : BitVec 3
  haveFirst : Bool
  W         : LdWidth
  mode      : Mode
  err       : ErrCode
  deriving DecidableEq, Repr

/-- The decoder's registers `D.cur`, `D.hdr`, `D.out` (first sample first), `D.W`, `D.mode`, `D.err` (R25, R26). -/
structure Decoder where
  cur  : Sample
  hdr  : Bool
  out  : List Sample
  W    : LdWidth
  mode : Mode
  err  : ErrCode
  deriving DecidableEq, Repr

/-- One move of the world outside `ENC` and `DEC`, in the order CORE meets them (R11, R72, R253; log entry 4). -/
inductive Input where
  /-- The host issues a command. -/
  | cmd (p : Packet)
  /-- The reset input is asserted (R240). -/
  | reset
  /-- The host issues nothing, and the decoder takes a step if it is in `RUN` (R181, R252). -/
  | decTurn
  deriving DecidableEq, Repr

/-- What the host gets back from the last command (R106 "result", R137, R253): the model's own field (log entry 6). -/
inductive Response where
  /-- No command has been issued since reset. -/
  | noResponse
  /-- The command completed and has no result. -/
  | done
  /-- The command was not enabled and was not accepted (R10 (a); log entry 5). -/
  | notAccepted
  /-- The command reached a `raise` (R137, R210). -/
  | error (k : ErrCode)
  /-- `result[15:0]` of a `READ`. -/
  | value (v : FieldValue)
  /-- The byte image that `PACK` returns. -/
  | bytes (l : List Byte)
  deriving DecidableEq, Repr

/-- The state of CORE: `EB` and `ENC`, `DB` and `DEC` (R20), with the model's own fields `cfg` (the parameter `CAP`, log
entry 3), `inbox` (what the host does next, log entry 4) and `resp` (its last result, log entry 6). -/
structure State where
  cfg   : Config
  eb    : BitBuffer
  enc   : Encoder
  db    : BitBuffer
  dec   : Decoder
  inbox : List Input
  resp  : Response
  deriving DecidableEq, Repr

/-- The state after reset (R34, R240). `E.prev`, `E.W`, `D.cur`, `D.W` are unspecified there and are 0 here (DESIGN
CHOICE, log entry 2); `CAP` is unbounded here (DESIGN CHOICE, log entry 3). -/
def State.reset : State where
  cfg   := { cap := .unbounded }
  eb    := { bits := [], rp := 0 }
  enc   := { prev := 0, run := 0, haveFirst := false, W := 0, mode := .idle, err := .noError }
  db    := { bits := [], rp := 0 }
  dec   := { cur := 0, hdr := false, out := [], W := 0, mode := .idle, err := .noError }
  inbox := []
  resp  := .noResponse

/-- The reasons a step stops with a fault: none. Every error of CORE has an entry that the spec describes (R221) or is a
command's response (R137), so the machine goes on (log entry 7). -/
inductive Fault where
  deriving DecidableEq, Repr

/-- The reasons a step is refused. -/
inductive Refusal where
  /-- An instruction that has no meaning in `exec` yet: raised by `exec`'s refused arms only, of which there are none.
  Safe: the machine stops. -/
  | notModelled (mnemonic : String)
  deriving DecidableEq, Repr

end Sys2Proof.Machine
end

