-- ==== Sys2Proof/Machine/Flags.lean ====
section
/-! DEFINITION. Status: the codes of modes and errors, and the status lines (10_state.md R24, R28, R29; 60_exceptions.md
R210). CORE has no condition codes: no instruction computes a flag (R28). -/

namespace Sys2Proof.Machine

/-- The 2-bit code of a mode (R24, R26). -/
def Mode.code : Mode → BitVec 2
  | .idle => 0
  | .run => 1
  | .done => 2
  | .err => 3

/-- The 3-bit code of an error kind (R210). -/
def ErrCode.code : ErrCode → BitVec 3
  | .noError => 0
  | .emptyInput => 1
  | .outOfRange => 2
  | .underflow => 3
  | .truncatedStream => 4
  | .widthMismatch => 5
  | .overflow => 6
  | .sampleRange => 7

/-- The status lines of a unit, functions of its mode (R28). -/
structure StatusLines where
  idle : Bool
  busy : Bool
  done : Bool
  err  : Bool
  deriving DecidableEq, Repr

/-- `busy = (mode == RUN)`, `done = (mode == DONE)`, `err = (mode == ERR)`, and `idle` (R28). -/
def Mode.lines (m : Mode) : StatusLines where
  idle := m == .idle
  busy := m == .run
  done := m == .done
  err  := m == .err

end Sys2Proof.Machine
end

