-- ==== Sys2Proof/WellFormed.lean ====
section
/-! DEFINITION. Which terms of `Instr` are instructions: the bounds that the operand types do not carry. -/

namespace Sys2Proof

/-- The instruction is one a decoder with Large-Delta width `W` can meet, or a command that can be enabled: a field width
is at most `FW = 16` (R67, R107), a Large-Delta magnitude has `W` bits (R92, R98). -/
def Instr.wf (W : LdWidth) : Instr → Bool
  | .ebWrite _ n => n.toNat ≤ fw
  | .ebRead n => n.toNat ≤ fw
  | .dbWrite _ n => n.toNat ≤ fw
  | .dbRead n => n.toNat ≤ fw
  | .ld _ m => m.toNat < 2 ^ W.toNat
  | .raw8 _ => true
  | .sdB0 _ => true
  | .sdB1 _ => true
  | .sdB2 _ => true
  | .sdB3 _ => true
  | .zr _ => true
  | .term => true
  | .ebClear => true
  | .ebPack => true
  | .ebLoadBytes _ => true
  | .ebLoadBits _ => true
  | .dbClear => true
  | .dbPack => true
  | .dbLoadBytes _ => true
  | .dbLoadBits _ => true
  | .encStart _ => true
  | .encPush _ => true
  | .encFinish => true
  | .decStart _ => true

end Sys2Proof
end

