-- ==== Sys2Proof/Decode.lean ====
section
/-! DEFINITION. The field marshaller's bit order, the decoder of both instruction sets, total and rejecting by name, and
the encoder after it (30_encoding.md R91 to R99, R106 to R108). -/

namespace Sys2Proof

/-- The low `n` bits of `v`, most significant first: bits above `n - 1` are ignored (R6, R62, R9 `MemWrite`). -/
def field : Nat → Nat → List Bool
  | 0, _ => []
  | n + 1, v => v.testBit n :: field n v

/-- The unsigned value of a field, its first bit the most significant (R62, R9 `MemRead`). -/
def fieldValue : List Bool → Nat
  | [] => 0
  | b :: bs => b.toNat * 2 ^ bs.length + fieldValue bs

/-- Why the decoder gives no instruction. -/
inductive DecodeError where
  /-- The stream ends inside a symbol: `consumed` bits belong to its fields that were read in full (R192). -/
  | truncated (consumed : Nat)
  /-- A command code that is not in the table of R106 (R107). -/
  | unknownCommand (cmd : BitVec 5)
  /-- A `WRITE` or `READ` with `n` from 17 to 31 (R107). -/
  | widthNotEnabled (n : FieldWidth)
  deriving DecidableEq, Repr

/-- Reads the next field, of `n` bits, when `consumed` bits of the symbol have been read; the field that is not there in
full is not consumed (R132, R192). -/
def readField {α : Type} (consumed n : Nat) (bits : List Bool)
    (k : Nat → List Bool → Except DecodeError α) : Except DecodeError α :=
  if bits.length < n then .error (.truncated consumed) else k (fieldValue (bits.take n)) (bits.drop n)

/-- The Small-Delta symbols after their prefix: the sub-prefix selects the band, the band the code width (R92, R94). -/
def decodeSmall (bits : List Bool) : Except DecodeError (Instr × List Bool) :=
  readField 2 2 bits fun k rest =>
    match k with
    | 0 => readField 4 2 rest fun c rest => .ok (.sdB0 (BitVec.ofNat 2 c), rest)
    | 1 => readField 4 3 rest fun c rest => .ok (.sdB1 (BitVec.ofNat 3 c), rest)
    | 2 => readField 4 4 rest fun c rest => .ok (.sdB2 (BitVec.ofNat 4 c), rest)
    | _ => readField 4 5 rest fun c rest => .ok (.sdB3 (BitVec.ofNat 5 c), rest)

/-- The symbol at the head of `bits` and the bits after it, in the order of fields of R99; `hdr` is `D.hdr` (the first
8 bits of a stream are `RAW8` regardless of content) and `W` is `D.W`. -/
def decodeSymbol (hdr : Bool) (W : LdWidth) (bits : List Bool) : Except DecodeError (Instr × List Bool) :=
  if hdr = false then
    readField 0 8 bits fun v rest => .ok (.raw8 (BitVec.ofNat 8 v), rest)
  else
    readField 0 2 bits fun p rest =>
      match p with
      | 0 => decodeSmall rest
      | 1 => readField 2 3 rest fun n rest => .ok (.zr (BitVec.ofNat 3 n), rest)
      | 2 => readField 2 1 rest fun s rest =>
          readField 3 W.toNat rest fun m rest => .ok (.ld (s == 1) (BitVec.ofNat 15 m), rest)
      | _ => .ok (.term, rest)

/-- A `WRITE` or `READ` is decoded only for a width that can be enabled (R107). -/
def withWidth (n : FieldWidth) (i : Instr) : Except DecodeError Instr :=
  if n.toNat ≤ fw then .ok i else .error (.widthNotEnabled n)

/-- The command that a packet selects: the codes of the table of R106, `{unit, op}` read as one number. -/
def decodeCommand (p : Packet) : Except DecodeError Instr :=
  match p.cmd.toNat with
  | 0b00000 => .ok .ebClear
  | 0b00001 => withWidth p.n (.ebWrite p.value p.n)
  | 0b00010 => withWidth p.n (.ebRead p.n)
  | 0b00011 => .ok .ebPack
  | 0b00100 => .ok (.ebLoadBytes p.bytes)
  | 0b00101 => .ok (.ebLoadBits p.seq)
  | 0b01000 => .ok .dbClear
  | 0b01001 => withWidth p.n (.dbWrite p.value p.n)
  | 0b01010 => withWidth p.n (.dbRead p.n)
  | 0b01011 => .ok .dbPack
  | 0b01100 => .ok (.dbLoadBytes p.bytes)
  | 0b01101 => .ok (.dbLoadBits p.seq)
  | 0b10000 => .ok (.encStart p.W)
  | 0b10001 => .ok (.encPush p.s)
  | 0b10010 => .ok .encFinish
  | 0b11000 => .ok (.decStart p.W)
  | _ => .error (.unknownCommand p.cmd)

/-- The decoder over both instruction sets, with the bits of the stream that lie after the symbol. -/
def decode (hdr : Bool) (W : LdWidth) : Encoded → Except DecodeError (Instr × List Bool)
  | .stream bits => decodeSymbol hdr W bits
  | .command p => (decodeCommand p).map fun i => (i, [])

/-- The value of `D.hdr` at which the decoder meets this symbol: 0 for `RAW8`, 1 for the others (R93). -/
def Instr.atHdr : Instr → Bool
  | .raw8 _ => false
  | _ => true

/-- The encoding of an instruction, from the tables of R91, R92 and R106; `W` is the width of a Large-Delta magnitude. -/
def encode (W : LdWidth) : Instr → Encoded
  | .raw8 v => .stream (field 8 v.toNat)
  | .sdB0 c => .stream (field 2 0b00 ++ field 2 0b00 ++ field 2 c.toNat)
  | .sdB1 c => .stream (field 2 0b00 ++ field 2 0b01 ++ field 3 c.toNat)
  | .sdB2 c => .stream (field 2 0b00 ++ field 2 0b10 ++ field 4 c.toNat)
  | .sdB3 c => .stream (field 2 0b00 ++ field 2 0b11 ++ field 5 c.toNat)
  | .zr n => .stream (field 2 0b01 ++ field 3 n.toNat)
  | .ld s m => .stream (field 2 0b10 ++ field 1 s.toNat ++ field W.toNat m.toNat)
  | .term => .stream (field 2 0b11)
  | .ebClear => .command { cmd := 0b00000 }
  | .ebWrite v n => .command { cmd := 0b00001, value := v, n := n }
  | .ebRead n => .command { cmd := 0b00010, n := n }
  | .ebPack => .command { cmd := 0b00011 }
  | .ebLoadBytes ys => .command { cmd := 0b00100, bytes := ys }
  | .ebLoadBits bs => .command { cmd := 0b00101, seq := bs }
  | .dbClear => .command { cmd := 0b01000 }
  | .dbWrite v n => .command { cmd := 0b01001, value := v, n := n }
  | .dbRead n => .command { cmd := 0b01010, n := n }
  | .dbPack => .command { cmd := 0b01011 }
  | .dbLoadBytes ys => .command { cmd := 0b01100, bytes := ys }
  | .dbLoadBits bs => .command { cmd := 0b01101, seq := bs }
  | .encStart W => .command { cmd := 0b10000, W := W }
  | .encPush x => .command { cmd := 0b10001, s := x }
  | .encFinish => .command { cmd := 0b10010 }
  | .decStart W => .command { cmd := 0b11000, W := W }

/-- A word of spec/opcode_table.json as the decoder meets it: the encoded form, with the `D.hdr` and `D.W` it needs. -/
structure TableReading where
  enc : Encoded
  hdr : Bool := true
  W   : LdWidth := 8
  deriving DecidableEq, Repr

/-- A word of `nbits` bits read as a symbol of exactly `len` bits, its first bit in stream order the most significant
of the `len` (R108). -/
def symbolReading (len w : Nat) (W : LdWidth := 8) : TableReading := { enc := .stream (field len w), W := W }

/-- The reading of a table word. The table numbers two instruction sets over the same numerals, so a word alone does not
say which set it is of, nor how many of a byte's bits a symbol has: log entry 11 gives the order of preference used here
(a command code of R106 first, then the symbol whose length the width and the value of the word allow). -/
def tableReading (nbits w : Nat) : Option TableReading :=
  match nbits with
  | 2 => some (symbolReading 2 w)
  | 5 =>
    match decodeCommand { cmd := BitVec.ofNat 5 w } with
    | .ok _ => some { enc := .command { cmd := BitVec.ofNat 5 w } }
    | .error _ => some (symbolReading 5 w)
  | 6 => some (symbolReading 6 w)
  | 7 => some (symbolReading 7 w)
  | 8 =>
    if w < 32 then
      match decodeCommand { cmd := BitVec.ofNat 5 w } with
      | .ok _ => some { enc := .command { cmd := BitVec.ofNat 5 w } }
      | .error _ => if 8 ≤ w ∧ w < 16 then some (symbolReading 5 w) else some { enc := .stream (field 8 w), hdr := false }
    else if w < 48 then some (symbolReading 8 w)
    else some { enc := .stream (field 8 w), hdr := false }
  | 9 => some (symbolReading 9 w)
  | 11 => some (symbolReading 11 w)
  | 16 =>
    if w < 2 ^ 9 then some (symbolReading 9 w)
    else if w < 2 ^ 11 then some (symbolReading 11 w)
    else some (symbolReading 16 w 13)
  | _ => none

/-- The instruction the decoder reads from a word of the opcode table (log entry 11). -/
def decodeTableWord (nbits w : Nat) : Option Instr :=
  match tableReading nbits w with
  | none => none
  | some r =>
    match decode r.hdr r.W r.enc with
    | .ok (i, _) => some i
    | .error _ => none

end Sys2Proof
end

