-- ==== Sys2Proof/Machine/Operands.lean ====
section
/-! DEFINITION. Operand assembly and disassembly: deltas and their classes, the Small-Delta bands, the band code both ways,
sign and magnitude (30_encoding.md R94 to R98, 41_encoder.md R152 to R154, 42_decoder.md R187). -/

namespace Sys2Proof.Machine

/-- A band number, the 2-bit sub-prefix read as a number (R94). -/
abbrev Band := Fin 4

/-- `wd(k)`, the width of band `k`'s code (R94). -/
def bandWidth : Band → Nat
  | 0 => 2
  | 1 => 3
  | 2 => 4
  | 3 => 5

/-- `lo(k)`, the smallest magnitude band `k` covers (R94). -/
def bandLo : Band → Nat
  | 0 => 1
  | 1 => 3
  | 2 => 7
  | 3 => 15

/-- `hi(k)`, the largest magnitude band `k` covers (R94). -/
def bandHi : Band → Nat
  | 0 => 2
  | 1 => 6
  | 2 => 14
  | 3 => 30

/-- `K(k)`, the negative side's constant (R94). -/
def bandK : Band → Int
  | 0 => 2
  | 1 => 6
  | 2 => 14
  | 3 => 30

/-- `half(k)`, the first code of a positive delta (R94). -/
def bandHalf : Band → Nat
  | 0 => 2
  | 1 => 4
  | 2 => 8
  | 3 => 16

/-- `band(a)`: the smallest band that covers the magnitude `a` of a small delta (R153). -/
def band (a : Nat) : Band :=
  if a ≤ 2 then 0 else if a ≤ 6 then 1 else if a ≤ 14 then 2 else 3

/-- `gen(d, k)`: the band code of a small delta (R95, R154). -/
def gen (d : Int) (k : Band) : Nat :=
  if d < 0 then (d + bandK k).toNat else (d + 1).toNat

/-- `rev(code, k)`: the delta of a band code (R96, R187). -/
def rev (code : Nat) (k : Band) : Int :=
  if code < bandHalf k then (code : Int) - bandK k else (code : Int) - 1

/-- The delta of a Large-Delta: the magnitude, negated if the sign bit is 1 (R98, R189). -/
def signedMagnitude (sign : Bool) (m : Nat) : Int :=
  if sign then -(m : Int) else m

/-- The delta `sample[i] - sample[i-1]`, -255 to 255 (R152). -/
def delta (x prev : Sample) : Int := (x.toNat : Int) - (prev.toNat : Int)

/-- The three classes of a delta (R152). -/
inductive DeltaClass where
  | zero
  | small
  | large
  deriving DecidableEq, Repr

/-- `classify(d)`, in the source's order (R152). -/
def classify (d : Int) : DeltaClass :=
  if d = 0 then .zero else if d.natAbs ≤ sdMax then .small else .large

end Sys2Proof.Machine
end

