-- ==== Sys2Proof/Machine/Ops.lean ====
section
/-! DEFINITION. The operations the meanings share: the Bit Buffer's field marshaller (40_bit_buffer.md R130 to R135), the
homes of the registers, the error entry and the way out of it (60_exceptions.md R221, R222), and how a meaning ends. -/

namespace Sys2Proof

/-- A buffer of this capacity may hold `n` bits (R70). -/
def Cap.allows : Cap → Nat → Bool
  | .unbounded, _ => true
  | .finite c, n => n ≤ c

namespace Machine

/-! ## The Bit Buffer -/

/-- `B.wp`, the number of bits stored and the address of the next bit appended; `len(B)` (R20, R21, R22). -/
def BitBuffer.wp (B : BitBuffer) : Nat := B.bits.length

/-- `avail(B) = B.wp - B.rp` (R22). -/
def BitBuffer.avail (B : BitBuffer) : Nat := B.wp - B.rp

/-- The bits from the cursor onward, the next one first (R61). -/
def BitBuffer.unread (B : BitBuffer) : List Bool := B.bits.drop B.rp

/-- The model's read of one bit: the content at a bit address, none at or beyond `wp` (R7, R21). -/
def BitBuffer.bitAt (B : BitBuffer) (a : Nat) : Option Bool := B.bits[a]?

/-- An empty buffer (R130). -/
def BitBuffer.empty : BitBuffer := { bits := [], rp := 0 }

/-- `MemRead(B, a, n)` (R9). -/
def BitBuffer.memRead (B : BitBuffer) (a n : Nat) : Nat := fieldValue ((B.bits.drop a).take n)

/-- `WRITE(B, value, n)`: all `n` bits at the end of the sequence, or none where `CAP` would be exceeded, the `raise
Overflow` of R131. -/
def BitBuffer.write (cap : Cap) (B : BitBuffer) (value n : Nat) : Option BitBuffer :=
  if cap.allows (B.wp + n) then some { B with bits := B.bits ++ field n value } else none

/-- `READ(B, n)`: the field at the cursor, and the buffer with the cursor past it, or none where fewer than `n` bits
remain, the `raise Underflow` of R132. -/
def BitBuffer.read (B : BitBuffer) (n : Nat) : Option (Nat × BitBuffer) :=
  if B.avail < n then none else some (B.memRead B.rp n, { B with rp := B.rp + n })

/-- Byte `j` of the byte image: bit `7 - k` is the content at `8 * j + k`, or 0 beyond it (R63, R133). -/
def BitBuffer.imageByte (B : BitBuffer) (j : Nat) : Byte :=
  BitVec.ofNat 8 (fieldValue ((List.range 8).map fun k => B.bits.getD (8 * j + k) false))

/-- The byte image, `ceil(B.wp / 8)` bytes, from bit address 0 whatever the cursor is (R133). -/
def BitBuffer.pack (B : BitBuffer) : List Byte := (List.range ((B.wp + 7) / 8)).map B.imageByte

/-- The bits of a byte image, each byte most significant bit first (R64, R134). -/
def bitsOfBytes (ys : List Byte) : List Bool := ys.flatMap fun y => field 8 y.toNat

/-- Replaces the content, cursor at 0, or none where the bits exceed `CAP` (R134, R135). -/
def BitBuffer.load (cap : Cap) (seq : List Bool) : Option BitBuffer :=
  if cap.allows seq.length then some { bits := seq, rp := 0 } else none

/-- The canonical form of one bit store: the invariant `0 <= B.rp <= B.wp <= CAP` of R21. The form has no gaps and no
repeats, since the content's index is the bit address. -/
def BitBuffer.wf (cap : Cap) (B : BitBuffer) : Bool := B.rp ≤ B.wp && cap.allows B.wp

/-- Both bit stores of a state are in canonical form. -/
def Memory.wf (s : State) : Bool := s.eb.wf s.cfg.cap && s.db.wf s.cfg.cap

/-! ## Register homes -/

/-- Which Bit Buffer instance (R2). -/
inductive BufId where
  | eb
  | db
  deriving DecidableEq, Repr

/-- Which codec unit (R2). -/
inductive CodecUnit where
  | enc
  | dec
  deriving DecidableEq, Repr

def State.buf (s : State) : BufId → BitBuffer
  | .eb => s.eb
  | .db => s.db

def State.withBuf (s : State) (b : BufId) (B : BitBuffer) : State :=
  match b with
  | .eb => { s with eb := B }
  | .db => { s with db := B }

/-- `own(B)`, the mode of the buffer's owning unit (R106, R136). -/
def State.own (s : State) : BufId → Mode
  | .eb => s.enc.mode
  | .db => s.dec.mode

def State.withEnc (s : State) (e : Encoder) : State := { s with enc := e }

def State.withDec (s : State) (d : Decoder) : State := { s with dec := d }

def State.withInbox (s : State) (l : List Input) : State := { s with inbox := l }

/-- Gives the host the response of its command. -/
def State.respond (s : State) (r : Response) : State := { s with resp := r }

/-! ## Errors, and how a meaning ends -/

/-- The error entry of R221: `x.err <- code(K)`, `x.mode <- ERR`, and nothing else. -/
def errorEntry (x : CodecUnit) (k : ErrCode) (s : State) : State :=
  match x with
  | .enc => s.withEnc { s.enc with err := k, mode := .err }
  | .dec => s.withDec { s.dec with err := k, mode := .err }

/-- The one way out of `ERR` but reset, `x.START` (R222): `x.err <- 0`, `x.mode <- RUN` (R150, R180). -/
def enterRun (x : CodecUnit) (s : State) : State :=
  match x with
  | .enc => s.withEnc { s.enc with err := .noError, mode := .run }
  | .dec => s.withDec { s.dec with err := .noError, mode := .run }

/-- Pseudocode in progress: it has come to a state, or to `raise K` at a state (R9, R10). -/
inductive Flow where
  | ok (s : State)
  | raised (k : ErrCode) (s : State)
  deriving DecidableEq, Repr

/-- Sequencing: nothing after a `raise` is done (R9). -/
def Flow.andThen (f : Flow) (g : State → Flow) : Flow :=
  match f with
  | .ok s => g s
  | .raised k s => .raised k s

/-- What a step answers. -/
abbrev Result := Host.Outcome State Fault Refusal

/-- A command that is not enabled: "the command is not accepted, no state changes and no error is recorded" (R10 (a),
R107; log entry 5). -/
def notAccepted (s : State) : Result := .next (s.respond .notAccepted)

/-- The end of a command to `ENC`: the error entry where it reached a `raise` (R221), and the host's response. -/
def Flow.endCommand : Flow → Result
  | .ok s => .next (s.respond .done)
  | .raised k s => .next ((errorEntry .enc k s).respond (.error k))

/-- The end of a decoder step: the error entry where it reached a `raise` (R221); no command, so no response. -/
def Flow.endStep : Flow → Result
  | .ok s => .next s
  | .raised k s => .next (errorEntry .dec k s)

end Machine
end Sys2Proof
end

