-- ==== Sys2Proof/Machine/Buffers.lean ====
section
/-! DEFINITION. The meanings of the twelve Bit Buffer commands (40_bit_buffer.md R130 to R137). -/

namespace Sys2Proof.Machine

/-- A host command on buffer `b` is enabled while the owner is not in `RUN` (R136). -/
def whenIdleOwner (b : BufId) (s : State) (body : Result) : Result :=
  if s.own b = .run then notAccepted s else body

/-- The end of a host command that replaces a buffer, or that reached a `raise`: the code is the response and nothing
changes (R137). -/
def endBufferCommand (b : BufId) (k : ErrCode) (s : State) : Option BitBuffer → Result
  | some B => .next ((s.withBuf b B).respond .done)
  | none => .next (s.respond (.error k))

/-- `BB.CLEAR` (R130). -/
def bufClear (b : BufId) (s : State) : Result :=
  whenIdleOwner b s (endBufferCommand b .overflow s (some .empty))

/-- `BB.WRITE(value, n)`, enabled for `n <= 16` (R131, R107). -/
def bufWrite (b : BufId) (value : FieldValue) (n : FieldWidth) (s : State) : Result :=
  whenIdleOwner b s
    (if fw < n.toNat then notAccepted s
     else endBufferCommand b .overflow s ((s.buf b).write s.cfg.cap value.toNat n.toNat))

/-- `BB.READ(n)`, enabled for `n <= 16`; the response is the field zero-extended to 16 bits (R132, R107, R137). -/
def bufRead (b : BufId) (n : FieldWidth) (s : State) : Result :=
  whenIdleOwner b s
    (if fw < n.toNat then notAccepted s
     else
       match (s.buf b).read n.toNat with
       | some (v, B) => .next ((s.withBuf b B).respond (.value (BitVec.ofNat 16 v)))
       | none => .next (s.respond (.error .underflow)))

/-- `BB.PACK` (R133). -/
def bufPack (b : BufId) (s : State) : Result :=
  whenIdleOwner b s (.next (s.respond (.bytes (s.buf b).pack)))

/-- `BB.LOADBITS(seq)`, and with the bits of the bytes `BB.LOADBYTES` (R134, R135). -/
def bufLoad (b : BufId) (seq : List Bool) (s : State) : Result :=
  whenIdleOwner b s (endBufferCommand b .overflow s (BitBuffer.load s.cfg.cap seq))

def execEbClear (s : State) : Result := bufClear .eb s

def execEbWrite (value : FieldValue) (n : FieldWidth) (s : State) : Result := bufWrite .eb value n s

def execEbRead (n : FieldWidth) (s : State) : Result := bufRead .eb n s

def execEbPack (s : State) : Result := bufPack .eb s

def execEbLoadBytes (bytes : List Byte) (s : State) : Result := bufLoad .eb (bitsOfBytes bytes) s

def execEbLoadBits (seq : List Bool) (s : State) : Result := bufLoad .eb seq s

def execDbClear (s : State) : Result := bufClear .db s

def execDbWrite (value : FieldValue) (n : FieldWidth) (s : State) : Result := bufWrite .db value n s

def execDbRead (n : FieldWidth) (s : State) : Result := bufRead .db n s

def execDbPack (s : State) : Result := bufPack .db s

def execDbLoadBytes (bytes : List Byte) (s : State) : Result := bufLoad .db (bitsOfBytes bytes) s

def execDbLoadBits (seq : List Bool) (s : State) : Result := bufLoad .db seq s

end Sys2Proof.Machine
end

