-- ==== Sys2Proof/Machine/DecoderUnit.lean ====
section
/-! DEFINITION. The decoder: the execution of each stream symbol (42_decoder.md R182 to R192) and the meaning of
`DEC.START` (R180). A symbol's meaning is the part of `DEC.STEP` after the demultiplexer has routed to it, its prefix
reads among it: the fields are read in stream order, and their values are the instruction's operands (log entry 10). -/

namespace Sys2Proof.Machine

/-- `READ(DB, n)` inside a decoder step: `Underflow` becomes `TruncatedStream`, the cursor unmoved (R192). -/
def decRead (n : Nat) (s : State) : Flow :=
  match s.db.read n with
  | some (_, B) => .ok (s.withBuf .db B)
  | none => .raised .truncatedStream s

/-- The fields of a symbol, by their widths, read in order (R99). -/
def decFields : List Nat → State → Flow
  | [], s => .ok s
  | n :: rest, s => (decRead n s).andThen (decFields rest)

/-- Appends to the output (R25). -/
def appendOut (l : List Sample) (s : State) : State := s.withDec { s.dec with out := s.dec.out ++ l }

def setCur (x : Sample) (s : State) : State := s.withDec { s.dec with cur := x }

/-- `ACC(d)`: the sum of mathematical integers, `SampleRange` outside 0 to 255, else the new value, appended (R191). -/
def acc (d : Int) (s : State) : Flow :=
  let t := (s.dec.cur.toNat : Int) + d
  if t < 0 ∨ 255 < t then .raised .sampleRange s
  else .ok (appendOut [BitVec.ofInt 8 t] (setCur (BitVec.ofInt 8 t) s))

/-- A symbol is executed by `DEC` in `RUN`, `RAW8` at the header position (`D.hdr = 0`) and the others after it; at any
other moment there is no such step and nothing changes (R29, R93, R181; log entry 10). -/
def decSymbol (hdr : Bool) (body : State → Flow) (s : State) : Result :=
  if s.dec.mode = .run ∧ s.dec.hdr = hdr then (body s).endStep else .next s

/-- The pseudocode of `EXEC_RAW8` (R182). -/
def rawBody (v : Sample) (s : State) : Flow :=
  (decFields [8] s).andThen fun s =>
    .ok (s.withDec { s.dec with cur := v, out := s.dec.out ++ [v], hdr := true })

/-- The execution of a Small-Delta symbol: prefix, sub-prefix, code, `ACC(rev(code, k))` (R181, R183 to R186). -/
def smallBody (k : Band) (code : Nat) (s : State) : Flow :=
  (decFields [2, 2, bandWidth k] s).andThen (acc (rev code k))

/-- The execution of a Zero-Run: `n + 1` copies of the unchanged current value in one step (R188, R97). -/
def zrBody (n : Nat) (s : State) : Flow :=
  (decFields [2, 3] s).andThen fun s => .ok (appendOut (List.replicate (n + 1) s.dec.cur) s)

/-- The execution of a Large-Delta: prefix, sign, `D.W` magnitude bits, `ACC` (R189). -/
def ldBody (sign : Bool) (m : Nat) (s : State) : Flow :=
  (decFields [2, 1, s.dec.W.toNat] s).andThen (acc (signedMagnitude sign m))

/-- The execution of the Terminator (R190). -/
def termBody (s : State) : Flow :=
  (decFields [2] s).andThen fun s => .ok (s.withDec { s.dec with mode := .done })

/-- `EXEC_RAW8` (R182). -/
def execRaw8 (v : Sample) (s : State) : Result := decSymbol false (rawBody v) s

/-- `EXEC_SD(0)` (R183). -/
def execSdB0 (code : BitVec 2) (s : State) : Result := decSymbol true (smallBody 0 code.toNat) s

/-- `EXEC_SD(1)` (R184). -/
def execSdB1 (code : BitVec 3) (s : State) : Result := decSymbol true (smallBody 1 code.toNat) s

/-- `EXEC_SD(2)` (R185). -/
def execSdB2 (code : BitVec 4) (s : State) : Result := decSymbol true (smallBody 2 code.toNat) s

/-- `EXEC_SD(3)` (R186). -/
def execSdB3 (code : BitVec 5) (s : State) : Result := decSymbol true (smallBody 3 code.toNat) s

/-- `EXEC_ZR` (R188). -/
def execZr (n : BitVec 3) (s : State) : Result := decSymbol true (zrBody n.toNat) s

/-- `EXEC_LD` (R189). -/
def execLd (sign : Bool) (m : BitVec 15) (s : State) : Result := decSymbol true (ldBody sign m.toNat) s

/-- `EXEC_TERM` (R190). -/
def execTerm (s : State) : Result := decSymbol true termBody s

/-- `DEC.START(W)`, enabled in every mode; neither `DB` nor `D.cur` is touched (R180). -/
def execDecStart (W : LdWidth) (s : State) : Result :=
  .next ((enterRun .dec (s.withDec { s.dec with W := W, hdr := false, out := [] })).respond .done)

end Sys2Proof.Machine
end

