-- ==== Sys2Proof/Machine/EncoderUnit.lean ====
section
/-! DEFINITION. The encoder: the emission of each symbol (41_encoder.md R155 to R161, R163) and the meanings of its three
commands (R150, R151, R162). -/

namespace Sys2Proof.Machine

/-- `WRITE(EB, value, n)` as the encoder's procedure: it completes or raises `Overflow` (R9, R131, R137). -/
def encWrite (value n : Nat) (s : State) : Flow :=
  match s.eb.write s.cfg.cap value n with
  | some B => .ok (s.withBuf .eb B)
  | none => .raised .overflow s

/-- The fields of a symbol, value and width, written in order. -/
def emitFields : List (Nat × Nat) → State → Flow
  | [], s => .ok s
  | (v, n) :: rest, s => (encWrite v n s).andThen (emitFields rest)

/-- `EMIT_RAW8(s)` (R155). -/
def emitRaw8 (x : Sample) : State → Flow := emitFields [(x.toNat, 8)]

/-- `EMIT_ZR(c)` (R156). -/
def emitZr (c : Nat) : State → Flow := emitFields [(0b01, 2), (c - 1, 3)]

/-- `EMIT_SD(k, code)` (R157 to R160). -/
def emitSd (k : Band) (code : Nat) : State → Flow := emitFields [(0b00, 2), (k.val, 2), (code, bandWidth k)]

/-- `EMIT_LD(d)` with the width `E.W` (R161). -/
def emitLd (d : Int) (s : State) : Flow :=
  emitFields [(0b10, 2), (if d < 0 then 1 else 0, 1), (d.natAbs, s.enc.W.toNat)] s

/-- `EMIT_TERM` (R163). -/
def emitTerm : State → Flow := emitFields [(0b11, 2)]

def setRun (r : BitVec 3) (s : State) : State := s.withEnc { s.enc with run := r }

def setPrev (x : Sample) (s : State) : State := s.withEnc { s.enc with prev := x }

/-- `if E.run > 0 then EMIT_ZR(E.run); E.run <- 0` (R151, R162). -/
def flushRun (s : State) : Flow :=
  if s.enc.run = 0 then .ok s else (emitZr s.enc.run.toNat s).andThen fun s => .ok (setRun 0 s)

/-- The first sample of a call (R151, first branch). -/
def pushFirst (x : Sample) (s : State) : Flow :=
  (emitRaw8 x s).andThen fun s => .ok (s.withEnc { s.enc with prev := x, haveFirst := true })

/-- A zero delta: the run is emitted when it reaches 8 (R151 `ZERO`). -/
def pushZero (s : State) : Flow :=
  if s.enc.run = 7 then (emitZr runMax s).andThen fun s => .ok (setRun 0 s) else .ok (setRun (s.enc.run + 1) s)

/-- A small delta `d`, the new sample `x` (R151 `SMALL`). -/
def pushSmall (x : Sample) (d : Int) (s : State) : Flow :=
  (flushRun s).andThen fun s =>
    (emitSd (band d.natAbs) (gen d (band d.natAbs)) s).andThen fun s => .ok (setPrev x s)

/-- A large delta `d`: the pending run is flushed before the `OutOfRange` check, the check comes before any bit of the
symbol (R151 `LARGE`, R164, R220 (a)). -/
def pushLarge (x : Sample) (d : Int) (s : State) : Flow :=
  (flushRun s).andThen fun s =>
    if 2 ^ s.enc.W.toNat ≤ d.natAbs then .raised .outOfRange s
    else (emitLd d s).andThen fun s => .ok (setPrev x s)

/-- The pseudocode of `ENC.PUSH` (R151). -/
def pushBody (x : Sample) (s : State) : Flow :=
  if s.enc.haveFirst = false then pushFirst x s
  else
    match classify (delta x s.enc.prev) with
    | .zero => pushZero s
    | .small => pushSmall x (delta x s.enc.prev) s
    | .large => pushLarge x (delta x s.enc.prev) s

/-- The pseudocode of `ENC.FINISH` (R162). -/
def finishBody (s : State) : Flow :=
  if s.enc.haveFirst = false then .raised .emptyInput s
  else
    (flushRun s).andThen fun s =>
      (emitTerm s).andThen fun s => .ok (s.withEnc { s.enc with mode := .done })

/-- `ENC.START(W)`, enabled in every mode; `E.prev` is not written (R150). -/
def execEncStart (W : LdWidth) (s : State) : Result :=
  .next ((enterRun .enc
    ((s.withBuf .eb .empty).withEnc { s.enc with W := W, haveFirst := false, run := 0 })).respond .done)

/-- `ENC.PUSH(s)`, enabled when `E.mode == RUN` (R151). -/
def execEncPush (x : Sample) (s : State) : Result :=
  if s.enc.mode = .run then (pushBody x s).endCommand else notAccepted s

/-- `ENC.FINISH`, enabled when `E.mode == RUN` (R162). -/
def execEncFinish (s : State) : Result :=
  if s.enc.mode = .run then (finishBody s).endCommand else notAccepted s

end Sys2Proof.Machine
end

