-- ==== Sys2Proof/Machine/Dispatch.lean ====
section
/-! DEFINITION. The dispatch of an instruction to its meaning, one arm per constructor of `Instr`. -/

namespace Sys2Proof.Machine

def exec (i : Instr) (s : State) : Host.Outcome State Fault Refusal :=
  match i with
  | .raw8 v => Sys2Proof.Machine.execRaw8 v s
  | .sdB0 code => Sys2Proof.Machine.execSdB0 code s
  | .sdB1 code => Sys2Proof.Machine.execSdB1 code s
  | .sdB2 code => Sys2Proof.Machine.execSdB2 code s
  | .sdB3 code => Sys2Proof.Machine.execSdB3 code s
  | .zr n => Sys2Proof.Machine.execZr n s
  | .ld sign m => Sys2Proof.Machine.execLd sign m s
  | .term => Sys2Proof.Machine.execTerm s
  | .ebClear => Sys2Proof.Machine.execEbClear s
  | .ebWrite value n => Sys2Proof.Machine.execEbWrite value n s
  | .ebRead n => Sys2Proof.Machine.execEbRead n s
  | .ebPack => Sys2Proof.Machine.execEbPack s
  | .ebLoadBytes bytes => Sys2Proof.Machine.execEbLoadBytes bytes s
  | .ebLoadBits seq => Sys2Proof.Machine.execEbLoadBits seq s
  | .dbClear => Sys2Proof.Machine.execDbClear s
  | .dbWrite value n => Sys2Proof.Machine.execDbWrite value n s
  | .dbRead n => Sys2Proof.Machine.execDbRead n s
  | .dbPack => Sys2Proof.Machine.execDbPack s
  | .dbLoadBytes bytes => Sys2Proof.Machine.execDbLoadBytes bytes s
  | .dbLoadBits seq => Sys2Proof.Machine.execDbLoadBits seq s
  | .encStart W => Sys2Proof.Machine.execEncStart W s
  | .encPush x => Sys2Proof.Machine.execEncPush x s
  | .encFinish => Sys2Proof.Machine.execEncFinish s
  | .decStart W => Sys2Proof.Machine.execDecStart W s

end Sys2Proof.Machine
end

