-- ==== Sys2Proof/Machine/Fetch.lean ====
section
/-! DEFINITION. What the next step does: the host's next input, or the decoder's fetch of a symbol at its cursor
(10_state.md R27; 42_decoder.md R181; log entry 4). -/

namespace Sys2Proof.Machine

/-- The next move: an instruction to execute at a state, or a state the move itself leads to. -/
inductive Move where
  | run (i : Instr) (s : State)
  | settle (s : State)
  deriving DecidableEq, Repr

/-- The reset input (R240): every piece of state of CORE at the values of R34. The parameter and what the host does
after it are not state of CORE and stay. -/
def resetInput (s : State) : State := { State.reset with cfg := s.cfg, inbox := s.inbox }

/-- A symbol that the stream cuts short: the fields read in full are consumed, then `TruncatedStream` (R192). -/
def truncate (consumed : Nat) (s : State) : State :=
  errorEntry .dec .truncatedStream (s.withBuf .db { s.db with rp := s.db.rp + consumed })

/-- The decoder's turn: the symbol at `DB.rp` in `RUN`, nothing in the other modes (R29, R181). -/
def fetchSymbol (s : State) : Move :=
  if s.dec.mode = .run then
    match decodeSymbol s.dec.hdr s.dec.W s.db.unread with
    | .ok (i, _) => .run i s
    | .error (.truncated n) => .settle (truncate n s)
    | .error _ => .settle s
  else .settle s

/-- The host's command, where its packet selects one; else it is not accepted (R107; log entry 5). -/
def fetchCommand (p : Packet) (s : State) : Move :=
  match decodeCommand p with
  | .ok i => .run i s
  | .error _ => .settle (s.respond .notAccepted)

/-- The next move of the machine: the head of the host's inbox; with an empty inbox the decoder's step (R252), and
outside `RUN` nothing (R240; log entry 14). -/
def fetch (s : State) : Move :=
  match s.inbox with
  | [] => fetchSymbol s
  | .cmd p :: rest => fetchCommand p (s.withInbox rest)
  | .reset :: rest => .settle (resetInput (s.withInbox rest))
  | .decTurn :: rest => fetchSymbol (s.withInbox rest)

/-- `s` with a table word placed where `fetch` finds its next instruction (log entries 11 and 12): a command as the one
entry of the inbox; a symbol as the content of `DB`, unread, with `DEC` in `RUN` at the position and width it needs. -/
def placeReading (s : State) (r : TableReading) : State :=
  match r.enc with
  | .command p => s.withInbox [.cmd p]
  | .stream bits =>
    ((s.withBuf .db { bits := bits, rp := 0 }).withDec
      { s.dec with mode := .run, hdr := r.hdr, W := r.W, err := .noError }).withInbox []

end Sys2Proof.Machine
end

