-- ==== Sys2Proof/Machine/Step.lean ====
section
/-! DEFINITION. One step of CORE: one command, one decoder step, or one input of the host (00_scope.md R10). -/

namespace Sys2Proof.Machine

/-- One step: the next move of `fetch`, an instruction executed by `exec`. -/
def step (s : State) : Host.Outcome State Fault Refusal :=
  match fetch s with
  | .run i t => exec i t
  | .settle t => .next t

/-- `s` with a word of spec/opcode_table.json stored where `step` fetches its next instruction. -/
def State.withFetchWord (s : State) (nbits w : Nat) : State :=
  match tableReading nbits w with
  | some r => placeReading s r
  | none => s

end Sys2Proof.Machine
end

