-- ==== Sys2Proof/Machine/CallLevel.lean ====
section
/-! DEFINITION. The source's two algorithms as functions of a whole call, `encode(S, W)` (41_encoder.md R165) and
`decode(bits, W)` (42_decoder.md R193), and a sequence of instructions of the machine, to hold the units against them. -/

namespace Sys2Proof.Machine

/-! ## `encode(S, W)` -/

/-- Step 2 of R165: the deltas of a sequence after its previous sample. -/
def deltasFrom (prev : Sample) : List Sample → List Int
  | [] => []
  | x :: xs => delta x prev :: deltasFrom x xs

/-- The consecutive zero deltas at the head, at most `limit` (the inner loop of R165). -/
def leadingZeros : Nat → List Int → Nat
  | 0, _ => 0
  | _ + 1, [] => 0
  | limit + 1, d :: ds => if d = 0 then leadingZeros limit ds + 1 else 0

/-- Step 3 of R165, one symbol a turn. The fuel is the number of deltas, and each turn uses at least one of them. -/
def encodeDeltas (W : LdWidth) : Nat → List Int → Except ErrCode (List Bool)
  | _, [] => .ok []
  | 0, _ :: _ => .ok []
  | fuel + 1, d :: ds =>
    if d = 0 then
      let more := leadingZeros (runMax - 1) ds
      (encodeDeltas W fuel (ds.drop more)).map fun bits => field 2 0b01 ++ field 3 more ++ bits
    else if d.natAbs ≤ sdMax then
      let k := band d.natAbs
      (encodeDeltas W fuel ds).map fun bits =>
        field 2 0b00 ++ field 2 k.val ++ field (bandWidth k) (gen d k) ++ bits
    else if 2 ^ W.toNat ≤ d.natAbs then .error .outOfRange
    else
      (encodeDeltas W fuel ds).map fun bits =>
        field 2 0b10 ++ field 1 (if d < 0 then 1 else 0) ++ field W.toNat d.natAbs ++ bits

/-- `encode(S, W)` (R165). -/
def encodeCall (W : LdWidth) : List Sample → Except ErrCode (List Bool)
  | [] => .error .emptyInput
  | x :: xs =>
    (encodeDeltas W xs.length (deltasFrom x xs)).map fun bits => field 8 x.toNat ++ bits ++ field 2 0b11

/-! ## `decode(bits, W)` -/

/-- `take(n)` of R193. -/
def takeBits {α : Type} (n : Nat) (bits : List Bool) (k : Nat → List Bool → Except ErrCode α) : Except ErrCode α :=
  if bits.length < n then .error .truncatedStream else k (fieldValue (bits.take n)) (bits.drop n)

/-- `cur + d`, or `SampleRange` (R193). -/
def addDelta (cur : Sample) (d : Int) : Except ErrCode Sample :=
  if (cur.toNat : Int) + d < 0 ∨ 255 < (cur.toNat : Int) + d then .error .sampleRange
  else .ok (BitVec.ofInt 8 ((cur.toNat : Int) + d))

/-- Step 2 of R193, one symbol a turn. The fuel is above the number of symbols, since each takes at least 2 bits. -/
def decodeLoop (W : LdWidth) : Nat → Sample → List Sample → List Bool → Except ErrCode (List Sample)
  | 0, _, _, _ => .error .truncatedStream
  | fuel + 1, cur, out, bits =>
    takeBits 2 bits fun p bits =>
      if p = 0b00 then
        takeBits 2 bits fun k bits =>
          takeBits (k + 2) bits fun code bits =>
            (addDelta cur (rev code (Fin.ofNat 4 k))).bind fun cur => decodeLoop W fuel cur (out ++ [cur]) bits
      else if p = 0b01 then
        takeBits 3 bits fun n bits => decodeLoop W fuel cur (out ++ List.replicate (n + 1) cur) bits
      else if p = 0b10 then
        takeBits 1 bits fun s bits =>
          takeBits W.toNat bits fun m bits =>
            (addDelta cur (signedMagnitude (s == 1) m)).bind fun cur => decodeLoop W fuel cur (out ++ [cur]) bits
      else .ok out

/-- `decode(bits, W)` (R193). -/
def decodeCall (W : LdWidth) (bits : List Bool) : Except ErrCode (List Sample) :=
  takeBits 8 bits fun v rest =>
    decodeLoop W (bits.length + 1) (BitVec.ofNat 8 v) [BitVec.ofNat 8 v] rest

/-! ## Sequences of instructions -/

/-- Executes instructions one after the other; stops where one does not answer a next state. -/
def execAll : List Instr → State → Result
  | [], s => .next s
  | i :: is, s =>
    match exec i s with
    | .next t => execAll is t
    | .fault f => .fault f
    | .refused r => .refused r

/-- The commands of one encode call of `S` at width `W` (R166, R242). -/
def encodeCommands (W : LdWidth) (S : List Sample) : List Instr :=
  .encStart W :: (S.map .encPush ++ [.encFinish])

/-- `n` steps of the machine, each answering a next state; none where one does not. -/
def stepsFrom (step : State → Result) : Nat → State → Option State
  | 0, s => some s
  | n + 1, s =>
    match step s with
    | .next t => stepsFrom step n t
    | .fault _ => none
    | .refused _ => none

end Sys2Proof.Machine
end

