-- ==== Sys2Proof/Machine/HostView.lean ====
section
/-! DEFINITION. What the host reads by name: status registers, status lines, pointers, the output and the result of a call
(10_state.md R21, R24 to R26, R28; 70_reset_and_hazards.md R249; decision D29). -/

namespace Sys2Proof.Machine

/-- The read-only status registers (R24, R26), as their codes. -/
structure HostStatus where
  eMode : BitVec 2
  eErr  : BitVec 3
  dMode : BitVec 2
  dErr  : BitVec 3
  deriving DecidableEq, Repr

/-- `E.mode`, `E.err`, `D.mode`, `D.err`, readable at any time (R24, R26). -/
def State.status (s : State) : HostStatus where
  eMode := s.enc.mode.code
  eErr  := s.enc.err.code
  dMode := s.dec.mode.code
  dErr  := s.dec.err.code

/-- `(B.wp, B.rp)`, readable "whenever the owning unit is not in `RUN`" (R21). -/
def State.hostPointers (s : State) (b : BufId) : Option (Nat × Nat) :=
  if s.own b = .run then none else some ((s.buf b).wp, (s.buf b).rp)

/-- `D.out`, readable at any time (R25). -/
def State.hostOut (s : State) : List Sample := s.dec.out

/-- The result of a decode call: `D.out`, "only when `D.mode = DONE`" (R25, R249). -/
def State.decodeResult (s : State) : Option (List Sample) :=
  if s.dec.mode = .done then some s.dec.out else none

/-- The result of an encode call: the content of `EB` when `E.mode = DONE`; an error has none (R162, R221, R249). -/
def State.encodeResult (s : State) : Option (List Bool) :=
  if s.enc.mode = .done then some s.eb.bits else none

end Sys2Proof.Machine
end

