-- ==== Sys2Proof/Safety.lean ====
section
/-! DEFINITION. What counts as a safe state: the invariant of CORE that the spec states or that its rules imply, in the
terms the statements use. -/

namespace Sys2Proof.Machine

/-! ## Instructions by their form -/

/-- The unit code of a buffer's commands (R106). -/
def BufId.unit : BufId → BitVec 2
  | .eb => 0
  | .db => 1

/-- `BB.CLEAR` on a buffer. -/
def BufId.clear : BufId → Instr
  | .eb => .ebClear
  | .db => .dbClear

/-- `BB.WRITE(value, n)` on a buffer. -/
def BufId.writeField (v : FieldValue) (n : FieldWidth) : BufId → Instr
  | .eb => .ebWrite v n
  | .db => .dbWrite v n

/-- `BB.READ(n)` on a buffer. -/
def BufId.readField (n : FieldWidth) : BufId → Instr
  | .eb => .ebRead n
  | .db => .dbRead n

/-- `BB.PACK` on a buffer. -/
def BufId.packBytes : BufId → Instr
  | .eb => .ebPack
  | .db => .dbPack

/-- `BB.LOADBYTES(bytes)` on a buffer. -/
def BufId.loadBytes (ys : List Byte) : BufId → Instr
  | .eb => .ebLoadBytes ys
  | .db => .dbLoadBytes ys

/-- `BB.LOADBITS(seq)` on a buffer. -/
def BufId.loadBits (seq : List Bool) : BufId → Instr
  | .eb => .ebLoadBits seq
  | .db => .dbLoadBits seq

/-- The buffer that a buffer command is issued to. -/
def bufferOf : Instr → Option BufId
  | .ebClear | .ebWrite _ _ | .ebRead _ | .ebPack | .ebLoadBytes _ | .ebLoadBits _ => some .eb
  | .dbClear | .dbWrite _ _ | .dbRead _ | .dbPack | .dbLoadBytes _ | .dbLoadBits _ => some .db
  | .raw8 _ | .sdB0 _ | .sdB1 _ | .sdB2 _ | .sdB3 _ | .zr _ | .ld _ _ | .term => none
  | .encStart _ | .encPush _ | .encFinish | .decStart _ => none

/-- The widths of a symbol's fields in stream order (R92); no fields for a command. -/
def symbolFields (W : LdWidth) : Instr → List Nat
  | .raw8 _ => [8]
  | .sdB0 _ => [2, 2, 2]
  | .sdB1 _ => [2, 2, 3]
  | .sdB2 _ => [2, 2, 4]
  | .sdB3 _ => [2, 2, 5]
  | .zr _ => [2, 3]
  | .ld _ _ => [2, 1, W.toNat]
  | .term => [2]
  | .ebClear | .ebWrite _ _ | .ebRead _ | .ebPack | .ebLoadBytes _ | .ebLoadBits _ => []
  | .dbClear | .dbWrite _ _ | .dbRead _ | .dbPack | .dbLoadBytes _ | .dbLoadBits _ => []
  | .encStart _ | .encPush _ | .encFinish | .decStart _ => []

/-- The instruction is a stream symbol. -/
def isSymbol (i : Instr) : Bool := symbolFields 0 i ≠ []

/-- The instruction belongs to the encode side, `EB` and `ENC` (R20). -/
def encodeSide : Instr → Bool
  | .encStart _ | .encPush _ | .encFinish => true
  | .ebClear | .ebWrite _ _ | .ebRead _ | .ebPack | .ebLoadBytes _ | .ebLoadBits _ => true
  | .dbClear | .dbWrite _ _ | .dbRead _ | .dbPack | .dbLoadBytes _ | .dbLoadBits _ => false
  | .raw8 _ | .sdB0 _ | .sdB1 _ | .sdB2 _ | .sdB3 _ | .zr _ | .ld _ _ | .term | .decStart _ => false

/-- The band and the code of a Small-Delta symbol (R94). -/
def smallSymbol : Instr → Option (Band × Nat)
  | .sdB0 c => some (0, c.toNat)
  | .sdB1 c => some (1, c.toNat)
  | .sdB2 c => some (2, c.toNat)
  | .sdB3 c => some (3, c.toNat)
  | .raw8 _ | .zr _ | .ld _ _ | .term => none
  | .ebClear | .ebWrite _ _ | .ebRead _ | .ebPack | .ebLoadBytes _ | .ebLoadBits _ => none
  | .dbClear | .dbWrite _ _ | .dbRead _ | .dbPack | .dbLoadBytes _ | .dbLoadBits _ => none
  | .encStart _ | .encPush _ | .encFinish | .decStart _ => none

/-- The bits of a pending Zero-Run symbol, none where no run is pending (R151, R162). -/
def pendingRun (r : BitVec 3) : List Bool :=
  if r = 0 then [] else field 2 0b01 ++ field 3 (r.toNat - 1)

/-- The fields of a pending Zero-Run symbol, one list of bits each (R92, R156). -/
def pendingFields (r : BitVec 3) : List (List Bool) :=
  if r = 0 then [] else [field 2 0b01, field 3 (r.toNat - 1)]

/-- The consecutive deltas of the samples are representable under `W`: those above 30 fit `W` bits (R164, R194). -/
def Representable (W : LdWidth) (S : List Sample) : Prop :=
  ∀ (j : Nat) (a b : Sample), S[j]? = some a → S[j + 1]? = some b →
    30 < ((b.toNat : Int) - a.toNat).natAbs → ((b.toNat : Int) - a.toNat).natAbs < 2 ^ W.toNat

/-! ## The invariant -/

/-- The invariant of CORE's state. -/
structure State.Inv (s : State) : Prop where
  /-- `0 <= B.rp <= B.wp <= CAP` of both buffers (R21). -/
  memory : Memory.wf s = true
  /-- `CAP` is a positive integer or unbounded (R5). -/
  capPositive : s.cfg.cap ≠ .finite 0
  /-- `E.err` is 0 exactly outside `ERR` (R24, R30, R221). -/
  encErr : s.enc.err = .noError ↔ s.enc.mode ≠ .err
  /-- The codes `ENC` can hold: 0, 1, 2, 6 (R24). -/
  encCode : s.enc.err ∈ [ErrCode.noError, .emptyInput, .outOfRange, .overflow]
  /-- `D.err` is 0 exactly outside `ERR` (R26, R30, R221). -/
  decErr : s.dec.err = .noError ↔ s.dec.mode ≠ .err
  /-- The codes `DEC` can hold: 0, 4, 7 (R26). -/
  decCode : s.dec.err ∈ [ErrCode.noError, .truncatedStream, .sampleRange]
  /-- The host cannot read `EB` during a call, so its cursor stays at 0 (R136, R150). -/
  encCursor : s.enc.mode = .run → s.eb.rp = 0
  /-- Before the first sample of a call nothing is written and no run is pending (R23, R150). -/
  encFresh : s.enc.mode = .run → s.enc.haveFirst = false → s.eb.bits = [] ∧ s.enc.run = 0
  /-- After the first sample its 8 bits are in `EB` (R155). -/
  encHead : s.enc.mode = .run → s.enc.haveFirst = true → 8 ≤ s.eb.wp
  /-- A finished call has pushed a sample and holds no pending run (R162, R32). -/
  encDone : s.enc.mode = .done → s.enc.haveFirst = true ∧ s.enc.run = 0
  /-- `D.out` is empty exactly until the raw first sample has been read (R25). -/
  decOut : s.dec.hdr = false ↔ s.dec.out = []
  /-- `D.cur` is the last sample of the output (R25). -/
  decCur : s.dec.hdr = true → s.dec.out.getLast? = some s.dec.cur
  /-- A decode call ends in `DONE` only after its header (R90, R190). -/
  decDone : s.dec.mode = .done → s.dec.hdr = true

end Sys2Proof.Machine
end

