-- ==== Sys2Proof/Certificates/Slice0/Obligations.lean ====
section
/-! DEFINITION. The statements about CORE, each from the numbered rules of spec/. A record update `{ s with … }` in a
conclusion is the frame: every field of the state that it does not name is unchanged. -/

open Sys2Proof Sys2Proof.Machine

/-! ## Reset and the step -/

/-- R34 and R240, the values the spec gives: in `State.reset`, and after the reset input in any state. The unspecified
registers are left out. -/
def Obligations.ResetGivesTheResetTable : Prop :=
  ∀ t : State,
    (t = State.reset ∨ ∃ s rest, s.inbox = .reset :: rest ∧ step s = .next t) →
    t.eb = { bits := [], rp := 0 } ∧ t.db = { bits := [], rp := 0 } ∧ t.eb.wp = 0 ∧ t.db.wp = 0 ∧
    t.enc.mode = .idle ∧ t.dec.mode = .idle ∧ t.enc.err = .noError ∧ t.dec.err = .noError ∧
    t.enc.haveFirst = false ∧ t.dec.hdr = false ∧ t.enc.run = 0 ∧ t.dec.out = []

/-- The invariant holds after reset. -/
def Obligations.ResetMeetsTheInvariant : Prop := State.reset.Inv

/-- R21, R24 to R26, R30: every step of the machine keeps the invariant. -/
def Obligations.StepKeepsTheInvariant : Prop :=
  ∀ s t : State, s.Inv → step s = .next t → t.Inv

/-- Every state has a next state: no step faults and no step is refused (R10, R221: an error is an entry, not a stop). -/
def Obligations.MachineNeverStops : Prop := ∀ s : State, ∃ t, step s = .next t

/-- The step runs the decoded instruction: the host's command at the head of the inbox, or the symbol at `DB.rp` when it
is the decoder's turn and `DEC` is in `RUN` (R27, R181). The inbox is the model's own (log entry 4). -/
def Obligations.StepRunsTheDecodedInstruction : Prop :=
  (∀ (s : State) (p : Packet) (rest : List Input) (i : Instr),
    s.inbox = .cmd p :: rest → decodeCommand p = .ok i → step s = exec i (s.withInbox rest)) ∧
  (∀ (s : State) (i : Instr) (after : List Bool),
    (s.inbox = [] ∨ ∃ rest, s.inbox = .decTurn :: rest) → s.dec.mode = .run →
    decodeSymbol s.dec.hdr s.dec.W s.db.unread = .ok (i, after) → step s = exec i (s.withInbox s.inbox.tail))

/-! ## Encodings -/

/-- Decoding the encoding of a well-formed instruction gives it back, whatever follows it in the stream (R91, R92, R94,
R106). -/
def Obligations.DecodeOfEncodeIsTheInstruction : Prop :=
  ∀ (W : LdWidth) (i : Instr), i.wf W = true →
    (∀ bits rest, encode W i = .stream bits → decode i.atHdr W (.stream (bits ++ rest)) = .ok (i, rest)) ∧
    (∀ hdr p, encode W i = .command p → decode hdr W (.command p) = .ok (i, []))

/-- What the decoder reads from a stream is well formed, and its encoding is exactly the bits that were read: no bit is
dropped and no two symbols share bits (R91, R92, R99). -/
def Obligations.EncodeOfDecodeIsTheBits : Prop :=
  ∀ (hdr : Bool) (W : LdWidth) (bits rest : List Bool) (i : Instr),
    decodeSymbol hdr W bits = .ok (i, rest) →
    i.wf W = true ∧ i.atHdr = hdr ∧ ∃ read, encode W i = .stream read ∧ bits = read ++ rest

/-- A few words written out from the spec's encodings and vectors (R91, R106, 95_test_vectors.md 2.3 and 2.5). -/
def Obligations.SampleWordsDecode : Prop :=
  decodeSymbol false 8 [false, false, true, true, false, true, true, true] = .ok (.raw8 55, []) ∧
  decodeSymbol true 8 [false, false, false, true, true, false, false] = .ok (.sdB1 4, []) ∧
  decodeSymbol true 8 [false, true, false, true, true, true] = .ok (.zr 3, [true]) ∧
  decodeSymbol true 5 [true, false, false, true, true, true, true, true] = .ok (.ld false 31, []) ∧
  decodeSymbol true 8 [true, true, false] = .ok (.term, [false]) ∧
  decodeCommand { cmd := 0b10000, W := 8 } = .ok (.encStart 8) ∧
  decodeCommand { cmd := 0b01101, seq := [true] } = .ok (.dbLoadBits [true])

/-- R100: every bit sequence that is long enough decodes to a symbol, and the only ways a decode call can fail are
`TruncatedStream` and `SampleRange`. -/
def Obligations.NoEncodingIsReserved : Prop :=
  (∀ (hdr : Bool) (W : LdWidth) (bits : List Bool), 3 + W.toNat ≤ bits.length → 9 ≤ bits.length →
    ∃ i rest, decodeSymbol hdr W bits = .ok (i, rest)) ∧
  (∀ (W : LdWidth) (bits : List Bool) (k : ErrCode), decodeCall W bits = .error k →
    k = .truncatedStream ∨ k = .sampleRange)

/-- R107: codes that are not in the table of R106, and `WRITE` and `READ` with `n` from 17 to 31, are not accepted and
change no state. That such a command is a step with the response `notAccepted` is the model's (DESIGN CHOICE, log entries 4
to 6). -/
def Obligations.UnusedCommandsAreNotAccepted : Prop :=
  ∀ (s : State) (p : Packet) (rest : List Input), s.inbox = .cmd p :: rest →
    (p.cmd.toNat ∈ [0b00110, 0b00111, 0b01110, 0b01111] ∨
     p.cmd.toNat ∈ [0b10011, 0b10100, 0b10101, 0b10110, 0b10111] ∨
     p.cmd.toNat ∈ [0b11001, 0b11010, 0b11011, 0b11100, 0b11101, 0b11110, 0b11111] ∨
     (p.cmd.toNat ∈ [0b00001, 0b00010, 0b01001, 0b01010] ∧ 17 ≤ p.n.toNat)) →
    step s = .next { s with inbox := rest, resp := .notAccepted }

/-! ## Operands -/

/-- R153: the band of a small magnitude covers it, and is the only one that does. -/
def Obligations.BandSelectorPicksTheCoveringBand : Prop :=
  ∀ a : Nat, 1 ≤ a → a ≤ 30 →
    bandLo (band a) ≤ a ∧ a ≤ bandHi (band a) ∧ ∀ k : Band, bandLo k ≤ a → a ≤ bandHi k → k = band a

/-- R95, R96, R154, R187: for a delta in band `k` the code is `delta + K(k)` or `delta + 1`, fits `k + 2` bits, lies in
the lower half exactly for a negative delta, and reverses to the delta; each code is that of its reversed delta. -/
def Obligations.BandCodesAreABijection : Prop :=
  (∀ (k : Band) (d : Int), bandLo k ≤ d.natAbs → d.natAbs ≤ bandHi k →
    (d < 0 → (gen d k : Int) = d + bandHi k) ∧ (0 < d → (gen d k : Int) = d + 1) ∧
    gen d k < 2 ^ (k.val + 2) ∧ (gen d k < 2 ^ (k.val + 1) ↔ d < 0) ∧ rev (gen d k) k = d) ∧
  (∀ (k : Band) (c : Nat), c < 2 ^ (k.val + 2) →
    bandLo k ≤ (rev c k).natAbs ∧ (rev c k).natAbs ≤ bandHi k ∧ gen (rev c k) k = c ∧
    (c < 2 ^ (k.val + 1) → rev c k = (c : Int) - bandHi k) ∧ (2 ^ (k.val + 1) ≤ c → rev c k = (c : Int) - 1))

/-- R152: the delta of two samples lies in -255 to 255; its class is decided by 0 and by magnitude 30. -/
def Obligations.DeltaClassifierSortsByMagnitude : Prop :=
  (∀ x p : Sample, -255 ≤ delta x p ∧ delta x p ≤ 255 ∧ delta x p + p.toNat = x.toNat) ∧
  (∀ d : Int, (classify d = .zero ↔ d = 0) ∧ (classify d = .small ↔ d ≠ 0 ∧ d.natAbs ≤ 30) ∧
    (classify d = .large ↔ 30 < d.natAbs))

/-! ## The Bit Buffer -/

/-- R130: `BB.CLEAR`; `ENC.START` performs the same on `EB`. -/
def Obligations.ClearEmptiesTheBuffer : Prop :=
  (∀ (b : BufId) (p : Packet), p.cmd = b.unit ++ (0b000 : BitVec 3) → decodeCommand p = .ok b.clear) ∧
  (∀ (b : BufId) (s : State), s.own b ≠ .run →
    ∃ t, exec b.clear s = .next t ∧ (t.buf b).wp = 0 ∧ (t.buf b).rp = 0 ∧ (t.buf b).avail = 0 ∧
      t = (s.withBuf b (t.buf b)).respond .done) ∧
  (∀ (W : LdWidth) (s : State), ∃ t, exec (.encStart W) s = .next t ∧ t.eb.wp = 0 ∧ t.eb.rp = 0)

/-- R131: `BB.WRITE(value, n)`. The bits appended are those of `value`, bit `n - 1` first; nothing else changes; where
`CAP` would be exceeded the response is `Overflow` and nothing changes; `n = 0` never faults. -/
def Obligations.WriteAppendsTheField : Prop :=
  (∀ (b : BufId) (p : Packet), p.cmd = b.unit ++ (0b001 : BitVec 3) → p.n.toNat ≤ 16 →
    decodeCommand p = .ok (b.writeField p.value p.n)) ∧
  (∀ (b : BufId) (v : FieldValue) (n : FieldWidth) (s : State), s.own b ≠ .run → n.toNat ≤ 16 →
    (s.cfg.cap.allows ((s.buf b).wp + n.toNat) = true →
      ∃ B : BitBuffer, exec (b.writeField v n) s = .next ((s.withBuf b B).respond .done) ∧
        B.rp = (s.buf b).rp ∧ B.wp = (s.buf b).wp + n.toNat ∧
        (∀ k < n.toNat, B.bitAt ((s.buf b).wp + k) = some (v.getLsbD (n.toNat - 1 - k))) ∧
        (∀ a < (s.buf b).wp, B.bitAt a = (s.buf b).bitAt a)) ∧
    (s.cfg.cap.allows ((s.buf b).wp + n.toNat) = false →
      exec (b.writeField v n) s = .next (s.respond (.error .overflow))) ∧
    (n = 0 → Memory.wf s = true → exec (b.writeField v n) s = .next (s.respond .done)))

/-- R132: `BB.READ(n)`. The result has the next `n` bits, the first the most significant, and no bit above; the cursor
advances by `n`; with fewer than `n` bits left the response is `Underflow` and nothing changes. -/
def Obligations.ReadReturnsTheNextBits : Prop :=
  (∀ (b : BufId) (p : Packet), p.cmd = b.unit ++ (0b010 : BitVec 3) → p.n.toNat ≤ 16 →
    decodeCommand p = .ok (b.readField p.n)) ∧
  (∀ (b : BufId) (n : FieldWidth) (s : State), s.own b ≠ .run → n.toNat ≤ 16 →
    (n.toNat ≤ (s.buf b).avail →
      ∃ v : FieldValue, exec (b.readField n) s =
          .next ((s.withBuf b { s.buf b with rp := (s.buf b).rp + n.toNat }).respond (.value v)) ∧
        v.toNat < 2 ^ n.toNat ∧
        ∀ k < n.toNat, (s.buf b).bitAt ((s.buf b).rp + k) = some (v.getLsbD (n.toNat - 1 - k))) ∧
    ((s.buf b).avail < n.toNat → exec (b.readField n) s = .next (s.respond (.error .underflow))))

/-- R63, R133: `BB.PACK` returns `ceil(wp / 8)` bytes, bit `7 - k` of byte `j` the bit at address `8 j + k` and 0 beyond
the content, whatever the cursor is, and changes no state. -/
def Obligations.PackReturnsTheByteImage : Prop :=
  (∀ (b : BufId) (p : Packet), p.cmd = b.unit ++ (0b011 : BitVec 3) → decodeCommand p = .ok b.packBytes) ∧
  (∀ (b : BufId) (s : State), s.own b ≠ .run →
    ∃ ys : List Byte, exec b.packBytes s = .next (s.respond (.bytes ys)) ∧
      8 * ys.length < (s.buf b).wp + 8 ∧ (s.buf b).wp ≤ 8 * ys.length ∧
      ∀ j y, ys[j]? = some y → ∀ k < 8, y.getLsbD (7 - k) = ((s.buf b).bitAt (8 * j + k)).getD false)

/-- R64, R134: `BB.LOADBYTES(bytes)` replaces the content by the bits of the bytes, most significant first, cursor at 0;
where they exceed `CAP` the response is `Overflow` and nothing changes. -/
def Obligations.LoadBytesReplacesTheContent : Prop :=
  (∀ (b : BufId) (p : Packet), p.cmd = b.unit ++ (0b100 : BitVec 3) → decodeCommand p = .ok (b.loadBytes p.bytes)) ∧
  (∀ (b : BufId) (ys : List Byte) (s : State), s.own b ≠ .run →
    (s.cfg.cap.allows (8 * ys.length) = true →
      ∃ B : BitBuffer, exec (b.loadBytes ys) s = .next ((s.withBuf b B).respond .done) ∧
        B.wp = 8 * ys.length ∧ B.rp = 0 ∧
        ∀ j y, ys[j]? = some y → ∀ k < 8, B.bitAt (8 * j + k) = some (y.getLsbD (7 - k))) ∧
    (s.cfg.cap.allows (8 * ys.length) = false → exec (b.loadBytes ys) s = .next (s.respond (.error .overflow))))

/-- R135: `BB.LOADBITS(seq)` replaces the content by `seq`, cursor at 0; it is equivalent to `CLEAR` and one `WRITE` of
width 1 per bit; where `seq` exceeds `CAP` the response is `Overflow` and nothing changes. -/
def Obligations.LoadBitsReplacesTheContent : Prop :=
  (∀ (b : BufId) (p : Packet), p.cmd = b.unit ++ (0b101 : BitVec 3) → decodeCommand p = .ok (b.loadBits p.seq)) ∧
  (∀ (b : BufId) (seq : List Bool) (s : State), s.own b ≠ .run →
    (s.cfg.cap.allows seq.length = true →
      exec (b.loadBits seq) s = .next ((s.withBuf b { bits := seq, rp := 0 }).respond .done) ∧
      execAll (b.clear :: seq.map fun x => b.writeField (if x then 1 else 0) 1) s = exec (b.loadBits seq) s) ∧
    (s.cfg.cap.allows seq.length = false → exec (b.loadBits seq) s = .next (s.respond (.error .overflow))))

/-- R136: while the owner is in `RUN` no buffer command of the host is accepted on that buffer, and in every other mode
none is turned away for its owner's sake. That a command that is not accepted is a step with the response `notAccepted` is
the model's (DESIGN CHOICE, log entry 5). -/
def Obligations.OwnerInRunKeepsItsBuffer : Prop :=
  ∀ (i : Instr) (b : BufId) (s : State), bufferOf i = some b →
    (s.own b = .run → exec i s = .next (s.respond .notAccepted)) ∧
    (s.own b ≠ .run → i.wf 0 = true → ∃ t, exec i s = .next t ∧ t.resp ≠ .notAccepted)

/-- R137: a buffer command of the host that reaches a `raise` answers code 3 or 6 and changes nothing. -/
def Obligations.FailedBufferCommandChangesNothing : Prop :=
  ∀ (i : Instr) (b : BufId) (s t : State) (k : ErrCode), bufferOf i = some b → exec i s = .next t →
    t.resp = .error k → t = s.respond (.error k) ∧ (k.code = 3 ∨ k.code = 6)

/-- R138 (a), R65: on a buffer with no unread bits, writing a field and reading it back gives `v mod 2^n` and leaves none
unread. -/
def Obligations.WriteThenReadReturnsTheValue : Prop :=
  ∀ (b : BufId) (v : FieldValue) (n : FieldWidth) (s : State), s.own b ≠ .run → n.toNat ≤ 16 →
    Memory.wf s = true → (s.buf b).avail = 0 → s.cfg.cap.allows ((s.buf b).wp + n.toNat) = true →
    ∃ (t : State) (r : FieldValue), execAll [b.writeField v n, b.readField n] s = .next t ∧
      t.resp = .value r ∧ r.toNat = v.toNat % 2 ^ n.toNat ∧ (t.buf b).avail = 0

/-- R138 (b), (c), R65: two adjacent fields of at most 16 bits together are one field, on write and on read. -/
def Obligations.AdjacentFieldsAreOneField : Prop :=
  (∀ (b : BufId) (v1 v2 v : FieldValue) (n1 n2 n : FieldWidth) (s t : State), s.own b ≠ .run →
    n.toNat = n1.toNat + n2.toNat → n.toNat ≤ 16 →
    v.toNat = (v1.toNat % 2 ^ n1.toNat) * 2 ^ n2.toNat + v2.toNat % 2 ^ n2.toNat →
    s.cfg.cap.allows ((s.buf b).wp + n.toNat) = true →
    execAll [b.writeField v1 n1, b.writeField v2 n2] s = .next t → exec (b.writeField v n) s = .next t) ∧
  (∀ (b : BufId) (n1 n2 n : FieldWidth) (s : State), s.own b ≠ .run →
    n.toNat = n1.toNat + n2.toNat → n.toNat ≤ 16 → n.toNat ≤ (s.buf b).avail →
    ∃ (t u w : State) (r r1 r2 : FieldValue), exec (b.readField n) s = .next t ∧ t.resp = .value r ∧
      exec (b.readField n1) s = .next u ∧ u.resp = .value r1 ∧
      exec (b.readField n2) u = .next w ∧ w.resp = .value r2 ∧
      r1.toNat = r.toNat / 2 ^ n2.toNat ∧ r2.toNat = r.toNat % 2 ^ n2.toNat ∧ w.buf b = t.buf b)

/-- R138 (e), R134: `PACK` after `LOADBYTES(Y)` returns `Y`, and `LOADBYTES` of a packed buffer gives its bits and then
fewer than 8 zeros. -/
def Obligations.PackAndLoadInvertEachOther : Prop :=
  (∀ (b : BufId) (ys : List Byte) (s t : State), s.own b ≠ .run → s.cfg.cap.allows (8 * ys.length) = true →
    execAll [b.loadBytes ys, b.packBytes] s = .next t → t.resp = .bytes ys) ∧
  (∀ B : BitBuffer, ∃ z < 8, bitsOfBytes B.pack = B.bits ++ List.replicate z false)

/-! ## The encoder -/

/-- R150: `ENC.START(W)` in every mode, with its encoding. -/
def Obligations.EncStartBeginsACall : Prop :=
  (∀ p : Packet, p.cmd = 0b10000 → decodeCommand p = .ok (.encStart p.W)) ∧
  ∀ (W : LdWidth) (s : State), exec (.encStart W) s = .next { s with
    eb := { bits := [], rp := 0 }, resp := .done,
    enc := { s.enc with W := W, haveFirst := false, run := 0, err := .noError, mode := .run } }

/-- R151 first branch, R155: the first push of a call appends the sample's 8 bits and keeps the sample; if they do not
fit, `Overflow` with nothing written. That the error is also the command's response is the model's (DEDUCED, log entry
13). -/
def Obligations.FirstPushStoresTheRawSample : Prop :=
  ∀ (x : Sample) (s : State), s.enc.mode = .run → s.enc.haveFirst = false →
    (s.cfg.cap.allows (s.eb.wp + 8) = true → exec (.encPush x) s = .next { s with
      eb := { s.eb with bits := s.eb.bits ++ field 8 x.toNat }, resp := .done,
      enc := { s.enc with prev := x, haveFirst := true } }) ∧
    (s.cfg.cap.allows (s.eb.wp + 8) = false → exec (.encPush x) s = .next { s with
      resp := .error .overflow, enc := { s.enc with err := .overflow, mode := .err } })

/-- R151 `ZERO`, R156: a push of the previous sample counts, and the eighth in a row appends `01 111`. -/
def Obligations.RepeatedSampleCountsOrEmitsARun : Prop :=
  ∀ (x : Sample) (s : State), s.enc.mode = .run → s.enc.haveFirst = true → x = s.enc.prev →
    (s.enc.run ≠ 7 → exec (.encPush x) s = .next { s with
      resp := .done, enc := { s.enc with run := s.enc.run + 1 } }) ∧
    (s.enc.run = 7 → s.cfg.cap.allows (s.eb.wp + 5) = true → exec (.encPush x) s = .next { s with
      eb := { s.eb with bits := s.eb.bits ++ [false, true, true, true, true] }, resp := .done,
      enc := { s.enc with run := 0 } })

/-- R151 `SMALL`, R153, R154, R157 to R160: a small delta first flushes the pending run, then appends `00`, the band's
sub-prefix and its code. -/
def Obligations.SmallDeltaPushEmitsItsSymbol : Prop :=
  ∀ (x : Sample) (s : State) (d : Int) (k : Band) (c : Nat) (bits : List Bool),
    s.enc.mode = .run → s.enc.haveFirst = true →
    d = (x.toNat : Int) - s.enc.prev.toNat → d ≠ 0 → bandLo k ≤ d.natAbs → d.natAbs ≤ bandHi k →
    (c : Int) = (if d < 0 then d + bandHi k else d + 1) →
    bits = pendingRun s.enc.run ++ field 2 0b00 ++ field 2 k.val ++ field (k.val + 2) c →
    s.cfg.cap.allows (s.eb.wp + bits.length) = true →
    exec (.encPush x) s = .next { s with
      eb := { s.eb with bits := s.eb.bits ++ bits }, resp := .done,
      enc := { s.enc with prev := x, run := 0 } }

/-- R151 `LARGE`, R161: a large delta that fits `E.W` bits flushes the pending run, then appends `10`, the sign and the
magnitude. -/
def Obligations.LargeDeltaPushEmitsItsSymbol : Prop :=
  ∀ (x : Sample) (s : State) (d : Int) (bits : List Bool),
    s.enc.mode = .run → s.enc.haveFirst = true →
    d = (x.toNat : Int) - s.enc.prev.toNat → 30 < d.natAbs → d.natAbs < 2 ^ s.enc.W.toNat →
    bits = pendingRun s.enc.run ++ field 2 0b10 ++ [decide (d < 0)] ++ field s.enc.W.toNat d.natAbs →
    s.cfg.cap.allows (s.eb.wp + bits.length) = true →
    exec (.encPush x) s = .next { s with
      eb := { s.eb with bits := s.eb.bits ++ bits }, resp := .done,
      enc := { s.enc with prev := x, run := 0 } }

/-- R164, R212, R220 (a): a large delta that does not fit `E.W` bits raises `OutOfRange` after the pending run has been
flushed and before any bit of its symbol; if the run does not fit, `Overflow` comes first; at `W >= 8` it cannot occur. That the
error is also the command's response is the model's (DEDUCED, log entry 13). -/
def Obligations.OutOfRangeIsRaisedBeforeTheSymbol : Prop :=
  (∀ (x : Sample) (s : State) (d : Int), s.enc.mode = .run → s.enc.haveFirst = true →
    d = (x.toNat : Int) - s.enc.prev.toNat → 30 < d.natAbs → 2 ^ s.enc.W.toNat ≤ d.natAbs →
    (s.cfg.cap.allows (s.eb.wp + (pendingRun s.enc.run).length) = true → exec (.encPush x) s = .next { s with
      eb := { s.eb with bits := s.eb.bits ++ pendingRun s.enc.run }, resp := .error .outOfRange,
      enc := { s.enc with run := 0, err := .outOfRange, mode := .err } }) ∧
    (s.enc.run ≠ 0 → s.cfg.cap.allows (s.eb.wp + 5) = false →
      ∃ t, exec (.encPush x) s = .next t ∧ t.enc = { s.enc with err := .overflow, mode := .err })) ∧
  (∀ (x : Sample) (s t : State), s.enc.mode = .run → 8 ≤ s.enc.W.toNat → exec (.encPush x) s = .next t →
    t.enc.err = .outOfRange → s.enc.err = .outOfRange)

/-- R151, R156 to R163, R216, R220 (a): what `ENC.PUSH` after the first sample and `ENC.FINISH` leave at an `Overflow`.
`flush` are the fields of the pending run and `symbol` those of the symbol after it: of a Small-Delta, of a Large-Delta
that fits `E.W`, none where it does not fit (the check comes after the flush), those of the Terminator; the eighth repeat
writes only the run. Whichever field is the first that `CAP` does not hold, the fields before it stay in `EB`, `E.run` is
0 if the pending run was flushed in full, `E.prev` and all else stay, and `E.err` and `E.mode` are set. The first push of a
call is in `FirstPushStoresTheRawSample`. The response is the model's (DEDUCED, log entry 13). -/
def Obligations.OverflowKeepsTheFieldsBeforeIt : Prop :=
  ∀ (i : Instr) (s : State) (flush symbol before after : List (List Bool)) (lost : List Bool),
    s.enc.mode = .run → s.enc.haveFirst = true →
    ((∃ (x : Sample) (d : Int) (k : Band) (c : Nat), i = .encPush x ∧ d = (x.toNat : Int) - s.enc.prev.toNat ∧ d ≠ 0 ∧
        bandLo k ≤ d.natAbs ∧ d.natAbs ≤ bandHi k ∧ (c : Int) = (if d < 0 then d + bandHi k else d + 1) ∧
        flush = pendingFields s.enc.run ∧ symbol = [field 2 0b00, field 2 k.val, field (k.val + 2) c]) ∨
     (∃ (x : Sample) (d : Int), i = .encPush x ∧ d = (x.toNat : Int) - s.enc.prev.toNat ∧ 30 < d.natAbs ∧
        d.natAbs < 2 ^ s.enc.W.toNat ∧ flush = pendingFields s.enc.run ∧
        symbol = [field 2 0b10, [decide (d < 0)], field s.enc.W.toNat d.natAbs]) ∨
     (∃ (x : Sample) (d : Int), i = .encPush x ∧ d = (x.toNat : Int) - s.enc.prev.toNat ∧ 30 < d.natAbs ∧
        2 ^ s.enc.W.toNat ≤ d.natAbs ∧ flush = pendingFields s.enc.run ∧ symbol = []) ∨
     (i = .encPush s.enc.prev ∧ s.enc.run = 7 ∧ flush = [field 2 0b01, field 3 7] ∧ symbol = []) ∨
     (i = .encFinish ∧ flush = pendingFields s.enc.run ∧ symbol = [field 2 0b11])) →
    flush ++ symbol = before ++ lost :: after →
    (before = [] ∨ s.cfg.cap.allows (s.eb.wp + before.flatten.length) = true) →
    s.cfg.cap.allows (s.eb.wp + before.flatten.length + lost.length) = false →
    exec i s = .next { s with
      eb := { s.eb with bits := s.eb.bits ++ before.flatten }, resp := .error .overflow,
      enc := { s.enc with
        run := if flush.length ≤ before.length then 0 else s.enc.run, err := .overflow, mode := .err } }

/-- R162, R211, R163: `ENC.FINISH` with its encoding: `EmptyInput` and nothing written when no sample was pushed; else the
pending run and the Terminator, and `DONE`; where they do not fit `CAP`, see `OverflowKeepsTheFieldsBeforeIt`. That the
error is also the command's response is the model's (DEDUCED, log entry 13). -/
def Obligations.FinishEndsTheCall : Prop :=
  (∀ p : Packet, p.cmd = 0b10010 → decodeCommand p = .ok .encFinish) ∧
  ∀ s : State, s.enc.mode = .run →
    (s.enc.haveFirst = false → exec .encFinish s = .next { s with
      resp := .error .emptyInput, enc := { s.enc with err := .emptyInput, mode := .err } }) ∧
    (s.enc.haveFirst = true →
      s.cfg.cap.allows (s.eb.wp + (pendingRun s.enc.run).length + 2) = true → exec .encFinish s = .next { s with
        eb := { s.eb with bits := s.eb.bits ++ pendingRun s.enc.run ++ [true, true] }, resp := .done,
        enc := { s.enc with run := 0, mode := .done } })

/-- R29, R151, R162: outside `RUN`, `ENC.PUSH` and `ENC.FINISH` are not enabled: not accepted, no state change (the
response is the model's own, log entry 5). -/
def Obligations.PushAndFinishNeedRun : Prop :=
  ∀ (s : State) (x : Sample), s.enc.mode ≠ .run →
    exec (.encPush x) s = .next { s with resp := .notAccepted } ∧
    exec .encFinish s = .next { s with resp := .notAccepted }

/-- The frame of `ENC.PUSH` and `ENC.FINISH` on every path, errors included: what is stored in `EB` stays, its cursor
stays, `E.W` stays, and the decode side, the parameters and the inbox stay (R150, R151, R162, R221). -/
def Obligations.EncoderOnlyAppendsToEb : Prop :=
  ∀ (i : Instr) (s t : State), (i = .encFinish ∨ ∃ x, i = .encPush x) → exec i s = .next t →
    (∀ a < s.eb.wp, t.eb.bitAt a = s.eb.bitAt a) ∧ s.eb.wp ≤ t.eb.wp ∧ t.eb.rp = s.eb.rp ∧
    t.enc.W = s.enc.W ∧ t.db = s.db ∧ t.dec = s.dec ∧ t.cfg = s.cfg ∧ t.inbox = s.inbox

/-- R166: the commands of an encode call give exactly the bits of the source's `encode(S, W)`, or end in `ERR` with its
error, from any state, with `CAP` large enough for the longest stream of `S`. -/
def Obligations.EncodeCommandsEqualTheBatchEncoder : Prop :=
  ∀ (W : LdWidth) (S : List Sample) (s : State), s.cfg.cap.allows (10 + 18 * S.length) = true →
    ∃ t, execAll (encodeCommands W S) s = .next t ∧
      match encodeCall W S with
      | .ok bits => t.enc.mode = .done ∧ t.enc.err = .noError ∧ t.eb.bits = bits
      | .error k => t.enc.mode = .err ∧ t.enc.err = k

/-- R33, R241: an encode call reads nothing that an earlier call wrote: from any two states of one capacity it leaves the
same stream, mode and error. -/
def Obligations.EncodeCallForgetsThePast : Prop :=
  ∀ (W : LdWidth) (S : List Sample) (s s' t t' : State), s.cfg = s'.cfg →
    execAll (encodeCommands W S) s = .next t → execAll (encodeCommands W S) s' = .next t' →
    t.eb = t'.eb ∧ t.enc.mode = t'.enc.mode ∧ t.enc.err = t'.enc.err ∧ t.enc.run = t'.enc.run ∧
    t.enc.haveFirst = t'.enc.haveFirst ∧ (S ≠ [] → t.enc.haveFirst = true → t.enc.prev = t'.enc.prev)

/-- R167 (a) to (c), R165, R164: a successful encode begins with the first sample's 8 bits, ends with `11` and has at
least 10 bits; with no sample it fails with `EmptyInput`; with samples it succeeds if their consecutive deltas are
representable under `W`, fails with `OutOfRange` if not, and at `W >= 8` always succeeds. -/
def Obligations.EncodedStreamsAreFramed : Prop :=
  (∀ (W : LdWidth) (x : Sample) (S : List Sample) (bits : List Bool), encodeCall W (x :: S) = .ok bits →
    bits.take 8 = field 8 x.toNat ∧ bits.drop (bits.length - 2) = [true, true] ∧ 10 ≤ bits.length) ∧
  (∀ W : LdWidth, encodeCall W [] = .error .emptyInput) ∧
  (∀ (W : LdWidth) (S : List Sample), S ≠ [] →
    (Representable W S → ∃ bits, encodeCall W S = .ok bits) ∧
    (¬Representable W S → encodeCall W S = .error .outOfRange)) ∧
  (∀ (W : LdWidth) (S : List Sample), 8 ≤ W.toNat → S ≠ [] → ∃ bits, encodeCall W S = .ok bits)

/-- R69: a canonical stream of `N >= 1` samples has at least `10 + 5 ceil((N-1)/8)` bits and, for `W >= 6`, at most
`10 + (N-1)(3 + W)`. -/
def Obligations.CanonicalStreamLengthBounds : Prop :=
  ∀ (W : LdWidth) (S : List Sample) (bits : List Bool), encodeCall W S = .ok bits →
    10 + 5 * ((S.length - 1 + 7) / 8) ≤ bits.length ∧
    (6 ≤ W.toNat → bits.length ≤ 10 + (S.length - 1) * (3 + W.toNat))

/-! ## The decoder -/

/-- R180: `DEC.START(W)` in every mode, with its encoding; `DB` and `D.cur` are not touched. -/
def Obligations.DecStartBeginsACall : Prop :=
  (∀ p : Packet, p.cmd = 0b11000 → decodeCommand p = .ok (.decStart p.W)) ∧
  ∀ (W : LdWidth) (s : State), exec (.decStart W) s = .next { s with
    resp := .done, dec := { s.dec with W := W, hdr := false, out := [], err := .noError, mode := .run } }

/-- R182: the raw first sample. -/
def Obligations.RawHeaderIsTheFirstSample : Prop :=
  ∀ (v : Sample) (s : State), s.dec.mode = .run → s.dec.hdr = false →
    (8 ≤ s.db.avail → exec (.raw8 v) s = .next { s with
      db := { s.db with rp := s.db.rp + 8 },
      dec := { s.dec with cur := v, out := s.dec.out ++ [v], hdr := true } }) ∧
    (s.db.avail < 8 → exec (.raw8 v) s = .next { s with
      dec := { s.dec with err := .truncatedStream, mode := .err } })

/-- R183 to R187, R191: a Small-Delta symbol of band `k` takes `6 + k` bits and adds its delta, `code - hi(k)` in the
lower half of the codes and `code - 1` in the upper; the new value is appended. -/
def Obligations.SmallDeltaSymbolMovesTheValue : Prop :=
  ∀ (i : Instr) (k : Band) (c : Nat) (d : Int) (x : Sample) (s : State), smallSymbol i = some (k, c) →
    s.dec.mode = .run → s.dec.hdr = true → 6 + k.val ≤ s.db.avail →
    d = (if c < 2 ^ (k.val + 1) then (c : Int) - bandHi k else (c : Int) - 1) →
    (x.toNat : Int) = s.dec.cur.toNat + d →
    exec i s = .next { s with
      db := { s.db with rp := s.db.rp + (6 + k.val) },
      dec := { s.dec with cur := x, out := s.dec.out ++ [x] } }

/-- R188, R97: a Zero-Run of field `n` takes 5 bits and appends `n + 1` copies of the unchanged current value. -/
def Obligations.ZeroRunRepeatsTheValue : Prop :=
  ∀ (n : BitVec 3) (s : State), s.dec.mode = .run → s.dec.hdr = true → 5 ≤ s.db.avail →
    exec (.zr n) s = .next { s with
      db := { s.db with rp := s.db.rp + 5 },
      dec := { s.dec with out := s.dec.out ++ List.replicate (n.toNat + 1) s.dec.cur } }

/-- R189, R98, R101: a Large-Delta takes `3 + W` bits and adds its magnitude, negated if the sign is 1; magnitudes of 0
to 30 are accepted as any other. -/
def Obligations.LargeDeltaSymbolMovesTheValue : Prop :=
  ∀ (sign : Bool) (m : BitVec 15) (x : Sample) (s : State), s.dec.mode = .run → s.dec.hdr = true →
    3 + s.dec.W.toNat ≤ s.db.avail →
    (x.toNat : Int) = s.dec.cur.toNat + (if sign then -(m.toNat : Int) else m.toNat) →
    exec (.ld sign m) s = .next { s with
      db := { s.db with rp := s.db.rp + (3 + s.dec.W.toNat) },
      dec := { s.dec with cur := x, out := s.dec.out ++ [x] } }

/-- R190: the Terminator takes 2 bits and ends the call in `DONE`; nothing else changes. -/
def Obligations.TerminatorEndsTheCall : Prop :=
  ∀ s : State, s.dec.mode = .run → s.dec.hdr = true → 2 ≤ s.db.avail →
    exec .term s = .next { s with db := { s.db with rp := s.db.rp + 2 }, dec := { s.dec with mode := .done } }

/-- R191, R217: a delta that takes the value out of 0 to 255 raises `SampleRange`: the symbol's bits are consumed, the
value and the output are left, the call ends in `ERR`; a magnitude above 255 always does. -/
def Obligations.SampleRangeLeavesTheOutput : Prop :=
  (∀ (i : Instr) (d : Int) (s : State), s.dec.mode = .run → s.dec.hdr = true →
    ((∃ k c, smallSymbol i = some (k, c) ∧ d = rev c k) ∨ ∃ sign m, i = .ld sign m ∧ d = signedMagnitude sign m.toNat) →
    (symbolFields s.dec.W i).sum ≤ s.db.avail →
    ((s.dec.cur.toNat : Int) + d < 0 ∨ 255 < (s.dec.cur.toNat : Int) + d) →
    exec i s = .next { s with
      db := { s.db with rp := s.db.rp + (symbolFields s.dec.W i).sum },
      dec := { s.dec with err := .sampleRange, mode := .err } }) ∧
  (∀ (cur : Sample) (sign : Bool) (m : Nat), 255 < m →
    (cur.toNat : Int) + signedMagnitude sign m < 0 ∨ 255 < (cur.toNat : Int) + signedMagnitude sign m)

/-- R192, R181: the decoder's step on a stream that ends inside a symbol: the fields read in full are consumed, and the
call ends in `TruncatedStream`. -/
def Obligations.TruncatedStreamStopsTheCall : Prop :=
  ∀ (s : State) (n : Nat), s.inbox = [] → s.dec.mode = .run →
    ((s.dec.hdr = false ∧ s.db.unread.length < 8 ∧ n = 0) ∨
     (s.dec.hdr = true ∧ s.db.unread.length < 2 ∧ n = 0) ∨
     (s.dec.hdr = true ∧ (∃ r, s.db.unread = field 2 0b00 ++ r ∧ r.length < 2) ∧ n = 2) ∨
     (s.dec.hdr = true ∧ (∃ k r, k < 4 ∧ s.db.unread = field 2 0b00 ++ field 2 k ++ r ∧ r.length < k + 2) ∧ n = 4) ∨
     (s.dec.hdr = true ∧ (∃ r, s.db.unread = field 2 0b01 ++ r ∧ r.length < 3) ∧ n = 2) ∨
     (s.dec.hdr = true ∧ s.db.unread = field 2 0b10 ∧ n = 2) ∨
     (s.dec.hdr = true ∧ (∃ b r, s.db.unread = field 2 0b10 ++ b :: r ∧ r.length < s.dec.W.toNat) ∧ n = 3)) →
    step s = .next { s with
      db := { s.db with rp := s.db.rp + n },
      dec := { s.dec with err := .truncatedStream, mode := .err } }

/-- Outside `RUN` the decoder executes nothing (R29, R181, R240): a symbol's meaning changes nothing, nor does it at a
position that does not select it (R93), and with nothing in the inbox a step changes nothing; a turn given to the decoder is
then only used up (the form is the model's, log entries 4, 10 and 14). -/
def Obligations.DecoderOutsideRunDoesNothing : Prop :=
  (∀ (i : Instr) (s : State), isSymbol i = true → (s.dec.mode ≠ .run ∨ s.dec.hdr ≠ i.atHdr) → exec i s = .next s) ∧
  (∀ s : State, s.dec.mode ≠ .run →
    (s.inbox = [] → step s = .next s) ∧
    (∀ rest, s.inbox = .decTurn :: rest → step s = .next { s with inbox := rest }))

/-- R75, R64: from `DEC.START` until the call ends no step but reset changes the bits of `DB`, and none moves the cursor
back. -/
def Obligations.DecodeCallNeverWritesItsStream : Prop :=
  ∀ s t : State, s.dec.mode = .run → (∀ rest, s.inbox ≠ .reset :: rest) → step s = .next t →
    t.db.bits = s.db.bits ∧ s.db.rp ≤ t.db.rp

/-- R195: a decoder step that leaves the call in `RUN` advances the cursor by at least 3 bits and not past `DB.wp`. -/
def Obligations.EachDecoderStepAdvances : Prop :=
  ∀ s t : State, s.inbox = [] → s.dec.mode = .run → step s = .next t → t.dec.mode = .run →
    s.db.rp + 3 ≤ t.db.rp ∧ t.db.rp ≤ t.db.wp

/-- R195, R252: every decode call ends: `2 + floor(avail(DB) / 3)` steps after `DEC.START` the decoder is in `DONE` or
`ERR`, and stays there; its output is bounded by 8 samples per 5 bits (decision D24). -/
def Obligations.EveryDecodeCallEnds : Prop :=
  ∀ (W : LdWidth) (s t : State) (n : Nat), s.inbox = [] → exec (.decStart W) s = .next t →
    2 + s.db.avail / 3 ≤ n → ∃ u, stepsFrom step n t = some u ∧ (u.dec.mode = .done ∨ u.dec.mode = .err) ∧
      u.dec.out.length ≤ 1 + 8 * (s.db.avail / 5)

/-- R193: the decoder's steps after `DEC.START(W)` give exactly what the source's `decode(bits, W)` gives of the bits from
the cursor onward: the output in `DONE`, or its error in `ERR`. -/
def Obligations.DecoderStepsEqualTheBatchDecoder : Prop :=
  ∀ (W : LdWidth) (s t : State) (n : Nat), s.inbox = [] → exec (.decStart W) s = .next t →
    2 + s.db.avail / 3 ≤ n →
    ∃ u, stepsFrom step n t = some u ∧
      match decodeCall W s.db.unread with
      | .ok out => u.dec.mode = .done ∧ u.dec.err = .noError ∧ u.dec.out = out
      | .error k => u.dec.mode = .err ∧ u.dec.err = k

/-! ## Whole-machine rules -/

/-- R194, R102: `decode(encode(S, W), W) == S`, whatever bits follow the Terminator: of every encode that succeeds, and
of every non-empty sequence whose consecutive deltas are representable under `W` (its encode succeeds). -/
def Obligations.RoundTripOfTheCodec : Prop :=
  (∀ (W : LdWidth) (S : List Sample) (bits padding : List Bool), encodeCall W S = .ok bits →
    decodeCall W (bits ++ padding) = .ok S) ∧
  (∀ (W : LdWidth) (S : List Sample), S ≠ [] → Representable W S →
    ∃ bits, encodeCall W S = .ok bits ∧ ∀ padding, decodeCall W (bits ++ padding) = .ok S)

/-- R194 through the whole machine: samples pushed into `ENC`, packed, loaded into `DB` and decoded come out of `DEC`
unchanged. -/
def Obligations.RoundTripThroughTheMachine : Prop :=
  ∀ (W : LdWidth) (S : List Sample) (s a b c : State) (ys : List Byte),
    s.cfg.cap = .unbounded → s.inbox = [] → s.dec.mode ≠ .run →
    execAll (encodeCommands W S) s = .next a → a.enc.mode = .done →
    exec .ebPack a = .next b → b.resp = .bytes ys →
    execAll [.dbLoadBytes ys, .decStart W] b = .next c →
    ∃ u, stepsFrom step (2 + c.db.avail / 3) c = some u ∧ u.dec.mode = .done ∧ u.dec.out = S

/-- R102, U1: bits after the Terminator are ignored by position, not by content. -/
def Obligations.PaddingAfterTheTerminatorIsIgnored : Prop :=
  ∀ (W : LdWidth) (bits padding : List Bool) (out : List Sample), decodeCall W bits = .ok out →
    decodeCall W (bits ++ padding) = .ok out

/-- R20, R73: the two sides share no state: an instruction of one leaves the other alone, and a step of one commutes with
a step of the other (the host's last response, the model's own field, aside). -/
def Obligations.TheTwoSidesCommute : Prop :=
  (∀ (i : Instr) (s t : State), exec i s = .next t →
    t.cfg = s.cfg ∧ t.inbox = s.inbox ∧
    (encodeSide i = true → t.db = s.db ∧ t.dec = s.dec) ∧
    (encodeSide i = false → t.eb = s.eb ∧ t.enc = s.enc)) ∧
  (∀ (i j : Instr) (s : State), encodeSide i = true → encodeSide j = false →
    ∃ t u, execAll [i, j] s = .next t ∧ execAll [j, i] s = .next u ∧ t.respond .done = u.respond .done)

/-- R29, R222: only `START` (or reset) takes a unit out of `IDLE`, `DONE` or `ERR`: any other instruction leaves all of
its registers as they are. -/
def Obligations.OnlyStartWakesAQuiescentUnit : Prop :=
  ∀ (i : Instr) (s t : State), exec i s = .next t →
    (s.enc.mode ≠ .run → (∀ W, i ≠ .encStart W) → t.enc = s.enc) ∧
    (s.dec.mode ≠ .run → (∀ W, i ≠ .decStart W) → t.dec = s.dec)

/-- R29: the modes change only along the table: to `RUN` by `START`, from `RUN` to `DONE` by `FINISH` or `TERM`, from
`RUN` to `ERR` by an error. -/
def Obligations.ModesFollowTheTable : Prop :=
  ∀ (i : Instr) (s t : State), exec i s = .next t →
    (t.enc.mode = s.enc.mode ∨ (∃ W, i = .encStart W ∧ t.enc.mode = .run) ∨
      (s.enc.mode = .run ∧ i = .encFinish ∧ t.enc.mode = .done) ∨
      (s.enc.mode = .run ∧ (i = .encFinish ∨ ∃ x, i = .encPush x) ∧ t.enc.mode = .err)) ∧
    (t.dec.mode = s.dec.mode ∨ (∃ W, i = .decStart W ∧ t.dec.mode = .run) ∨
      (s.dec.mode = .run ∧ i = .term ∧ t.dec.mode = .done) ∨
      (s.dec.mode = .run ∧ isSymbol i = true ∧ t.dec.mode = .err))

/-- R30: the error registers are written in two places only: `START` writes 0, the error entry of a unit in `RUN` writes
the code and `ERR`. -/
def Obligations.ErrorRegistersAreSticky : Prop :=
  ∀ (i : Instr) (s t : State), exec i s = .next t →
    (t.enc.err = s.enc.err ∨ ((∃ W, i = .encStart W) ∧ t.enc.err = .noError) ∨
      (s.enc.mode = .run ∧ t.enc.mode = .err ∧ t.enc.err ≠ .noError)) ∧
    (t.dec.err = s.dec.err ∨ ((∃ W, i = .decStart W) ∧ t.dec.err = .noError) ∨
      (s.dec.mode = .run ∧ t.dec.mode = .err ∧ t.dec.err ≠ .noError))

/-- R215: `WidthMismatch`, code 5, is never raised and never written anywhere. -/
def Obligations.WidthMismatchIsNeverReported : Prop :=
  ∀ s t : State, step s = .next t →
    s.enc.err.code ≠ 5 → s.dec.err.code ≠ 5 → s.resp ≠ .error .widthMismatch →
    t.enc.err.code ≠ 5 ∧ t.dec.err.code ≠ 5 ∧ t.resp ≠ .error .widthMismatch

/-- R28: exactly one of `idle`, `busy`, `done`, `err` holds at any time, each a function of the mode. -/
def Obligations.ExactlyOneStatusLineHolds : Prop :=
  ∀ m : Mode, m.lines.idle.toNat + m.lines.busy.toNat + m.lines.done.toNat + m.lines.err.toNat = 1 ∧
    (m.lines.busy = true ↔ m.code = 1) ∧ (m.lines.done = true ↔ m.code = 2) ∧ (m.lines.err = true ↔ m.code = 3)
end

