-- ==== Sys2Proof/Laws/Fields.lean ====
section
/-! SUPPORT. The field marshaller's laws: `field` and `fieldValue` invert each other, and how a field is read from the
head of a stream. -/

namespace Sys2Proof

@[simp] theorem field_zero (v : Nat) : field 0 v = [] := rfl

@[simp] theorem field_length (n v : Nat) : (field n v).length = n := by
  induction n with
  | zero => rfl
  | succ n ih => simp [field, ih]

@[simp] theorem fieldValue_nil : fieldValue [] = 0 := rfl

/-- Reading a field gives the value modulo `2^n`: the bits above `n - 1` were ignored (R62, R138 (a)). -/
@[simp] theorem fieldValue_field (n v : Nat) : fieldValue (field n v) = v % 2 ^ n := by
  induction n with
  | zero => simp [field, Nat.mod_one]
  | succ n ih =>
    simp only [field, fieldValue, field_length, ih, Nat.toNat_testBit]
    rw [Nat.pow_succ, Nat.mod_mul]
    ring

theorem fieldValue_lt (bits : List Bool) : fieldValue bits < 2 ^ bits.length := by
  induction bits with
  | nil => simp
  | cons b bs ih =>
    simp only [fieldValue, List.length_cons, Nat.pow_succ]
    cases b <;> simp <;> omega

/-- The bits of a field are those of its value. -/
theorem field_fieldValue (bits : List Bool) : field bits.length (fieldValue bits) = bits := by
  induction bits with
  | nil => rfl
  | cons b bs ih =>
    have hlow : ∀ m w, m ≤ bs.length → field m (w * 2 ^ bs.length + fieldValue bs) = field m (fieldValue bs) := by
      intro m w
      induction m with
      | zero => simp
      | succ m ihm =>
        intro hm
        simp only [field]
        rw [ihm (by omega), Nat.mul_comm, Nat.testBit_two_pow_mul_add _ (fieldValue_lt bs), if_pos (by omega)]
    simp only [List.length_cons, field, fieldValue]
    rw [hlow _ _ (le_refl _), ih, Nat.mul_comm, Nat.testBit_two_pow_mul_add _ (fieldValue_lt bs)]
    cases b <;> simp

theorem fieldValue_append (a b : List Bool) :
    fieldValue (a ++ b) = fieldValue a * 2 ^ b.length + fieldValue b := by
  induction a with
  | nil => simp
  | cons x xs ih =>
    simp only [List.cons_append, fieldValue, List.length_append, ih, pow_add]
    ring

/-- The bit at position `k` of a field is bit `n - 1 - k` of the value (R62, R9 `MemWrite`). -/
theorem field_getElem? (n v k : Nat) (hk : k < n) : (field n v)[k]? = some (v.testBit (n - 1 - k)) := by
  induction n generalizing k with
  | zero => omega
  | succ n ih =>
    cases k with
    | zero => simp [field]
    | succ k =>
      simp only [field, List.getElem?_cons_succ]
      rw [ih k (by omega)]
      congr 2
      omega

section ReadField

variable {α : Type} (consumed : Nat) (k : Nat → List Bool → Except DecodeError α)

/-- A field that stands at the head of the stream is read and passed. -/
@[simp] theorem readField_append (n v : Nat) (rest : List Bool) :
    readField consumed n (field n v ++ rest) k = k (v % 2 ^ n) rest := by
  simp [readField]

/-- Everything a field's read can do: too few bits, or the value and the bits after it. -/
theorem readField_ok {n : Nat} {bits : List Bool} {a : α} (h : readField consumed n bits k = .ok a) :
    n ≤ bits.length ∧ k (fieldValue (bits.take n)) (bits.drop n) = .ok a := by
  unfold readField at h
  split at h
  · cases h
  · exact ⟨by omega, h⟩

theorem readField_short {n : Nat} {bits : List Bool} (h : bits.length < n) :
    readField consumed n bits k = .error (.truncated consumed) := by
  simp [readField, h]

theorem readField_enough {n : Nat} {bits : List Bool} (h : n ≤ bits.length) :
    readField consumed n bits k = k (fieldValue (bits.take n)) (bits.drop n) := by
  simp [readField, Nat.not_lt.mpr h]

end ReadField

/-- The first `n` bits of a stream are the field of their value. -/
theorem take_eq_field {n : Nat} {bits : List Bool} (h : n ≤ bits.length) :
    bits.take n = field n (fieldValue (bits.take n)) := by
  have hl : (bits.take n).length = n := by simp [h]
  conv_lhs => rw [← field_fieldValue (bits.take n), hl]

theorem fieldValue_take_lt {n : Nat} (bits : List Bool) : fieldValue (bits.take n) < 2 ^ n :=
  lt_of_lt_of_le (fieldValue_lt _) (Nat.pow_le_pow_right (by omega) (by simp))

/-- Everything a field's read that succeeds does: the stream begins with the field, and reading goes on after it. -/
theorem readField_ok_field {α : Type} {consumed n : Nat} {bits : List Bool}
    {k : Nat → List Bool → Except DecodeError α} {a : α} (h : readField consumed n bits k = .ok a) :
    ∃ v rest, v < 2 ^ n ∧ bits = field n v ++ rest ∧ k v rest = .ok a := by
  obtain ⟨hl, hk⟩ := readField_ok _ _ h
  refine ⟨_, _, fieldValue_take_lt bits, ?_, hk⟩
  rw [← take_eq_field hl, List.take_append_drop]

/-- Two fields side by side are one. -/
theorem field_append (n1 n2 a c : Nat) :
    field n1 a ++ field n2 c = field (n1 + n2) ((a % 2 ^ n1) * 2 ^ n2 + c % 2 ^ n2) := by
  have h := field_fieldValue (field n1 a ++ field n2 c)
  rw [fieldValue_append] at h
  simpa using h.symm

/-- Bit `7 - k` of a byte made of 8 bits is the `k`-th of them. -/
theorem getLsbD_fieldValue {bits : List Bool} (h : bits.length = 8) {k : Nat} (hk : k < 8) :
    (BitVec.ofNat 8 (fieldValue bits)).getLsbD (7 - k) = (bits[k]?).getD false := by
  conv_rhs => rw [← field_fieldValue bits, h, field_getElem? _ _ _ hk]
  simp only [BitVec.getLsbD_ofNat, show 7 - k < 8 by omega, decide_true, Bool.true_and, Option.getD_some]

end Sys2Proof
end

