-- ==== Sys2Proof/Laws/State.lean ====
section
/-! SUPPORT. One lemma per field per update of State, so that no proof unfolds a record update. -/

namespace Sys2Proof.Machine

variable (s : State)

@[simp] theorem State.withEnc_cfg (e : Encoder) : (s.withEnc e).cfg = s.cfg := rfl
@[simp] theorem State.withEnc_eb (e : Encoder) : (s.withEnc e).eb = s.eb := rfl
@[simp] theorem State.withEnc_enc (e : Encoder) : (s.withEnc e).enc = e := rfl
@[simp] theorem State.withEnc_db (e : Encoder) : (s.withEnc e).db = s.db := rfl
@[simp] theorem State.withEnc_dec (e : Encoder) : (s.withEnc e).dec = s.dec := rfl
@[simp] theorem State.withEnc_inbox (e : Encoder) : (s.withEnc e).inbox = s.inbox := rfl
@[simp] theorem State.withEnc_resp (e : Encoder) : (s.withEnc e).resp = s.resp := rfl

@[simp] theorem State.withDec_cfg (d : Decoder) : (s.withDec d).cfg = s.cfg := rfl
@[simp] theorem State.withDec_eb (d : Decoder) : (s.withDec d).eb = s.eb := rfl
@[simp] theorem State.withDec_enc (d : Decoder) : (s.withDec d).enc = s.enc := rfl
@[simp] theorem State.withDec_db (d : Decoder) : (s.withDec d).db = s.db := rfl
@[simp] theorem State.withDec_dec (d : Decoder) : (s.withDec d).dec = d := rfl
@[simp] theorem State.withDec_inbox (d : Decoder) : (s.withDec d).inbox = s.inbox := rfl
@[simp] theorem State.withDec_resp (d : Decoder) : (s.withDec d).resp = s.resp := rfl

@[simp] theorem State.withInbox_cfg (l : List Input) : (s.withInbox l).cfg = s.cfg := rfl
@[simp] theorem State.withInbox_eb (l : List Input) : (s.withInbox l).eb = s.eb := rfl
@[simp] theorem State.withInbox_enc (l : List Input) : (s.withInbox l).enc = s.enc := rfl
@[simp] theorem State.withInbox_db (l : List Input) : (s.withInbox l).db = s.db := rfl
@[simp] theorem State.withInbox_dec (l : List Input) : (s.withInbox l).dec = s.dec := rfl
@[simp] theorem State.withInbox_inbox (l : List Input) : (s.withInbox l).inbox = l := rfl
@[simp] theorem State.withInbox_resp (l : List Input) : (s.withInbox l).resp = s.resp := rfl

@[simp] theorem State.respond_cfg (r : Response) : (s.respond r).cfg = s.cfg := rfl
@[simp] theorem State.respond_eb (r : Response) : (s.respond r).eb = s.eb := rfl
@[simp] theorem State.respond_enc (r : Response) : (s.respond r).enc = s.enc := rfl
@[simp] theorem State.respond_db (r : Response) : (s.respond r).db = s.db := rfl
@[simp] theorem State.respond_dec (r : Response) : (s.respond r).dec = s.dec := rfl
@[simp] theorem State.respond_inbox (r : Response) : (s.respond r).inbox = s.inbox := rfl
@[simp] theorem State.respond_resp (r : Response) : (s.respond r).resp = r := rfl

@[simp] theorem State.withBuf_eb_eb (B : BitBuffer) : (s.withBuf .eb B).eb = B := rfl
@[simp] theorem State.withBuf_eb_db (B : BitBuffer) : (s.withBuf .eb B).db = s.db := rfl

@[simp] theorem State.withBuf_db_eb (B : BitBuffer) : (s.withBuf .db B).eb = s.eb := rfl
@[simp] theorem State.withBuf_db_db (B : BitBuffer) : (s.withBuf .db B).db = B := rfl

@[simp] theorem State.buf_eb : s.buf .eb = s.eb := rfl
@[simp] theorem State.buf_db : s.buf .db = s.db := rfl
@[simp] theorem State.own_eb : s.own .eb = s.enc.mode := rfl
@[simp] theorem State.own_db : s.own .db = s.dec.mode := rfl

section AnyBuffer

variable (b : BufId) (B C : BitBuffer) (r : Response)

@[simp] theorem State.withBuf_buf : (s.withBuf b B).buf b = B := by cases b <;> rfl
@[simp] theorem State.withBuf_own (c : BufId) : (s.withBuf b B).own c = s.own c := by cases b <;> cases c <;> rfl
@[simp] theorem State.withBuf_cfg : (s.withBuf b B).cfg = s.cfg := by cases b <;> rfl
@[simp] theorem State.withBuf_enc : (s.withBuf b B).enc = s.enc := by cases b <;> rfl
@[simp] theorem State.withBuf_dec : (s.withBuf b B).dec = s.dec := by cases b <;> rfl
@[simp] theorem State.withBuf_inbox : (s.withBuf b B).inbox = s.inbox := by cases b <;> rfl
@[simp] theorem State.withBuf_resp : (s.withBuf b B).resp = s.resp := by cases b <;> rfl
@[simp] theorem State.withBuf_self : s.withBuf b (s.buf b) = s := by cases b <;> rfl
@[simp] theorem State.withBuf_withBuf : (s.withBuf b B).withBuf b C = s.withBuf b C := by cases b <;> rfl
@[simp] theorem State.respond_buf : (s.respond r).buf b = s.buf b := by cases b <;> rfl
@[simp] theorem State.respond_own : (s.respond r).own b = s.own b := by cases b <;> rfl
@[simp] theorem State.respond_respond (q : Response) : (s.respond q).respond r = s.respond r := rfl
@[simp] theorem State.respond_withBuf : (s.respond r).withBuf b B = (s.withBuf b B).respond r := by cases b <;> rfl

end AnyBuffer

@[simp] theorem errorEntry_enc_cfg (k : ErrCode) : (errorEntry .enc k s).cfg = s.cfg := rfl
@[simp] theorem errorEntry_enc_eb (k : ErrCode) : (errorEntry .enc k s).eb = s.eb := rfl
@[simp] theorem errorEntry_enc_enc (k : ErrCode) : (errorEntry .enc k s).enc = { s.enc with err := k, mode := .err } := rfl
@[simp] theorem errorEntry_enc_db (k : ErrCode) : (errorEntry .enc k s).db = s.db := rfl
@[simp] theorem errorEntry_enc_dec (k : ErrCode) : (errorEntry .enc k s).dec = s.dec := rfl
@[simp] theorem errorEntry_enc_inbox (k : ErrCode) : (errorEntry .enc k s).inbox = s.inbox := rfl
@[simp] theorem errorEntry_enc_resp (k : ErrCode) : (errorEntry .enc k s).resp = s.resp := rfl

@[simp] theorem errorEntry_dec_cfg (k : ErrCode) : (errorEntry .dec k s).cfg = s.cfg := rfl
@[simp] theorem errorEntry_dec_eb (k : ErrCode) : (errorEntry .dec k s).eb = s.eb := rfl
@[simp] theorem errorEntry_dec_enc (k : ErrCode) : (errorEntry .dec k s).enc = s.enc := rfl
@[simp] theorem errorEntry_dec_db (k : ErrCode) : (errorEntry .dec k s).db = s.db := rfl
@[simp] theorem errorEntry_dec_dec (k : ErrCode) : (errorEntry .dec k s).dec = { s.dec with err := k, mode := .err } := rfl
@[simp] theorem errorEntry_dec_inbox (k : ErrCode) : (errorEntry .dec k s).inbox = s.inbox := rfl
@[simp] theorem errorEntry_dec_resp (k : ErrCode) : (errorEntry .dec k s).resp = s.resp := rfl

@[simp] theorem enterRun_enc_cfg : (enterRun .enc s).cfg = s.cfg := rfl
@[simp] theorem enterRun_enc_eb : (enterRun .enc s).eb = s.eb := rfl
@[simp] theorem enterRun_enc_enc : (enterRun .enc s).enc = { s.enc with err := .noError, mode := .run } := rfl
@[simp] theorem enterRun_enc_db : (enterRun .enc s).db = s.db := rfl
@[simp] theorem enterRun_enc_dec : (enterRun .enc s).dec = s.dec := rfl
@[simp] theorem enterRun_enc_inbox : (enterRun .enc s).inbox = s.inbox := rfl
@[simp] theorem enterRun_enc_resp : (enterRun .enc s).resp = s.resp := rfl

@[simp] theorem enterRun_dec_cfg : (enterRun .dec s).cfg = s.cfg := rfl
@[simp] theorem enterRun_dec_eb : (enterRun .dec s).eb = s.eb := rfl
@[simp] theorem enterRun_dec_enc : (enterRun .dec s).enc = s.enc := rfl
@[simp] theorem enterRun_dec_db : (enterRun .dec s).db = s.db := rfl
@[simp] theorem enterRun_dec_dec : (enterRun .dec s).dec = { s.dec with err := .noError, mode := .run } := rfl
@[simp] theorem enterRun_dec_inbox : (enterRun .dec s).inbox = s.inbox := rfl
@[simp] theorem enterRun_dec_resp : (enterRun .dec s).resp = s.resp := rfl

@[simp] theorem setRun_cfg (r : BitVec 3) : (setRun r s).cfg = s.cfg := rfl
@[simp] theorem setRun_eb (r : BitVec 3) : (setRun r s).eb = s.eb := rfl
@[simp] theorem setRun_enc (r : BitVec 3) : (setRun r s).enc = { s.enc with run := r } := rfl
@[simp] theorem setRun_db (r : BitVec 3) : (setRun r s).db = s.db := rfl
@[simp] theorem setRun_dec (r : BitVec 3) : (setRun r s).dec = s.dec := rfl
@[simp] theorem setRun_inbox (r : BitVec 3) : (setRun r s).inbox = s.inbox := rfl
@[simp] theorem setRun_resp (r : BitVec 3) : (setRun r s).resp = s.resp := rfl

@[simp] theorem setPrev_cfg (x : Sample) : (setPrev x s).cfg = s.cfg := rfl
@[simp] theorem setPrev_eb (x : Sample) : (setPrev x s).eb = s.eb := rfl
@[simp] theorem setPrev_enc (x : Sample) : (setPrev x s).enc = { s.enc with prev := x } := rfl
@[simp] theorem setPrev_db (x : Sample) : (setPrev x s).db = s.db := rfl
@[simp] theorem setPrev_dec (x : Sample) : (setPrev x s).dec = s.dec := rfl
@[simp] theorem setPrev_inbox (x : Sample) : (setPrev x s).inbox = s.inbox := rfl
@[simp] theorem setPrev_resp (x : Sample) : (setPrev x s).resp = s.resp := rfl

@[simp] theorem setCur_cfg (x : Sample) : (setCur x s).cfg = s.cfg := rfl
@[simp] theorem setCur_eb (x : Sample) : (setCur x s).eb = s.eb := rfl
@[simp] theorem setCur_enc (x : Sample) : (setCur x s).enc = s.enc := rfl
@[simp] theorem setCur_db (x : Sample) : (setCur x s).db = s.db := rfl
@[simp] theorem setCur_dec (x : Sample) : (setCur x s).dec = { s.dec with cur := x } := rfl
@[simp] theorem setCur_inbox (x : Sample) : (setCur x s).inbox = s.inbox := rfl
@[simp] theorem setCur_resp (x : Sample) : (setCur x s).resp = s.resp := rfl

@[simp] theorem appendOut_cfg (l : List Sample) : (appendOut l s).cfg = s.cfg := rfl
@[simp] theorem appendOut_eb (l : List Sample) : (appendOut l s).eb = s.eb := rfl
@[simp] theorem appendOut_enc (l : List Sample) : (appendOut l s).enc = s.enc := rfl
@[simp] theorem appendOut_db (l : List Sample) : (appendOut l s).db = s.db := rfl
@[simp] theorem appendOut_dec (l : List Sample) : (appendOut l s).dec = { s.dec with out := s.dec.out ++ l } := rfl
@[simp] theorem appendOut_inbox (l : List Sample) : (appendOut l s).inbox = s.inbox := rfl
@[simp] theorem appendOut_resp (l : List Sample) : (appendOut l s).resp = s.resp := rfl

@[simp] theorem Flow.andThen_ok (g : State → Flow) : (Flow.ok s).andThen g = g s := rfl
@[simp] theorem Flow.andThen_raised (k : ErrCode) (g : State → Flow) : (Flow.raised k s).andThen g = .raised k s := rfl
@[simp] theorem Flow.endStep_ok : (Flow.ok s).endStep = .next s := rfl
@[simp] theorem Flow.endStep_raised (k : ErrCode) : (Flow.raised k s).endStep = .next (errorEntry .dec k s) := rfl
@[simp] theorem Flow.endCommand_ok : (Flow.ok s).endCommand = .next (s.respond .done) := rfl
@[simp] theorem Flow.endCommand_raised (k : ErrCode) :
    (Flow.raised k s).endCommand = .next ((errorEntry .enc k s).respond (.error k)) := rfl

end Sys2Proof.Machine
end

