-- ==== Sys2Proof/Laws/Memory.lean ====
section
/-! SUPPORT. The Bit Buffer's laws: what each operation answers, the bits it leaves alone, and that every operation keeps
the canonical form `0 <= rp <= wp <= CAP` (10_state.md R21). -/

namespace Sys2Proof

theorem Cap.allows_mono {cap : Cap} {m n : Nat} (hmn : m ≤ n) (h : cap.allows n = true) : cap.allows m = true := by
  cases cap with
  | unbounded => rfl
  | finite c =>
    simp only [Cap.allows, decide_eq_true_eq] at h ⊢
    omega

@[simp] theorem Cap.allows_unbounded (n : Nat) : Cap.unbounded.allows n = true := rfl

@[simp] theorem Cap.allows_zero (cap : Cap) : cap.allows 0 = true := by
  cases cap <;> simp [Cap.allows]

namespace Machine

theorem BitBuffer.wf_iff {cap : Cap} {B : BitBuffer} :
    B.wf cap = true ↔ B.rp ≤ B.wp ∧ cap.allows B.wp = true := by
  simp [BitBuffer.wf]

theorem Memory.wf_iff {s : State} :
    Memory.wf s = true ↔ s.eb.wf s.cfg.cap = true ∧ s.db.wf s.cfg.cap = true := by
  simp [Memory.wf]

@[simp] theorem BitBuffer.wp_mk (bits : List Bool) (rp : Nat) : BitBuffer.wp ⟨bits, rp⟩ = bits.length := rfl

/-- An address is content exactly below `wp` (R21). -/
theorem BitBuffer.bitAt_isSome {B : BitBuffer} {a : Nat} : (B.bitAt a).isSome ↔ a < B.wp := by
  simp [BitBuffer.bitAt, BitBuffer.wp]

/-! ## `WRITE` -/

theorem BitBuffer.write_fits {cap : Cap} {B : BitBuffer} {v n : Nat} (h : cap.allows (B.wp + n) = true) :
    B.write cap v n = some { B with bits := B.bits ++ field n v } := by
  simp [BitBuffer.write, h]

theorem BitBuffer.write_full {cap : Cap} {B : BitBuffer} {v n : Nat} (h : cap.allows (B.wp + n) = false) :
    B.write cap v n = none := by
  simp [BitBuffer.write, h]

/-- Everything a `WRITE` that completes does. -/
theorem BitBuffer.write_some {cap : Cap} {B C : BitBuffer} {v n : Nat} (h : B.write cap v n = some C) :
    cap.allows (B.wp + n) = true ∧ C = { B with bits := B.bits ++ field n v } := by
  unfold BitBuffer.write at h
  split at h
  · exact ⟨‹_›, (Option.some.inj h).symm⟩
  · cases h

theorem BitBuffer.write_wf {cap : Cap} {B C : BitBuffer} {v n : Nat} (h : B.write cap v n = some C)
    (hB : B.wf cap = true) : C.wf cap = true := by
  obtain ⟨ha, rfl⟩ := BitBuffer.write_some h
  rw [BitBuffer.wf_iff] at hB ⊢
  simp only [BitBuffer.wp, List.length_append, field_length] at *
  exact ⟨by omega, ha⟩

/-- A `WRITE` leaves every stored bit alone. -/
theorem BitBuffer.bitAt_write_below {cap : Cap} {B C : BitBuffer} {v n a : Nat} (h : B.write cap v n = some C)
    (ha : a < B.wp) : C.bitAt a = B.bitAt a := by
  obtain ⟨-, rfl⟩ := BitBuffer.write_some h
  exact List.getElem?_append_left ha

/-- The bits a `WRITE` appends (R9 `MemWrite`, R131). -/
theorem BitBuffer.bitAt_write {cap : Cap} {B C : BitBuffer} {v n k : Nat} (h : B.write cap v n = some C)
    (hk : k < n) : C.bitAt (B.wp + k) = some (v.testBit (n - 1 - k)) := by
  obtain ⟨-, rfl⟩ := BitBuffer.write_some h
  simp only [BitBuffer.bitAt, BitBuffer.wp]
  rw [List.getElem?_append_right (by omega), Nat.add_sub_cancel_left, field_getElem? n v k hk]

/-! ## `READ` -/

theorem BitBuffer.read_enough {B : BitBuffer} {n : Nat} (h : n ≤ B.avail) :
    B.read n = some (B.memRead B.rp n, { B with rp := B.rp + n }) := by
  simp [BitBuffer.read, Nat.not_lt.mpr h]

theorem BitBuffer.read_short {B : BitBuffer} {n : Nat} (h : B.avail < n) : B.read n = none := by
  simp [BitBuffer.read, h]

/-- Everything a `READ` that completes does. -/
theorem BitBuffer.read_some {B C : BitBuffer} {v n : Nat} (h : B.read n = some (v, C)) :
    n ≤ B.avail ∧ v = B.memRead B.rp n ∧ C = { B with rp := B.rp + n } := by
  unfold BitBuffer.read at h
  split at h
  · cases h
  · simp only [Option.some.injEq, Prod.mk.injEq] at h
    exact ⟨by omega, h.1.symm, h.2.symm⟩

theorem BitBuffer.read_wf {cap : Cap} {B C : BitBuffer} {v n : Nat} (h : B.read n = some (v, C))
    (hB : B.wf cap = true) : C.wf cap = true := by
  obtain ⟨ha, -, rfl⟩ := BitBuffer.read_some h
  rw [BitBuffer.wf_iff] at hB ⊢
  simp only [BitBuffer.wp, BitBuffer.avail] at *
  exact ⟨by omega, hB.2⟩

/-- "The result is always less than `2^n`" (R132). -/
theorem BitBuffer.memRead_lt (B : BitBuffer) (a n : Nat) : B.memRead a n < 2 ^ n := fieldValue_take_lt _

/-! ## `CLEAR`, loads, `PACK` -/

theorem BitBuffer.empty_wf (cap : Cap) : BitBuffer.empty.wf cap = true := by
  simp [BitBuffer.wf_iff, BitBuffer.empty]

/-- Everything a load that completes does. -/
theorem BitBuffer.load_some {cap : Cap} {seq : List Bool} {C : BitBuffer} (h : BitBuffer.load cap seq = some C) :
    cap.allows seq.length = true ∧ C = { bits := seq, rp := 0 } := by
  unfold BitBuffer.load at h
  split at h
  · exact ⟨‹_›, (Option.some.inj h).symm⟩
  · cases h

theorem BitBuffer.load_wf {cap : Cap} {seq : List Bool} {C : BitBuffer} (h : BitBuffer.load cap seq = some C) :
    C.wf cap = true := by
  obtain ⟨ha, rfl⟩ := BitBuffer.load_some h
  simp [BitBuffer.wf_iff, ha]

@[simp] theorem bitsOfBytes_nil : bitsOfBytes [] = [] := rfl

@[simp] theorem bitsOfBytes_cons (y : Byte) (ys : List Byte) :
    bitsOfBytes (y :: ys) = field 8 y.toNat ++ bitsOfBytes ys := rfl

@[simp] theorem bitsOfBytes_length (ys : List Byte) : (bitsOfBytes ys).length = 8 * ys.length := by
  induction ys with
  | nil => rfl
  | cons y ys ih =>
    simp only [bitsOfBytes_cons, List.length_append, field_length, ih, List.length_cons]
    omega

@[simp] theorem BitBuffer.pack_length (B : BitBuffer) : B.pack.length = (B.wp + 7) / 8 := by
  simp [BitBuffer.pack]

/-! ## The state's memory -/

theorem reset_memory_wf : Memory.wf State.reset = true := by decide

theorem Memory.wf_withBuf {s : State} {b : BufId} {B : BitBuffer} (h : Memory.wf s = true)
    (hB : B.wf s.cfg.cap = true) : Memory.wf (s.withBuf b B) = true := by
  rw [Memory.wf_iff] at h ⊢
  cases b with
  | eb => exact ⟨hB, h.2⟩
  | db => exact ⟨h.1, hB⟩

@[simp] theorem Memory.wf_withEnc (s : State) (e : Encoder) : Memory.wf (s.withEnc e) = Memory.wf s := rfl

@[simp] theorem Memory.wf_withDec (s : State) (d : Decoder) : Memory.wf (s.withDec d) = Memory.wf s := rfl

@[simp] theorem Memory.wf_withInbox (s : State) (l : List Input) : Memory.wf (s.withInbox l) = Memory.wf s := rfl

@[simp] theorem Memory.wf_respond (s : State) (r : Response) : Memory.wf (s.respond r) = Memory.wf s := rfl

@[simp] theorem Memory.wf_errorEntry (x : CodecUnit) (k : ErrCode) (s : State) :
    Memory.wf (errorEntry x k s) = Memory.wf s := by
  cases x <;> rfl

@[simp] theorem Memory.wf_enterRun (x : CodecUnit) (s : State) : Memory.wf (enterRun x s) = Memory.wf s := by
  cases x <;> rfl

theorem Memory.wf_buf {s : State} (h : Memory.wf s = true) (b : BufId) : (s.buf b).wf s.cfg.cap = true := by
  rw [Memory.wf_iff] at h
  cases b with
  | eb => exact h.1
  | db => exact h.2

/-- Bit `7 - k` of byte `j` of the byte image is the bit at address `8 * j + k`, 0 beyond the content (R133). -/
theorem BitBuffer.imageByte_bit (B : BitBuffer) (j : Nat) {k : Nat} (hk : k < 8) :
    (B.imageByte j).getLsbD (7 - k) = (B.bitAt (8 * j + k)).getD false := by
  rw [BitBuffer.imageByte, getLsbD_fieldValue (by simp) hk]
  simp [hk, BitBuffer.bitAt, List.getD_eq_getElem?_getD]

/-- The bits of a byte image, byte by byte (R134). -/
theorem bitsOfBytes_getElem? {ys : List Byte} {j k : Nat} {y : Byte} (h : ys[j]? = some y) (hk : k < 8) :
    (bitsOfBytes ys)[8 * j + k]? = some (y.getLsbD (7 - k)) := by
  induction ys generalizing j with
  | nil => simp at h
  | cons a rest ih =>
    cases j with
    | zero =>
      simp only [List.getElem?_cons_zero, Option.some.injEq] at h
      subst h
      rw [bitsOfBytes_cons, List.getElem?_append_left (by simp; omega), show 8 * 0 + k = k by omega,
        field_getElem? _ _ _ hk]
      rfl
    | succ j =>
      rw [bitsOfBytes_cons, List.getElem?_append_right (by simp; omega), field_length,
        show 8 * (j + 1) + k - 8 = 8 * j + k by omega]
      exact ih (by simpa using h)

/-- The unread bits are `avail` many (R22). -/
@[simp] theorem BitBuffer.unread_length (B : BitBuffer) : B.unread.length = B.avail := by
  simp [BitBuffer.unread, BitBuffer.avail, BitBuffer.wp]

end Machine
end Sys2Proof
end

