-- ==== Sys2Proof/Laws/Units.lean ====
section
/-! SUPPORT. What the shared operations of the two units can do, said once: the encoder's writes, the decoder's reads,
`ACC`, and how a meaning's outcome is read off its flow. -/

namespace Sys2Proof.Machine

/-! ## The encoder's writes -/

/-- The bits that a list of fields appends. -/
def emitted : List (Nat × Nat) → List Bool
  | [] => []
  | (v, n) :: rest => field n v ++ emitted rest

theorem encWrite_fits {s : State} {v n : Nat} (h : s.cfg.cap.allows (s.eb.wp + n) = true) :
    encWrite v n s = .ok (s.withBuf .eb { s.eb with bits := s.eb.bits ++ field n v }) := by
  simp [encWrite, BitBuffer.write_fits h]

theorem encWrite_full {s : State} {v n : Nat} (h : s.cfg.cap.allows (s.eb.wp + n) = false) :
    encWrite v n s = .raised .overflow s := by
  simp [encWrite, BitBuffer.write_full h]

/-- The state after `bits` have been appended to `EB`. -/
def appendEb (bits : List Bool) (s : State) : State := s.withBuf .eb { s.eb with bits := s.eb.bits ++ bits }

@[simp] theorem appendEb_nil (s : State) : appendEb [] s = s := by
  simp [appendEb, State.withBuf]

@[simp] theorem appendEb_append (a b : List Bool) (s : State) : appendEb b (appendEb a s) = appendEb (a ++ b) s := by
  simp [appendEb, State.withBuf]

@[simp] theorem appendEb_enc (bits : List Bool) (s : State) : (appendEb bits s).enc = s.enc := rfl
@[simp] theorem appendEb_cfg (bits : List Bool) (s : State) : (appendEb bits s).cfg = s.cfg := rfl
@[simp] theorem appendEb_db (bits : List Bool) (s : State) : (appendEb bits s).db = s.db := rfl
@[simp] theorem appendEb_dec (bits : List Bool) (s : State) : (appendEb bits s).dec = s.dec := rfl
@[simp] theorem appendEb_inbox (bits : List Bool) (s : State) : (appendEb bits s).inbox = s.inbox := rfl
@[simp] theorem appendEb_resp (bits : List Bool) (s : State) : (appendEb bits s).resp = s.resp := rfl
@[simp] theorem appendEb_bits (bits : List Bool) (s : State) : (appendEb bits s).eb.bits = s.eb.bits ++ bits := rfl
@[simp] theorem appendEb_rp (bits : List Bool) (s : State) : (appendEb bits s).eb.rp = s.eb.rp := rfl
@[simp] theorem appendEb_wp (bits : List Bool) (s : State) : (appendEb bits s).eb.wp = s.eb.wp + bits.length := by
  simp [BitBuffer.wp]

/-- The bits can be appended within `CAP`, or there are none. -/
def Fits (bits : List Bool) (s : State) : Prop := bits = [] ∨ s.cfg.cap.allows (s.eb.wp + bits.length) = true

/-- Fields that fit are all appended. -/
theorem emitFields_fits {l : List (Nat × Nat)} {s : State}
    (h : s.cfg.cap.allows (s.eb.wp + (emitted l).length) = true) :
    emitFields l s = .ok (appendEb (emitted l) s) := by
  induction l generalizing s with
  | nil => simp [emitFields, emitted]
  | cons f rest ih =>
    obtain ⟨v, n⟩ := f
    simp only [emitted, List.length_append, field_length] at h
    have hfit := encWrite_fits (s := s) (v := v) (n := n) (Cap.allows_mono (by omega) h)
    have hnext := ih (s := appendEb (field n v) s) (by simpa [Nat.add_assoc] using h)
    simp only [emitFields, hfit, Flow.andThen_ok]
    simpa [emitted, appendEb, State.withBuf] using hnext

/-- Everything an emission can do: all of its bits are appended, or `Overflow` is raised with those of the fields before
the failing one appended (R151, R216). -/
theorem emitFields_cases (l : List (Nat × Nat)) (s : State) :
    (emitFields l s = .ok (appendEb (emitted l) s) ∧ Fits (emitted l) s) ∨
    (s.cfg.cap.allows (s.eb.wp + (emitted l).length) = false ∧
      ∃ done, done <+: emitted l ∧ Fits done s ∧ emitFields l s = .raised .overflow (appendEb done s)) := by
  induction l generalizing s with
  | nil => exact .inl ⟨by simp [emitFields, emitted], .inl rfl⟩
  | cons f rest ih =>
    obtain ⟨v, n⟩ := f
    cases hfit : s.cfg.cap.allows (s.eb.wp + n) with
    | false =>
      refine .inr ⟨?_, [], List.nil_prefix, .inl rfl, by simp [emitFields, encWrite_full hfit]⟩
      by_contra hall
      rw [Bool.not_eq_false] at hall
      have hle : s.eb.wp + n ≤ s.eb.wp + (emitted ((v, n) :: rest)).length := by simp [emitted]
      rw [Cap.allows_mono hle hall] at hfit
      cases hfit
    | true =>
      have hw : encWrite v n s = .ok (appendEb (field n v) s) := encWrite_fits hfit
      have fits_cons {done : List Bool} (h : Fits done (appendEb (field n v) s)) : Fits (field n v ++ done) s := by
        rcases h with rfl | h
        · exact .inr (by simpa using hfit)
        · exact .inr (by simpa [Nat.add_assoc] using h)
      rcases ih (appendEb (field n v) s) with ⟨hok, hfits⟩ | ⟨hfull, done, hpre, hdone, hraise⟩
      · exact .inl ⟨by simp [emitFields, hw, hok, emitted], fits_cons hfits⟩
      · refine .inr ⟨by simpa [emitted, Nat.add_assoc] using hfull, field n v ++ done, ?_, fits_cons hdone, ?_⟩
        · simpa [emitted] using hpre
        · simp [emitFields, hw, hraise]

@[simp] theorem emitted_append (l m : List (Nat × Nat)) : emitted (l ++ m) = emitted l ++ emitted m := by
  induction l with
  | nil => rfl
  | cons f rest ih =>
    obtain ⟨v, n⟩ := f
    simp [emitted, ih]

/-- An emission is the emission of its first fields, then of the others. -/
theorem emitFields_append (l m : List (Nat × Nat)) (s : State) :
    emitFields (l ++ m) s = (emitFields l s).andThen (emitFields m) := by
  induction l generalizing s with
  | nil => rfl
  | cons f rest ih =>
    obtain ⟨v, n⟩ := f
    simp only [List.cons_append, emitFields]
    cases encWrite v n s with
    | ok t => simp [ih]
    | raised k t => rfl

/-- An emission stops at the first field that does not fit; the fields before it stay (R151, R216). -/
theorem emitFields_stops {l m : List (Nat × Nat)} {v n : Nat} {s : State} (hl : l = [] ∨
    s.cfg.cap.allows (s.eb.wp + (emitted l).length) = true)
    (hn : s.cfg.cap.allows (s.eb.wp + (emitted l).length + n) = false) :
    emitFields (l ++ (v, n) :: m) s = .raised .overflow (appendEb (emitted l) s) := by
  have hfits : emitFields l s = .ok (appendEb (emitted l) s) := by
    rcases hl with rfl | hl
    · simp [emitFields, emitted]
    · exact emitFields_fits hl
  rw [emitFields_append, hfits, Flow.andThen_ok, emitFields, encWrite_full (by simpa using hn), Flow.andThen_raised]

/-! The flush of a pending run. -/

theorem pendingRun_of_zero {r : BitVec 3} (h : r = 0) : pendingRun r = [] := if_pos h

theorem pendingRun_of_pos {r : BitVec 3} (h : r ≠ 0) : pendingRun r = emitted [(0b01, 2), (r.toNat - 1, 3)] := by
  rw [pendingRun, if_neg h]
  simp [emitted]

theorem pendingFields_flatten (r : BitVec 3) : (pendingFields r).flatten = pendingRun r := by
  unfold pendingFields pendingRun
  split <;> simp

theorem setRun_of_eq {s : State} {r : BitVec 3} (h : s.enc.run = r) : setRun r s = s := by
  subst h
  rfl

theorem flushRun_of_zero {s : State} (h : s.enc.run = 0) : flushRun s = .ok s := if_pos h

theorem flushRun_of_pos {s : State} (h : s.enc.run ≠ 0) :
    flushRun s = (emitFields [(0b01, 2), (s.enc.run.toNat - 1, 3)] s).andThen fun s => .ok (setRun 0 s) := if_neg h

/-- Everything the flush of a pending run can do. -/
theorem flushRun_cases (s : State) :
    (flushRun s = .ok (setRun 0 (appendEb (pendingRun s.enc.run) s)) ∧ Fits (pendingRun s.enc.run) s) ∨
    (s.cfg.cap.allows (s.eb.wp + (pendingRun s.enc.run).length) = false ∧
      ∃ done, done <+: pendingRun s.enc.run ∧ Fits done s ∧ flushRun s = .raised .overflow (appendEb done s)) := by
  by_cases hr : s.enc.run = 0
  · left
    rw [flushRun_of_zero hr, pendingRun_of_zero hr, appendEb_nil, setRun_of_eq hr]
    exact ⟨rfl, .inl rfl⟩
  · rw [flushRun_of_pos hr, pendingRun_of_pos hr]
    rcases emitFields_cases [(0b01, 2), (s.enc.run.toNat - 1, 3)] s with ⟨hok, hfits⟩ | ⟨hfull, done, hpre, hdone, hraise⟩
    · exact .inl ⟨by rw [hok, Flow.andThen_ok], hfits⟩
    · exact .inr ⟨hfull, done, hpre, hdone, by rw [hraise, Flow.andThen_raised]⟩

theorem flushRun_fits {s : State} (h : s.cfg.cap.allows (s.eb.wp + (pendingRun s.enc.run).length) = true) :
    flushRun s = .ok (setRun 0 (appendEb (pendingRun s.enc.run) s)) := by
  rcases flushRun_cases s with ⟨hok, -⟩ | ⟨hfull, -⟩
  · exact hok
  · rw [h] at hfull
    cases hfull

/-! ## The decoder's reads -/

/-- The state after the decoder's cursor has passed `n` bits. -/
def advance (n : Nat) (s : State) : State := s.withBuf .db { s.db with rp := s.db.rp + n }

@[simp] theorem advance_zero (s : State) : advance 0 s = s := rfl

@[simp] theorem advance_advance (m n : Nat) (s : State) : advance n (advance m s) = advance (m + n) s := by
  simp [advance, State.withBuf, Nat.add_assoc]

@[simp] theorem advance_dec (n : Nat) (s : State) : (advance n s).dec = s.dec := rfl
@[simp] theorem advance_cfg (n : Nat) (s : State) : (advance n s).cfg = s.cfg := rfl
@[simp] theorem advance_eb (n : Nat) (s : State) : (advance n s).eb = s.eb := rfl
@[simp] theorem advance_enc (n : Nat) (s : State) : (advance n s).enc = s.enc := rfl
@[simp] theorem advance_inbox (n : Nat) (s : State) : (advance n s).inbox = s.inbox := rfl
@[simp] theorem advance_resp (n : Nat) (s : State) : (advance n s).resp = s.resp := rfl
@[simp] theorem advance_bits (n : Nat) (s : State) : (advance n s).db.bits = s.db.bits := rfl
@[simp] theorem advance_rp (n : Nat) (s : State) : (advance n s).db.rp = s.db.rp + n := rfl
@[simp] theorem advance_avail (n : Nat) (s : State) : (advance n s).db.avail = s.db.avail - n := by
  simp [BitBuffer.avail, BitBuffer.wp, Nat.sub_sub]

theorem decRead_enough {s : State} {n : Nat} (h : n ≤ s.db.avail) : decRead n s = .ok (advance n s) := by
  simp [decRead, BitBuffer.read_enough h, advance]

theorem decRead_short {s : State} {n : Nat} (h : s.db.avail < n) : decRead n s = .raised .truncatedStream s := by
  simp [decRead, BitBuffer.read_short h]

/-- A symbol whose fields are all there. -/
theorem decFields_enough {l : List Nat} {s : State} (h : l.sum ≤ s.db.avail) :
    decFields l s = .ok (advance l.sum s) := by
  induction l generalizing s with
  | nil => rfl
  | cons n rest ih =>
    simp only [List.sum_cons] at h
    have hrest := ih (s := advance n s) (by simp; omega)
    simp [decFields, decRead_enough (show n ≤ s.db.avail by omega), hrest]

/-- Everything the reads of a symbol can do: all of its fields, or `TruncatedStream` with the fields before the failing
one consumed (R192). -/
theorem decFields_cases (l : List Nat) (s : State) :
    (l.sum ≤ s.db.avail ∧ decFields l s = .ok (advance l.sum s)) ∨
    (s.db.avail < l.sum ∧ ∃ n, n ≤ s.db.avail ∧ decFields l s = .raised .truncatedStream (advance n s)) := by
  induction l generalizing s with
  | nil => exact .inl ⟨by simp, rfl⟩
  | cons n rest ih =>
    by_cases hn : n ≤ s.db.avail
    · rcases ih (advance n s) with ⟨hle, hok⟩ | ⟨hlt, m, hm, hraise⟩
      · simp only [advance_avail] at hle
        refine .inl ⟨?_, ?_⟩
        · simp only [List.sum_cons]
          omega
        · simp [decFields, decRead_enough hn, hok]
      · simp only [advance_avail] at hlt hm
        refine .inr ⟨?_, n + m, ?_, ?_⟩
        · simp only [List.sum_cons]
          omega
        · omega
        · simp [decFields, decRead_enough hn, hraise]
    · refine .inr ⟨?_, 0, by omega, ?_⟩
      · simp only [List.sum_cons]
        omega
      · simp [decFields, decRead_short (show s.db.avail < n by omega)]

/-! ## `ACC` -/

theorem acc_inRange {d : Int} {s : State} (h0 : 0 ≤ (s.dec.cur.toNat : Int) + d)
    (h1 : (s.dec.cur.toNat : Int) + d ≤ 255) :
    acc d s = .ok (appendOut [BitVec.ofInt 8 (s.dec.cur.toNat + d)] (setCur (BitVec.ofInt 8 (s.dec.cur.toNat + d)) s)) := by
  unfold acc
  rw [if_neg (by omega)]

theorem acc_outOfRange {d : Int} {s : State}
    (h : (s.dec.cur.toNat : Int) + d < 0 ∨ 255 < (s.dec.cur.toNat : Int) + d) :
    acc d s = .raised .sampleRange s := by
  unfold acc
  rw [if_pos h]

/-- The new value, as a number, is the sum: it never wraps (R191). -/
theorem toNat_ofInt_sample {t : Int} (h0 : 0 ≤ t) (h1 : t ≤ 255) : ((BitVec.ofInt 8 t).toNat : Int) = t := by
  rw [BitVec.toNat_ofInt]
  omega

/-! ## The gates of the meanings -/

theorem decSymbol_on {hdr : Bool} {body : State → Flow} {s : State} (hm : s.dec.mode = .run) (hh : s.dec.hdr = hdr) :
    decSymbol hdr body s = (body s).endStep := if_pos ⟨hm, hh⟩

theorem decSymbol_off {hdr : Bool} {body : State → Flow} {s : State}
    (h : ¬(s.dec.mode = .run ∧ s.dec.hdr = hdr)) : decSymbol hdr body s = .next s := if_neg h

theorem whenIdleOwner_on {b : BufId} {s : State} {r : Result} (h : s.own b ≠ .run) : whenIdleOwner b s r = r :=
  if_neg h

theorem whenIdleOwner_off {b : BufId} {s : State} {r : Result} (h : s.own b = .run) :
    whenIdleOwner b s r = .next (s.respond .notAccepted) := if_pos h

/-! The commands of one buffer or the other are one operation. -/

theorem exec_clear (b : BufId) (s : State) : exec b.clear s = bufClear b s := by cases b <;> rfl

theorem exec_writeField (b : BufId) (v : FieldValue) (n : FieldWidth) (s : State) :
    exec (b.writeField v n) s = bufWrite b v n s := by cases b <;> rfl

theorem exec_readField (b : BufId) (n : FieldWidth) (s : State) : exec (b.readField n) s = bufRead b n s := by
  cases b <;> rfl

theorem exec_packBytes (b : BufId) (s : State) : exec b.packBytes s = bufPack b s := by cases b <;> rfl

theorem exec_loadBytes (b : BufId) (ys : List Byte) (s : State) :
    exec (b.loadBytes ys) s = bufLoad b (bitsOfBytes ys) s := by cases b <;> rfl

theorem exec_loadBits (b : BufId) (seq : List Bool) (s : State) : exec (b.loadBits seq) s = bufLoad b seq s := by
  cases b <;> rfl

/-- An enabled `WRITE` of the host. -/
theorem bufWrite_on {b : BufId} {v : FieldValue} {n : FieldWidth} {s : State} (h : s.own b ≠ .run)
    (hn : n.toNat ≤ fw) :
    bufWrite b v n s = endBufferCommand b .overflow s ((s.buf b).write s.cfg.cap v.toNat n.toNat) := by
  rw [bufWrite, whenIdleOwner_on h, if_neg (by omega)]

/-- An enabled `READ` of the host that finds its bits. -/
theorem bufRead_enough {b : BufId} {n : FieldWidth} {s : State} (h : s.own b ≠ .run) (hn : n.toNat ≤ fw)
    (ha : n.toNat ≤ (s.buf b).avail) :
    bufRead b n s = .next ((s.withBuf b { s.buf b with rp := (s.buf b).rp + n.toNat }).respond
      (.value (BitVec.ofNat 16 ((s.buf b).memRead (s.buf b).rp n.toNat)))) := by
  rw [bufRead, whenIdleOwner_on h, if_neg (by omega), BitBuffer.read_enough ha]

/-- An enabled `READ` of the host that finds too few bits. -/
theorem bufRead_short {b : BufId} {n : FieldWidth} {s : State} (h : s.own b ≠ .run) (hn : n.toNat ≤ fw)
    (ha : (s.buf b).avail < n.toNat) : bufRead b n s = .next (s.respond (.error .underflow)) := by
  rw [bufRead, whenIdleOwner_on h, if_neg (by omega), BitBuffer.read_short ha]

/-- A decoder step's flow always leads to a next state. -/
theorem Flow.endStep_next (f : Flow) : ∃ t, f.endStep = .next t := by
  cases f <;> exact ⟨_, rfl⟩

/-- An encoder command's flow always leads to a next state. -/
theorem Flow.endCommand_next (f : Flow) : ∃ t, f.endCommand = .next t := by
  cases f <;> exact ⟨_, rfl⟩

theorem exec_push_on {x : Sample} {s : State} (h : s.enc.mode = .run) :
    exec (.encPush x) s = (pushBody x s).endCommand := if_pos h

theorem exec_push_off {x : Sample} {s : State} (h : s.enc.mode ≠ .run) :
    exec (.encPush x) s = .next (s.respond .notAccepted) := if_neg h

theorem exec_finish_on {s : State} (h : s.enc.mode = .run) : exec .encFinish s = (finishBody s).endCommand := if_pos h

theorem exec_finish_off {s : State} (h : s.enc.mode ≠ .run) : exec .encFinish s = .next (s.respond .notAccepted) :=
  if_neg h

/-- The four Small-Delta symbols are one operation of a band and a code. -/
theorem exec_small {i : Instr} {k : Band} {c : Nat} {s : State} (hi : smallSymbol i = some (k, c)) :
    exec i s = decSymbol true (smallBody k c) s := by
  cases i <;> simp only [smallSymbol, Option.some.injEq, Prod.mk.injEq, reduceCtorEq] at hi <;>
    obtain ⟨rfl, rfl⟩ := hi <;> rfl

/-- A sample is the one value of its number. -/
theorem ofInt_sample {x : Sample} {t : Int} (h : (x.toNat : Int) = t) : BitVec.ofInt 8 t = x := by
  apply BitVec.eq_of_toNat_eq
  have := x.isLt
  rw [BitVec.toNat_ofInt]
  omega

end Sys2Proof.Machine
end

