-- ==== Sys2Proof/Laws/Exec.lean ====
section
/-! SUPPORT. Everything an instruction of a unit can do, said once per unit: proofs about all steps cite these lemmas and
unfold no meaning. -/

namespace Sys2Proof.Machine

/-! ## The encoder -/

/-- What the pseudocode of `ENC.PUSH` or `ENC.FINISH` leaves when it completes: bits appended, registers written. -/
def encoded (bits : List Bool) (prev : Sample) (run : BitVec 3) (m : Mode) (s : State) : State :=
  (appendEb bits s).withEnc { s.enc with prev := prev, run := run, haveFirst := true, mode := m }

/-- What it leaves at a `raise`: the bits of the fields before it appended, the pending run flushed or not. -/
def encodedUntil (bits : List Bool) (run : BitVec 3) (s : State) : State :=
  (appendEb bits s).withEnc { s.enc with run := run }

/-- The pseudocode stopped at `raise k`, after appending some bits and perhaps flushing the run. -/
def RaisedAt (f : Flow) (k : ErrCode) (s : State) : Prop :=
  ∃ bits r, f = .raised k (encodedUntil bits r s) ∧ Fits bits s

theorem encodedUntil_eq (bits : List Bool) (s : State) :
    encodedUntil bits s.enc.run s = appendEb bits s := rfl

theorem RaisedAt.append {f : Flow} {k : ErrCode} {r : BitVec 3} {bits : List Bool} {s : State}
    (hb : Fits bits s) (h : RaisedAt f k (encodedUntil bits r s)) : RaisedAt f k s := by
  obtain ⟨more, q, rfl, hm⟩ := h
  refine ⟨bits ++ more, q, ?_, ?_⟩
  · simp [encodedUntil, appendEb, State.withBuf, State.withEnc]
  · rcases hm with rfl | hm
    · simpa using hb
    · exact .inr (by simpa [encodedUntil, Nat.add_assoc] using hm)

/-- An emission completes, or stops at `Overflow`. -/
theorem emitFields_outcome (l : List (Nat × Nat)) (s : State) :
    (emitFields l s = .ok (appendEb (emitted l) s) ∧ Fits (emitted l) s) ∨ RaisedAt (emitFields l s) .overflow s := by
  rcases emitFields_cases l s with h | ⟨-, done, -, hdone, hraise⟩
  · exact .inl h
  · exact .inr ⟨done, s.enc.run, hraise, hdone⟩

/-- The flush of the pending run completes, or stops at `Overflow`. -/
theorem flushRun_outcome (s : State) :
    (flushRun s = .ok (encodedUntil (pendingRun s.enc.run) 0 s) ∧ Fits (pendingRun s.enc.run) s) ∨
    RaisedAt (flushRun s) .overflow s := by
  rcases flushRun_cases s with h | ⟨-, done, -, hdone, hraise⟩
  · exact .inl h
  · exact .inr ⟨done, s.enc.run, hraise, hdone⟩

theorem RaisedAt.andThen {f : Flow} {k : ErrCode} {s : State} (h : RaisedAt f k s) (g : State → Flow) :
    RaisedAt (f.andThen g) k s := by
  obtain ⟨bits, r, rfl, hb⟩ := h
  exact ⟨bits, r, rfl, hb⟩

theorem Fits.append {a b : List Bool} {r : BitVec 3} {s : State} (ha : Fits a s) (hb : Fits b (encodedUntil a r s)) :
    Fits (a ++ b) s := by
  rcases hb with rfl | hb
  · simpa using ha
  · exact .inr (by simpa [encodedUntil, Nat.add_assoc] using hb)

/-- A symbol after the flush of the pending run, and what is done once both are written. -/
theorem flush_then_emit (l : State → List (Nat × Nat)) (g : State → State) (s : State) :
    (∃ bits, ((flushRun s).andThen fun t => (emitFields (l t) t).andThen fun t => .ok (g t)) =
        .ok (g (encodedUntil bits 0 s)) ∧ Fits bits s) ∨
    RaisedAt ((flushRun s).andThen fun t => (emitFields (l t) t).andThen fun t => .ok (g t)) .overflow s := by
  rcases flushRun_outcome s with ⟨hok, hfit⟩ | hraise
  · rw [hok, Flow.andThen_ok]
    rcases emitFields_outcome (l (encodedUntil (pendingRun s.enc.run) 0 s)) (encodedUntil (pendingRun s.enc.run) 0 s)
      with ⟨hok', hfit'⟩ | hraise'
    · refine .inl ⟨_, ?_, hfit.append hfit'⟩
      rw [hok', Flow.andThen_ok]
      simp [encodedUntil, appendEb, State.withBuf, State.withEnc]
    · exact .inr ((hraise'.append hfit).andThen _)
  · exact .inr (hraise.andThen _)

/-- Everything the pseudocode of `ENC.PUSH` can do (R151). -/
theorem pushBody_outcome (x : Sample) (s : State) :
    (∃ bits p r, pushBody x s = .ok (encoded bits p r s.enc.mode s) ∧ Fits bits s ∧
      (s.enc.haveFirst = false → bits = field 8 x.toNat ∧ p = x ∧ r = s.enc.run)) ∨
    RaisedAt (pushBody x s) .overflow s ∨
    (s.enc.haveFirst = true ∧ 2 ^ s.enc.W.toNat ≤ (delta x s.enc.prev).natAbs ∧ RaisedAt (pushBody x s) .outOfRange s) := by
  unfold pushBody
  split
  · rename_i hh
    rcases emitFields_outcome [(x.toNat, 8)] s with ⟨hok, hfit⟩ | hraise
    · exact .inl ⟨_, x, s.enc.run, by rw [pushFirst, emitRaw8, hok]; rfl, hfit, by simp [emitted]⟩
    · exact .inr (.inl (hraise.andThen _))
  · rename_i hh
    rw [Bool.not_eq_false] at hh
    have keep (bits : List Bool) (p : Sample) (r : BitVec 3) :
        (appendEb bits s).withEnc { s.enc with prev := p, run := r } = encoded bits p r s.enc.mode s := by
      simp [encoded, ← hh]
    have notFirst {bits : List Bool} {p : Sample} {r : BitVec 3} :
        s.enc.haveFirst = false → bits = field 8 x.toNat ∧ p = x ∧ r = s.enc.run := by simp [hh]
    split
    · unfold pushZero
      split
      · rcases emitFields_outcome [(0b01, 2), (runMax - 1, 3)] s with ⟨hok, hfit⟩ | hraise
        · exact .inl ⟨_, s.enc.prev, 0, by rw [emitZr, hok]; exact congrArg Flow.ok (keep _ _ _), hfit, notFirst⟩
        · exact .inr (.inl (hraise.andThen _))
      · exact .inl ⟨[], s.enc.prev, s.enc.run + 1, by rw [← keep, appendEb_nil]; rfl, .inl rfl, notFirst⟩
    · rcases flush_then_emit (fun _ => [(0b00, 2), ((band (delta x s.enc.prev).natAbs).val, 2),
        (gen (delta x s.enc.prev) (band (delta x s.enc.prev).natAbs), bandWidth (band (delta x s.enc.prev).natAbs))])
        (setPrev x) s with ⟨bits, hok, hfit⟩ | hraise
      · exact .inl ⟨bits, x, 0, hok.trans (congrArg Flow.ok (keep _ _ _)), hfit, notFirst⟩
      · exact .inr (.inl hraise)
    · unfold pushLarge
      by_cases hW : 2 ^ s.enc.W.toNat ≤ (delta x s.enc.prev).natAbs
      · rcases flushRun_outcome s with ⟨hok, hfit⟩ | hraise
        · rw [hok, Flow.andThen_ok, if_pos (by exact hW)]
          exact .inr (.inr ⟨hh, hW, _, _, rfl, hfit⟩)
        · exact .inr (.inl (hraise.andThen _))
      · have hrest : ((flushRun s).andThen fun t => if 2 ^ t.enc.W.toNat ≤ (delta x s.enc.prev).natAbs
            then Flow.raised .outOfRange t else (emitLd (delta x s.enc.prev) t).andThen fun t => .ok (setPrev x t)) =
            (flushRun s).andThen fun t => (emitLd (delta x s.enc.prev) t).andThen fun t => .ok (setPrev x t) := by
          rcases flushRun_outcome s with ⟨hok, -⟩ | ⟨_, _, hraise, -⟩
          · rw [hok, Flow.andThen_ok, Flow.andThen_ok, if_neg (by exact hW)]
          · rw [hraise]
            rfl
        rw [hrest]
        rcases flush_then_emit (fun t => [(0b10, 2), (if delta x s.enc.prev < 0 then 1 else 0, 1),
          ((delta x s.enc.prev).natAbs, t.enc.W.toNat)]) (setPrev x) s with ⟨bits, hok, hfit⟩ | hraise
        · exact .inl ⟨bits, x, 0, hok.trans (congrArg Flow.ok (keep _ _ _)), hfit, notFirst⟩
        · exact .inr (.inl hraise)

/-- Everything the pseudocode of `ENC.FINISH` can do (R162). -/
theorem finishBody_outcome (s : State) :
    (∃ bits, finishBody s = .ok (encoded bits s.enc.prev 0 .done s) ∧ Fits bits s ∧ s.enc.haveFirst = true) ∨
    RaisedAt (finishBody s) .overflow s ∨
    (s.enc.haveFirst = false ∧ finishBody s = .raised .emptyInput s) := by
  unfold finishBody
  split
  · rename_i hh
    exact .inr (.inr ⟨hh, rfl⟩)
  · rename_i hh
    rw [Bool.not_eq_false] at hh
    rcases flush_then_emit (fun _ => [(0b11, 2)]) (fun t => t.withEnc { t.enc with mode := .done }) s
      with ⟨bits, hok, hfit⟩ | hraise
    · refine .inl ⟨bits, hok.trans (congrArg Flow.ok ?_), hfit, hh⟩
      simp [encoded, encodedUntil, State.withEnc, hh]
    · exact .inr (.inl hraise)

/-! ## The decoder -/

/-- What a symbol's execution leaves when it completes: its bits consumed, samples appended, registers written. -/
def decoded (n : Nat) (samples : List Sample) (cur : Sample) (m : Mode) (s : State) : State :=
  (advance n s).withDec { s.dec with cur := cur, out := s.dec.out ++ samples, hdr := true, mode := m }

/-- A symbol's execution went through: its fields were all there, and either it is the Terminator or it appended samples
of which the last is the new value. -/
def SymbolDone (i : Instr) (s : State) (f : Flow) : Prop :=
  (symbolFields s.dec.W i).sum ≤ s.db.avail ∧ ∃ samples cur m,
    f = .ok (decoded (symbolFields s.dec.W i).sum samples cur m s) ∧
    ((i = .term ∧ m = .done ∧ samples = [] ∧ cur = s.dec.cur) ∨
     (i ≠ .term ∧ m = .run ∧ samples.getLast? = some cur ∧ 5 * samples.length ≤ 8 * (symbolFields s.dec.W i).sum))

/-- A symbol's execution stopped at a `raise`, some of its bits consumed. -/
def SymbolRaised (s : State) (f : Flow) : Prop :=
  ∃ n k, n ≤ s.db.avail ∧ (k = .truncatedStream ∨ k = .sampleRange) ∧ f = .raised k (advance n s)

/-- The fields of a symbol, and what is done once they are read. -/
theorem fields_then (l : List Nat) (g : State → Flow) (s : State) :
    (l.sum ≤ s.db.avail ∧ (decFields l s).andThen g = g (advance l.sum s)) ∨ SymbolRaised s ((decFields l s).andThen g) := by
  rcases decFields_cases l s with ⟨hle, hok⟩ | ⟨-, n, hn, hraise⟩
  · exact .inl ⟨hle, by rw [hok, Flow.andThen_ok]⟩
  · exact .inr ⟨n, .truncatedStream, hn, .inl rfl, by rw [hraise, Flow.andThen_raised]⟩

/-- The fields of a symbol and `ACC`. -/
theorem fields_then_acc {i : Instr} {l : List Nat} {s : State} (d : Int) (hi : i ≠ .term)
    (hl : symbolFields s.dec.W i = l) (h3 : 3 ≤ l.sum) (hm : s.dec.mode = .run) (hh : s.dec.hdr = true) :
    SymbolDone i s ((decFields l s).andThen (acc d)) ∨ SymbolRaised s ((decFields l s).andThen (acc d)) := by
  subst hl
  rcases fields_then (symbolFields s.dec.W i) (acc d) s with ⟨hle, hok⟩ | hraise
  · by_cases hd : (s.dec.cur.toNat : Int) + d < 0 ∨ 255 < (s.dec.cur.toNat : Int) + d
    · exact .inr ⟨_, .sampleRange, hle, .inr rfl, hok.trans (acc_outOfRange hd)⟩
    · refine .inl ⟨hle, [BitVec.ofInt 8 (s.dec.cur.toNat + d)], _, .run, ?_, .inr ⟨hi, rfl, rfl, ?_⟩⟩
      · rw [hok, acc_inRange (by simp; omega) (by simp; omega)]
        simp [decoded, appendOut, setCur, State.withDec, hm, hh]
      · simp only [List.length_singleton]
        omega
  · exact .inr hraise

/-- Everything a stream symbol can do (R182 to R192): nothing where it is not the decoder's symbol, its execution in full,
or the error entry. -/
theorem exec_symbol_outcome {i : Instr} (hi : isSymbol i = true) (s : State) :
    (¬(s.dec.mode = .run ∧ s.dec.hdr = i.atHdr) ∧ exec i s = .next s) ∨
    ((s.dec.mode = .run ∧ s.dec.hdr = i.atHdr) ∧
      ∃ f : Flow, exec i s = f.endStep ∧ (SymbolDone i s f ∨ SymbolRaised s f)) := by
  by_cases hon : s.dec.mode = .run ∧ s.dec.hdr = i.atHdr
  · refine .inr ⟨hon, ?_⟩
    obtain ⟨hm, hh⟩ := hon
    cases i with
    | raw8 v =>
      refine ⟨_, decSymbol_on hm hh, ?_⟩
      rcases fields_then [8] (fun s => .ok (s.withDec { s.dec with cur := v, out := s.dec.out ++ [v], hdr := true })) s
        with ⟨hle, hok⟩ | hraise
      · refine .inl ⟨hle, [v], v, .run, hok.trans ?_, .inr ⟨nofun, rfl, rfl, by simp [symbolFields]⟩⟩
        simp [decoded, symbolFields, State.withDec, hm]
      · exact .inr hraise
    | sdB0 c => exact ⟨_, decSymbol_on hm hh, fields_then_acc _ nofun rfl (by decide) hm hh⟩
    | sdB1 c => exact ⟨_, decSymbol_on hm hh, fields_then_acc _ nofun rfl (by decide) hm hh⟩
    | sdB2 c => exact ⟨_, decSymbol_on hm hh, fields_then_acc _ nofun rfl (by decide) hm hh⟩
    | sdB3 c => exact ⟨_, decSymbol_on hm hh, fields_then_acc _ nofun rfl (by decide) hm hh⟩
    | zr n =>
      refine ⟨_, decSymbol_on hm hh, ?_⟩
      rcases fields_then [2, 3] (fun t => .ok (appendOut (List.replicate (n.toNat + 1) t.dec.cur) t)) s
        with ⟨hle, hok⟩ | hraise
      · refine .inl ⟨hle, List.replicate (n.toNat + 1) s.dec.cur, s.dec.cur, .run, hok.trans ?_, .inr ⟨nofun, rfl, ?_, ?_⟩⟩
        · simp [decoded, symbolFields, appendOut, State.withDec, hm, show s.dec.hdr = true from hh]
        · simp [List.getLast?_replicate]
        · have := n.isLt
          simp only [List.length_replicate, symbolFields, List.sum_cons, List.sum_nil]
          omega
      · exact .inr hraise
    | ld sign m =>
      exact ⟨_, decSymbol_on hm hh, fields_then_acc _ nofun rfl (by simp; omega) hm hh⟩
    | term =>
      refine ⟨_, decSymbol_on hm hh, ?_⟩
      rcases fields_then [2] (fun t => .ok (t.withDec { t.dec with mode := .done })) s with ⟨hle, hok⟩ | hraise
      · refine .inl ⟨hle, [], s.dec.cur, .done, hok.trans ?_, .inl ⟨rfl, rfl, rfl, rfl⟩⟩
        simp [decoded, symbolFields, State.withDec, show s.dec.hdr = true from hh]
      · exact .inr hraise
    | _ => simp [isSymbol, symbolFields] at hi
  · refine .inl ⟨hon, ?_⟩
    cases i with
    | raw8 | sdB0 | sdB1 | sdB2 | sdB3 | zr | ld | term => exact decSymbol_off hon
    | _ => simp [isSymbol, symbolFields] at hi

/-- What the decoder reads from a stream is a symbol, and its fields are there (R92, R100). -/
theorem decodeSymbol_isSymbol {hdr : Bool} {W : LdWidth} {bits rest : List Bool} {i : Instr}
    (h : decodeSymbol hdr W bits = .ok (i, rest)) :
    isSymbol i = true ∧ i.atHdr = hdr ∧ (symbolFields W i).sum ≤ bits.length := by
  unfold decodeSymbol decodeSmall readField at h
  repeat' (first
    | split at h
    | (simp at h; try (obtain ⟨rfl, -⟩ := h; simp_all [isSymbol, symbolFields, Instr.atHdr]; try omega)))

/-- Where a symbol is cut short, the bits consumed are there (R192). -/
theorem decodeSymbol_truncated_le {hdr : Bool} {W : LdWidth} {bits : List Bool} {n : Nat}
    (h : decodeSymbol hdr W bits = .error (.truncated n)) : n ≤ bits.length := by
  unfold decodeSymbol decodeSmall readField at h
  repeat' (first | split at h | (simp at h; try omega))

/-! ## The Bit Buffer commands -/

/-- Everything a Bit Buffer command of the host can do (R130 to R137): it is turned away, answers and changes nothing, or
replaces its buffer by one in canonical form. -/
theorem exec_buffer_outcome {i : Instr} {b : BufId} (hi : bufferOf i = some b) (s : State) :
    (∃ r, exec i s = .next (s.respond r) ∧ r ≠ .error .widthMismatch) ∨
    (s.own b ≠ .run ∧ ∃ B r, exec i s = .next ((s.withBuf b B).respond r) ∧ (∀ k, r ≠ .error k) ∧
      ((s.buf b).wf s.cfg.cap = true → B.wf s.cfg.cap = true)) := by
  by_cases hown : s.own b = .run
  · refine .inl ⟨.notAccepted, ?_, nofun⟩
    cases i <;> simp only [bufferOf, Option.some.injEq, reduceCtorEq] at hi <;> subst hi <;> exact whenIdleOwner_off hown
  · have write (v : FieldValue) (n : FieldWidth) :
        (∃ r, bufWrite b v n s = .next (s.respond r) ∧ r ≠ .error .widthMismatch) ∨
        (s.own b ≠ .run ∧ ∃ B r, bufWrite b v n s = .next ((s.withBuf b B).respond r) ∧ (∀ k, r ≠ .error k) ∧
          ((s.buf b).wf s.cfg.cap = true → B.wf s.cfg.cap = true)) := by
      rw [bufWrite, whenIdleOwner_on hown]
      split
      · exact .inl ⟨_, rfl, nofun⟩
      · cases hw : (s.buf b).write s.cfg.cap v.toNat n.toNat with
        | none => exact .inl ⟨_, rfl, nofun⟩
        | some B => exact .inr ⟨hown, B, _, rfl, nofun, BitBuffer.write_wf hw⟩
    have read (n : FieldWidth) :
        (∃ r, bufRead b n s = .next (s.respond r) ∧ r ≠ .error .widthMismatch) ∨
        (s.own b ≠ .run ∧ ∃ B r, bufRead b n s = .next ((s.withBuf b B).respond r) ∧ (∀ k, r ≠ .error k) ∧
          ((s.buf b).wf s.cfg.cap = true → B.wf s.cfg.cap = true)) := by
      rw [bufRead, whenIdleOwner_on hown]
      split
      · exact .inl ⟨_, rfl, nofun⟩
      · cases hr : (s.buf b).read n.toNat with
        | none => exact .inl ⟨_, rfl, nofun⟩
        | some vB => exact .inr ⟨hown, vB.2, _, rfl, nofun, BitBuffer.read_wf hr⟩
    have load (seq : List Bool) :
        (∃ r, bufLoad b seq s = .next (s.respond r) ∧ r ≠ .error .widthMismatch) ∨
        (s.own b ≠ .run ∧ ∃ B r, bufLoad b seq s = .next ((s.withBuf b B).respond r) ∧ (∀ k, r ≠ .error k) ∧
          ((s.buf b).wf s.cfg.cap = true → B.wf s.cfg.cap = true)) := by
      rw [bufLoad, whenIdleOwner_on hown]
      cases hl : BitBuffer.load s.cfg.cap seq with
      | none => exact .inl ⟨_, rfl, nofun⟩
      | some B => exact .inr ⟨hown, B, _, rfl, nofun, fun _ => BitBuffer.load_wf hl⟩
    have clear : s.own b ≠ .run ∧ ∃ B r, bufClear b s = .next ((s.withBuf b B).respond r) ∧ (∀ k, r ≠ .error k) ∧
        ((s.buf b).wf s.cfg.cap = true → B.wf s.cfg.cap = true) :=
      ⟨hown, .empty, .done, by rw [bufClear, whenIdleOwner_on hown]; rfl, nofun, fun _ => BitBuffer.empty_wf _⟩
    have pack : ∃ r, bufPack b s = .next (s.respond r) ∧ r ≠ .error .widthMismatch :=
      ⟨.bytes (s.buf b).pack, by rw [bufPack, whenIdleOwner_on hown], nofun⟩
    cases i <;> simp only [bufferOf, Option.some.injEq, reduceCtorEq] at hi <;> subst hi
    case ebClear | dbClear => exact .inr clear
    case ebWrite v n | dbWrite v n => exact write v n
    case ebRead n | dbRead n => exact read n
    case ebPack | dbPack => exact .inl pack
    case ebLoadBytes ys | dbLoadBytes ys => exact load (bitsOfBytes ys)
    case ebLoadBits seq | dbLoadBits seq => exact load seq

/-! ## Every instruction -/

/-- An instruction is a stream symbol, a Bit Buffer command, or one of the four commands of the units. -/
theorem instr_form (i : Instr) :
    isSymbol i = true ∨ (∃ b, bufferOf i = some b) ∨ (∃ W, i = .encStart W) ∨ (∃ x, i = .encPush x) ∨ i = .encFinish ∨
      ∃ W, i = .decStart W := by
  cases i <;> simp [isSymbol, symbolFields, bufferOf]

end Sys2Proof.Machine
end

