-- ==== Sys2Proof/Laws/PerInstr.lean ====
section
/-! SUPPORT. Per-instruction laws about the syntax: the encoding of each instruction has the length or the command code
that its row of spec/opcode_table.json gives. -/

namespace Sys2Proof.Laws.EncodedShape

/-- The `length` of a symbol's row, or the `match` of a command's row, of spec/opcode_table.json. -/
def row (W : LdWidth) : Instr → Nat
  | .raw8 _ => 8
  | .sdB0 _ => 6
  | .sdB1 _ => 7
  | .sdB2 _ => 8
  | .sdB3 _ => 9
  | .zr _ => 5
  | .ld _ _ => 3 + W.toNat
  | .term => 2
  | .ebClear => 0x00
  | .ebWrite _ _ => 0x01
  | .ebRead _ => 0x02
  | .ebPack => 0x03
  | .ebLoadBytes _ => 0x04
  | .ebLoadBits _ => 0x05
  | .dbClear => 0x08
  | .dbWrite _ _ => 0x09
  | .dbRead _ => 0x0A
  | .dbPack => 0x0B
  | .dbLoadBytes _ => 0x0C
  | .dbLoadBits _ => 0x0D
  | .encStart _ => 0x10
  | .encPush _ => 0x11
  | .encFinish => 0x12
  | .decStart _ => 0x18

/-- The row's number, read off an encoding: the length of a symbol, the code of a command. -/
def shape : Encoded → Nat
  | .stream bits => bits.length
  | .command p => p.cmd.toNat

def Statement (i : Instr) : Prop := ∀ W, shape (encode W i) = row W i

theorem raw8 (v : Sample) : Statement (.raw8 v) := fun _ => by simp [shape, encode, row]
theorem sdB0 (code : BitVec 2) : Statement (.sdB0 code) := fun _ => by simp [shape, encode, row]
theorem sdB1 (code : BitVec 3) : Statement (.sdB1 code) := fun _ => by simp [shape, encode, row]
theorem sdB2 (code : BitVec 4) : Statement (.sdB2 code) := fun _ => by simp [shape, encode, row]
theorem sdB3 (code : BitVec 5) : Statement (.sdB3 code) := fun _ => by simp [shape, encode, row]
theorem zr (n : BitVec 3) : Statement (.zr n) := fun _ => by simp [shape, encode, row]
theorem ld (sign : Bool) (m : BitVec 15) : Statement (.ld sign m) := fun W => by
  simp only [shape, encode, row, List.length_append, field_length]
theorem term : Statement .term := fun _ => by simp [shape, encode, row]
theorem ebClear : Statement .ebClear := fun _ => rfl
theorem ebWrite (value : FieldValue) (n : FieldWidth) : Statement (.ebWrite value n) := fun _ => rfl
theorem ebRead (n : FieldWidth) : Statement (.ebRead n) := fun _ => rfl
theorem ebPack : Statement .ebPack := fun _ => rfl
theorem ebLoadBytes (bytes : List Byte) : Statement (.ebLoadBytes bytes) := fun _ => rfl
theorem ebLoadBits (seq : List Bool) : Statement (.ebLoadBits seq) := fun _ => rfl
theorem dbClear : Statement .dbClear := fun _ => rfl
theorem dbWrite (value : FieldValue) (n : FieldWidth) : Statement (.dbWrite value n) := fun _ => rfl
theorem dbRead (n : FieldWidth) : Statement (.dbRead n) := fun _ => rfl
theorem dbPack : Statement .dbPack := fun _ => rfl
theorem dbLoadBytes (bytes : List Byte) : Statement (.dbLoadBytes bytes) := fun _ => rfl
theorem dbLoadBits (seq : List Bool) : Statement (.dbLoadBits seq) := fun _ => rfl
theorem encStart (W : LdWidth) : Statement (.encStart W) := fun _ => rfl
theorem encPush (x : Sample) : Statement (.encPush x) := fun _ => rfl
theorem encFinish : Statement .encFinish := fun _ => rfl
theorem decStart (W : LdWidth) : Statement (.decStart W) := fun _ => rfl

end Sys2Proof.Laws.EncodedShape
end

