-- ==== Sys2Proof/Tests/Slice0.lean ====
section
/-! SUPPORT. The model's own tests: expected results are those of spec/, cited at each test (TV is 95_test_vectors.md),
and for each statement with hypotheses a state and operands that meet them. -/

namespace Sys2Proof.Tests

open Sys2Proof.Machine

/-! ## Helpers -/

/-- The next state, where there is one. -/
def nextState : Result → Option State
  | .next s => some s
  | .fault _ => none
  | .refused _ => none

/-- A state with `ENC` in `RUN`. -/
def encAt (cap : Cap) (bits : List Bool) (prev : Sample) (run : BitVec 3) (haveFirst : Bool) (W : LdWidth) : State :=
  { State.reset with
    cfg := { cap := cap }, eb := { bits := bits, rp := 0 },
    enc := { prev := prev, run := run, haveFirst := haveFirst, W := W, mode := .run, err := .noError } }

/-- A state with `DEC` in `RUN`. -/
def decAt (bits : List Bool) (rp : Nat) (cur : Sample) (hdr : Bool) (out : List Sample) (W : LdWidth) : State :=
  { State.reset with
    db := { bits := bits, rp := rp },
    dec := { cur := cur, hdr := hdr, out := out, W := W, mode := .run, err := .noError } }

/-- A state with both units idle and one content in both buffers. -/
def bufAt (cap : Cap) (bits : List Bool) (rp : Nat) : State :=
  { State.reset with cfg := { cap := cap }, eb := { bits := bits, rp := rp }, db := { bits := bits, rp := rp } }

/-- The bits of a numeral, most significant first: `bits 8 0b00110111` is the stream `00110111`. -/
def bits (n v : Nat) : List Bool := field n v

/-- What a test looks at after an encoder command: `E.prev`, `E.run`, `E.mode`, `E.err`, and the content of `EB`. -/
def encView (r : Result) : Option (Nat × Nat × Mode × ErrCode × List Bool) :=
  (nextState r).map fun s => (s.enc.prev.toNat, s.enc.run.toNat, s.enc.mode, s.enc.err, s.eb.bits)

/-- What a test looks at after a decoder step: `pc`, `D.cur`, `D.out`, `D.mode`, `D.err`. -/
def decView (r : Result) : Option (Nat × Nat × List Nat × Mode × ErrCode) :=
  (nextState r).map fun s => (s.db.rp, s.dec.cur.toNat, s.dec.out.map BitVec.toNat, s.dec.mode, s.dec.err)

/-- What a test looks at after a buffer command: the response, and `EB`. -/
def ebView (r : Result) : Option (Response × List Bool × Nat) := (nextState r).map fun s => (s.resp, s.eb.bits, s.eb.rp)

def dbView (r : Result) : Option (Response × List Bool × Nat) := (nextState r).map fun s => (s.resp, s.db.bits, s.db.rp)

/-! ## Well-formedness: each check refuses an ill-formed term (R67, R92, R107) -/

theorem test_wf_eb_write_17 : (Instr.ebWrite 1 17).wf 8 = false := by decide
theorem test_wf_eb_read_17 : (Instr.ebRead 17).wf 8 = false := by decide
theorem test_wf_db_write_31 : (Instr.dbWrite 1 31).wf 8 = false := by decide
theorem test_wf_db_read_17 : (Instr.dbRead 17).wf 8 = false := by decide
theorem test_wf_ld_256_at_8 : (Instr.ld false 256).wf 8 = false := by decide
theorem test_wf_accepts : (Instr.ebWrite 1 16).wf 0 = true ∧ (Instr.ld true 255).wf 8 = true := by decide

/-! ## Decoding: words written out bit by bit from R91 and R106 -/

def symbolAt (hdr : Bool) (W : LdWidth) (b : List Bool) : Option (Instr × List Bool) :=
  match decodeSymbol hdr W b with
  | .ok r => some r
  | .error _ => none

def commandOf (p : Packet) : Option Instr :=
  match decodeCommand p with
  | .ok i => some i
  | .error _ => none

/-- `11001000` at the header position: `RAW 200` (TV 1.6). -/
theorem test_word_raw8 :
    symbolAt false 8 [true, true, false, false, true, false, false, false, true, true] =
      some (.raw8 200, [true, true]) := by decide
/-- `00 00 10`: code 2 of band 0, `SD +1` (TV 1.2). -/
theorem test_word_sdB0 : symbolAt true 8 [false, false, false, false, true, false] = some (.sdB0 2, []) := by decide
/-- `00 01 100`: code 4 of band 1, `SD +3` (TV 1.4). -/
theorem test_word_sdB1 : symbolAt true 8 [false, false, false, true, true, false, false] = some (.sdB1 4, []) := by decide
/-- `00 10 0111`: code 7 of band 2, `SD -7` (TV 2.3). -/
theorem test_word_sdB2 :
    symbolAt true 8 [false, false, true, false, false, true, true, true] = some (.sdB2 7, []) := by decide
/-- `00 11 00000`: code 0 of band 3, `SD -30` (TV 2.3). -/
theorem test_word_sdB3 :
    symbolAt true 8 [false, false, true, true, false, false, false, false, false] = some (.sdB3 0, []) := by decide
/-- `01 011`: field 3, `ZR 4` (TV 1.2). -/
theorem test_word_zr : symbolAt true 8 [false, true, false, true, true] = some (.zr 3, []) := by decide
/-- `10 1 00101011` at `W = 8`: `LD -43` (TV 1.2). -/
theorem test_word_ld8 :
    symbolAt true 8 [true, false, true, false, false, true, false, true, false, true, true] =
      some (.ld true 43, []) := by decide
/-- `10 0 0000000011111` at `W = 13`: `LD +31` (TV 1.4). -/
theorem test_word_ld13 :
    symbolAt true 13
        [true, false, false, false, false, false, false, false, false, false, false, true, true, true, true, true] =
      some (.ld false 31, []) := by decide
/-- `11`: the Terminator, the bits after it left. -/
theorem test_word_term : symbolAt true 8 [true, true, false] = some (.term, [false]) := by decide
/-- The twelve Bit Buffer codes of R106. -/
theorem test_codes_buffers :
    commandOf { cmd := 0b00000 } = some .ebClear ∧ commandOf { cmd := 0b01000 } = some .dbClear ∧
    commandOf { cmd := 0b00001, value := 5, n := 16 } = some (.ebWrite 5 16) ∧
    commandOf { cmd := 0b01001, value := 5, n := 3 } = some (.dbWrite 5 3) ∧
    commandOf { cmd := 0b00010, n := 16 } = some (.ebRead 16) ∧ commandOf { cmd := 0b01010, n := 0 } = some (.dbRead 0) ∧
    commandOf { cmd := 0b00011 } = some .ebPack ∧ commandOf { cmd := 0b01011 } = some .dbPack ∧
    commandOf { cmd := 0b00100, bytes := [1] } = some (.ebLoadBytes [1]) ∧
    commandOf { cmd := 0b01100, bytes := [1] } = some (.dbLoadBytes [1]) ∧
    commandOf { cmd := 0b00101, seq := [true] } = some (.ebLoadBits [true]) ∧
    commandOf { cmd := 0b01101, seq := [true] } = some (.dbLoadBits [true]) := by decide
/-- The four codes of the units of R106. -/
theorem test_codes_units :
    commandOf { cmd := 0b10000, W := 8 } = some (.encStart 8) ∧ commandOf { cmd := 0b10001, s := 55 } = some (.encPush 55) ∧
    commandOf { cmd := 0b10010 } = some .encFinish ∧ commandOf { cmd := 0b11000, W := 13 } = some (.decStart 13) := by decide
/-- Code 6 is not in the table, and width 17 is not enabled (R107). -/
theorem test_codes_refused :
    decodeCommand { cmd := 6 } = .error (.unknownCommand 6) ∧
    decodeCommand { cmd := 1, n := 17 } = .error (.widthNotEnabled 17) := ⟨rfl, rfl⟩
/-- Truncation leaves the field that is not there in full: `00 01 10` has its prefix and sub-prefix read (TV 2.6). -/
theorem test_truncated_band1 :
    decodeSymbol true 8 [false, false, false, true, true, false] = .error (.truncated 4) := rfl

/-! ## The Bit Buffer (TV 2.2) -/

theorem test_eb_write : ebView (exec (.ebWrite 0b101 3) (bufAt .unbounded (bits 8 0x2B) 0)) =
    some (.done, bits 11 0b00101011101, 0) := by decide
/-- Only the low 4 bits, `0101`, of `0x1F5` are appended. -/
theorem test_eb_write_low_bits : ebView (exec (.ebWrite 0x1F5 4) (bufAt .unbounded [] 0)) =
    some (.done, [false, true, false, true], 0) := by decide
theorem test_eb_read : ebView (exec (.ebRead 8) (bufAt .unbounded (bits 11 0b00101011101) 0)) =
    some (.value 0x2B, bits 11 0b00101011101, 8) := by decide
theorem test_eb_read_underflow : ebView (exec (.ebRead 2) (bufAt .unbounded (bits 11 0b00101011101) 10)) =
    some (.error .underflow, bits 11 0b00101011101, 10) := by decide
/-- The cursor does not matter, and the tail is padded with zeros. -/
theorem test_eb_pack : ebView (exec .ebPack (bufAt .unbounded (bits 15 0b001010111010101) 15)) =
    some (.bytes [0x2B, 0xAA], bits 15 0b001010111010101, 15) := by decide
theorem test_eb_clear : ebView (exec .ebClear (bufAt .unbounded (bits 3 5) 2)) = some (.done, [], 0) := by decide
theorem test_eb_loadBytes : ebView (exec (.ebLoadBytes [0xC8, 0xC0]) (bufAt .unbounded (bits 3 5) 2)) =
    some (.done, bits 16 0b1100100011000000, 0) := by decide
theorem test_eb_loadBits : ebView (exec (.ebLoadBits [true, false]) (bufAt .unbounded (bits 3 5) 2)) =
    some (.done, [true, false], 0) := by decide
theorem test_db_write_overflow : dbView (exec (.dbWrite 1 1) (bufAt (.finite 12) (bits 12 0xFFF) 0)) =
    some (.error .overflow, bits 12 0xFFF, 0) := by decide
theorem test_db_loadBytes_overflow : dbView (exec (.dbLoadBytes [0xC8, 0xC0]) (bufAt (.finite 12) [] 0)) =
    some (.error .overflow, [], 0) := by decide
/-- `WRITE(0xA, 4); WRITE(0x5, 4)`, then `READ(2)` = 2 and `READ(6)` = 37. -/
theorem test_db_read_mixed : dbView (exec (.dbRead 6) (bufAt .unbounded (bits 8 0xA5) 2)) =
    some (.value 37, bits 8 0xA5, 8) := by decide
theorem test_db_pack : dbView (exec .dbPack (bufAt .unbounded (bits 10 0b1100100011) 0)) =
    some (.bytes [0xC8, 0xC0], bits 10 0b1100100011, 0) := by decide
theorem test_db_clear : dbView (exec .dbClear (bufAt .unbounded (bits 3 5) 2)) = some (.done, [], 0) := by decide
theorem test_db_loadBits : dbView (exec (.dbLoadBits [true]) (bufAt .unbounded [] 0)) = some (.done, [true], 0) := by
  decide
/-- `DB` belongs to `DEC` while it is in `RUN` (R136). -/
theorem test_db_owned : dbView (exec .dbClear (decAt (bits 3 5) 0 0 false [] 8)) =
    some (.notAccepted, bits 3 5, 0) := by decide

/-! ## The encoder (TV 1.3, 1.4, 2.3, 2.5, 2.8, 2.9, P1) -/

theorem test_start : encView (exec (.encStart 8) (bufAt .unbounded (bits 3 5) 2)) =
    some (0, 0, .run, .noError, []) := by decide
theorem test_push_first : encView (exec (.encPush 55) (encAt .unbounded [] 9 0 false 8)) =
    some (55, 0, .run, .noError, bits 8 0b00110111) := by decide
/-- P3: push 9 of 7 finds `E.run = 7` and emits `ZR 8`. -/
theorem test_push_eighth_repeat : encView (exec (.encPush 7) (encAt .unbounded [] 7 7 true 8)) =
    some (7, 0, .run, .noError, bits 5 0b01111) := by decide
/-- P1: `PUSH 10` after four repeats of 53 emits `ZR 4; LD -43`. -/
theorem test_push_large_after_run : encView (exec (.encPush 10) (encAt .unbounded [] 53 4 true 8)) =
    some (10, 0, .run, .noError, bits 16 0b0101110100101011) := by decide
/-- The largest small delta and the smallest large one (TV 1.4). -/
theorem test_push_30 : encView (exec (.encPush 40) (encAt .unbounded [] 10 0 true 8)) =
    some (40, 0, .run, .noError, bits 9 0b001111111) := by decide
theorem test_push_31 : encView (exec (.encPush 41) (encAt .unbounded [] 10 0 true 13)) =
    some (41, 0, .run, .noError, bits 16 0b1000000000011111) := by decide
/-- TV 2.8: 0, 0, 0, 100 at `W = 6` flushes the run, then `OutOfRange`. -/
theorem test_push_outOfRange : encView (exec (.encPush 100) (encAt .unbounded [] 0 2 true 6)) =
    some (0, 0, .err, .outOfRange, bits 5 0b01001) := by decide
/-- TV 2.9: `CAP = 12`, the prefix and the sub-prefix of `SD +3` are left in `EB`. -/
theorem test_push_overflow : encView (exec (.encPush 13) (encAt (.finite 12) (bits 8 10) 10 0 true 8)) =
    some (10, 0, .err, .overflow, bits 12 0b000010100001) := by decide
theorem test_finish : encView (exec .encFinish (encAt .unbounded [] 11 3 true 8)) =
    some (11, 0, .done, .noError, bits 7 0b0101011) := by decide
theorem test_finish_empty : encView (exec .encFinish (encAt .unbounded [] 11 0 false 8)) =
    some (11, 0, .err, .emptyInput, []) := by decide

/-- TV 2.9: `CAP = 16`, `10, 13`: 15 bits are in `EB` and the Terminator does not fit. -/
theorem test_finish_overflow : encView (exec .encFinish (encAt (.finite 16) (bits 15 0b000010100001100) 13 0 true 8)) =
    some (13, 0, .err, .overflow, bits 15 0b000010100001100) := by decide

/-! ## The decoder (TV 2.4, 2.5, 2.6): one step at the symbol -/

theorem test_step_raw8 : decView (step (decAt (bits 10 0b0011011111) 0 9 false [] 8)) =
    some (8, 55, [55], .run, .noError) := by decide
theorem test_step_raw8_short : decView (step (decAt (bits 7 0b0011011) 0 9 false [] 8)) =
    some (0, 9, [], .err, .truncatedStream) := by decide
/-- 2 - 2 = 0, the edge. -/
theorem test_step_sdB0 : decView (step (decAt (bits 6 0) 0 2 true [2] 8)) = some (6, 0, [2, 0], .run, .noError) := by
  decide
theorem test_step_sdB0_below : decView (step (decAt (bits 6 0) 0 1 true [1] 8)) =
    some (6, 1, [1], .err, .sampleRange) := by decide
theorem test_step_sdB1 : decView (step (decAt (bits 7 0b0001100) 0 10 true [10] 8)) =
    some (7, 13, [10, 13], .run, .noError) := by decide
theorem test_step_sdB1_short : decView (step (decAt (bits 6 0b000110) 0 100 true [100] 8)) =
    some (4, 100, [100], .err, .truncatedStream) := by decide
theorem test_step_sdB2 : decView (step (decAt (bits 8 0b00100111) 0 243 true [243] 8)) =
    some (8, 236, [243, 236], .run, .noError) := by decide
theorem test_step_sdB3 : decView (step (decAt (bits 9 0b001111111) 0 225 true [225] 8)) =
    some (9, 255, [225, 255], .run, .noError) := by decide
theorem test_step_sdB3_above : decView (step (decAt (bits 9 0b001111111) 0 250 true [250] 8)) =
    some (9, 250, [250], .err, .sampleRange) := by decide
theorem test_step_zr : decView (step (decAt (bits 5 0b01010) 0 9 true [9] 8)) =
    some (5, 9, [9, 9, 9, 9], .run, .noError) := by decide
/-- `LD -0` is accepted (R101). -/
theorem test_step_ld_minus_zero : decView (step (decAt (bits 11 0b10100000000) 0 100 true [100] 8)) =
    some (11, 100, [100, 100], .run, .noError) := by decide
/-- At `W = 0` a Large-Delta has no magnitude bits (TV 2.5). -/
theorem test_step_ld_width_0 : decView (step (decAt (bits 3 0b101) 0 9 true [9] 0)) =
    some (3, 9, [9, 9], .run, .noError) := by decide
theorem test_step_term : decView (step (decAt (bits 8 0b11010101) 0 55 true [55] 8)) =
    some (2, 55, [55], .done, .noError) := by decide
theorem test_decStart : decView (exec (.decStart 13) (decAt (bits 4 5) 3 55 true [55] 8)) =
    some (3, 55, [], .run, .noError) := by decide

/-! ## Words of the opcode table (log entry 11), run as the first instruction after reset -/

theorem test_table_words :
    decodeTableWord 8 0x18 = some (.decStart 0) ∧ decodeTableWord 8 0x2F = some (.sdB2 15) ∧
    decodeTableWord 16 0x7F = some (.sdB3 31) ∧ decodeTableWord 16 0x42B = some (.ld false 43) ∧
    decodeTableWord 16 0xA02B = some (.ld true 43) ∧ decodeTableWord 8 0xC8 = some (.raw8 200) ∧
    decodeTableWord 8 0x0F = some (.zr 7) ∧ decodeTableWord 2 3 = some .term := by decide
theorem test_fetch_word_raw8 : decView (step (State.reset.withFetchWord 8 0xC8)) =
    some (8, 200, [200], .run, .noError) := by decide
theorem test_fetch_word_sdB2 : decView (step (State.reset.withFetchWord 8 0x2F)) =
    some (8, 14, [14], .run, .noError) := by decide
theorem test_fetch_word_encStart : encView (step (State.reset.withFetchWord 8 0x10)) =
    some (0, 0, .run, .noError, []) := by decide

/-! ## Witnesses: states and operands that meet the hypotheses of each statement, clause by clause at the boundaries -/

theorem witness_ResetGivesTheResetTable : ∃ (s t : State) (rest : List Input),
    s.inbox = .reset :: rest ∧ step s = .next t :=
  ⟨{ encAt .unbounded (bits 8 10) 10 3 true 8 with inbox := [.reset] }, _, [], rfl, rfl⟩

/-- A state of each unit in `RUN` meets the invariant, and steps. -/
theorem witness_StepKeepsTheInvariant :
    ((encAt (.finite 8) (bits 8 10) 10 7 true 8).Inv ∧ ∃ t, step (encAt (.finite 8) (bits 8 10) 10 7 true 8) = .next t) ∧
    ((decAt (bits 14 0) 8 0 true [0] 8).Inv ∧ ∃ t, step (decAt (bits 14 0) 8 0 true [0] 8) = .next t) := by
  refine ⟨⟨?_, _, rfl⟩, ⟨?_, _, rfl⟩⟩ <;> constructor <;> decide

theorem witness_StepRunsTheDecodedInstruction :
    (∃ (s : State) (p : Packet) (rest : List Input) (i : Instr), s.inbox = .cmd p :: rest ∧ decodeCommand p = .ok i) ∧
    (∃ (s : State) (i : Instr) (after : List Bool), s.inbox = [] ∧ s.dec.mode = .run ∧
      decodeSymbol s.dec.hdr s.dec.W s.db.unread = .ok (i, after)) ∧
    (∃ (s : State) (i : Instr) (after : List Bool) (rest : List Input), s.inbox = .decTurn :: rest ∧
      s.dec.mode = .run ∧ decodeSymbol s.dec.hdr s.dec.W s.db.unread = .ok (i, after)) :=
  ⟨⟨{ State.reset with inbox := [.cmd { cmd := 24, W := 8 }] }, _, [], _, rfl, rfl⟩,
   ⟨decAt (bits 8 200) 0 0 false [] 8, _, _, rfl, rfl, rfl⟩,
   ⟨{ decAt (bits 2 3) 0 0 true [0] 8 with inbox := [.decTurn] }, _, _, [], rfl, rfl, rfl⟩⟩

theorem witness_DecodeOfEncodeIsTheInstruction :
    ((Instr.ld true 255).wf 8 = true ∧ ∃ read, encode 8 (.ld true 255) = .stream read) ∧
    ((Instr.ebWrite 0xFFFF 16).wf 0 = true ∧ ∃ p, encode 0 (.ebWrite 0xFFFF 16) = .command p) :=
  ⟨⟨by decide, _, rfl⟩, ⟨by decide, _, rfl⟩⟩

theorem witness_EncodeOfDecodeIsTheBits : ∃ read rest i, decodeSymbol true 15 read = .ok (i, rest) :=
  ⟨bits 18 0b100111111111111111, _, _, rfl⟩

theorem witness_NoEncodingIsReserved :
    (3 + (15 : LdWidth).toNat ≤ (bits 18 0).length ∧ 9 ≤ (bits 18 0).length) ∧
    (3 + (0 : LdWidth).toNat ≤ (bits 9 0).length ∧ 9 ≤ (bits 9 0).length) ∧
    (∃ k, decodeCall 8 (bits 7 0) = .error k) ∧ (∃ k, decodeCall 8 (bits 14 0) = .error k) :=
  ⟨by decide, by decide, ⟨_, rfl⟩, ⟨_, rfl⟩⟩

theorem witness_UnusedCommandsAreNotAccepted :
    ∀ p ∈ ([{ cmd := 6 }, { cmd := 15 }, { cmd := 19 }, { cmd := 23 }, { cmd := 25 }, { cmd := 31 },
        { cmd := 1, n := 17 }, { cmd := 10, n := 31 }] : List Packet),
      ({ State.reset with inbox := [.cmd p] } : State).inbox = .cmd p :: [] ∧
      (p.cmd.toNat ∈ [0b00110, 0b00111, 0b01110, 0b01111] ∨
       p.cmd.toNat ∈ [0b10011, 0b10100, 0b10101, 0b10110, 0b10111] ∨
       p.cmd.toNat ∈ [0b11001, 0b11010, 0b11011, 0b11100, 0b11101, 0b11110, 0b11111] ∨
       (p.cmd.toNat ∈ [0b00001, 0b00010, 0b01001, 0b01010] ∧ 17 ≤ p.n.toNat)) := by decide

theorem witness_BandSelectorPicksTheCoveringBand : (1 : Nat) ≤ 30 ∧ band 2 = 0 ∧ band 3 = 1 ∧ band 30 = 3 := by decide

theorem witness_BandCodesAreABijection :
    (∀ k : Band, (bandLo k ≤ (-(bandHi k : Int)).natAbs ∧ (-(bandHi k : Int)).natAbs ≤ bandHi k)) ∧
    (∀ k : Band, (bandLo k ≤ (bandLo k : Int).natAbs ∧ (bandLo k : Int).natAbs ≤ bandHi k)) ∧
    (∀ k : Band, 2 ^ (k.val + 2) - 1 < 2 ^ (k.val + 2)) := by decide

theorem witness_ClearEmptiesTheBuffer :
    (∃ p : Packet, p.cmd = BufId.db.unit ++ (0b000 : BitVec 3)) ∧ (decAt [] 0 0 false [] 8).own .eb ≠ .run ∧
    (encAt .unbounded [] 0 0 false 8).own .db ≠ .run :=
  ⟨⟨{ cmd := 8 }, rfl⟩, by decide, by decide⟩

/-- Room for exactly 16 bits, room for one bit too few, and a width of 0 at a full buffer. -/
theorem witness_WriteAppendsTheField :
    (∃ p : Packet, p.cmd = BufId.eb.unit ++ (0b001 : BitVec 3) ∧ p.n.toNat ≤ 16) ∧
    ∀ b : BufId,
      ((bufAt (.finite 16) [] 0).own b ≠ .run ∧ (16 : FieldWidth).toNat ≤ 16 ∧
        (bufAt (.finite 16) [] 0).cfg.cap.allows (((bufAt (.finite 16) [] 0).buf b).wp + (16 : FieldWidth).toNat) = true) ∧
      ((bufAt (.finite 15) [] 0).own b ≠ .run ∧
        (bufAt (.finite 15) [] 0).cfg.cap.allows (((bufAt (.finite 15) [] 0).buf b).wp + (16 : FieldWidth).toNat) =
          false) ∧
      Memory.wf (bufAt (.finite 3) (bits 3 5) 3) = true :=
  ⟨⟨{ cmd := 1, n := 16 }, by decide⟩, fun b => by cases b <;> decide⟩

theorem witness_ReadReturnsTheNextBits :
    (∃ p : Packet, p.cmd = BufId.db.unit ++ (0b010 : BitVec 3) ∧ p.n.toNat ≤ 16) ∧
    ∀ b : BufId, (bufAt .unbounded (bits 16 9) 0).own b ≠ .run ∧
      (16 : FieldWidth).toNat ≤ ((bufAt .unbounded (bits 16 9) 0).buf b).avail ∧
      ((bufAt .unbounded (bits 16 9) 1).buf b).avail < (16 : FieldWidth).toNat :=
  ⟨⟨{ cmd := 10, n := 16 }, by decide⟩, fun b => by cases b <;> decide⟩

theorem witness_PackReturnsTheByteImage :
    (∃ p : Packet, p.cmd = BufId.eb.unit ++ (0b011 : BitVec 3)) ∧ ∀ b : BufId, (bufAt .unbounded (bits 9 1) 9).own b ≠ .run :=
  ⟨⟨{ cmd := 3 }, rfl⟩, fun b => by cases b <;> decide⟩

theorem witness_LoadBytesReplacesTheContent :
    (∃ p : Packet, p.cmd = BufId.db.unit ++ (0b100 : BitVec 3)) ∧
    ∀ b : BufId, (bufAt (.finite 8) [] 0).own b ≠ .run ∧
      (bufAt (.finite 8) [] 0).cfg.cap.allows (8 * [(200 : Byte)].length) = true ∧
      (bufAt (.finite 8) [] 0).cfg.cap.allows (8 * [(200 : Byte), 1].length) = false :=
  ⟨⟨{ cmd := 12 }, rfl⟩, fun b => by cases b <;> decide⟩

theorem witness_LoadBitsReplacesTheContent :
    (∃ p : Packet, p.cmd = BufId.eb.unit ++ (0b101 : BitVec 3)) ∧
    ∀ b : BufId, (bufAt (.finite 2) [] 0).own b ≠ .run ∧
      (bufAt (.finite 2) [] 0).cfg.cap.allows [true, false].length = true ∧
      (bufAt (.finite 2) [] 0).cfg.cap.allows [true, false, true].length = false :=
  ⟨⟨{ cmd := 5 }, rfl⟩, fun b => by cases b <;> decide⟩

theorem witness_OwnerInRunKeepsItsBuffer :
    (bufferOf (.ebRead 16) = some .eb ∧ (encAt .unbounded [] 0 0 false 8).own .eb = .run) ∧
    (bufferOf (.dbRead 16) = some .db ∧ State.reset.own .db ≠ .run ∧ (Instr.dbRead 16).wf 0 = true) := by decide

theorem witness_FailedBufferCommandChangesNothing : ∃ t, bufferOf (.ebRead 1) = some .eb ∧
    exec (.ebRead 1) State.reset = .next t ∧ t.resp = .error .underflow :=
  ⟨_, rfl, rfl, rfl⟩

theorem witness_WriteThenReadReturnsTheValue : ∀ b : BufId,
    (bufAt (.finite 19) (bits 3 5) 3).own b ≠ .run ∧ Memory.wf (bufAt (.finite 19) (bits 3 5) 3) = true ∧
    ((bufAt (.finite 19) (bits 3 5) 3).buf b).avail = 0 ∧
    (bufAt (.finite 19) (bits 3 5) 3).cfg.cap.allows
      (((bufAt (.finite 19) (bits 3 5) 3).buf b).wp + (16 : FieldWidth).toNat) = true := fun b => by cases b <;> decide

theorem witness_AdjacentFieldsAreOneField :
    (∃ t, State.reset.own .eb ≠ .run ∧ (16 : FieldWidth).toNat = (9 : FieldWidth).toNat + (7 : FieldWidth).toNat ∧
      (0xFFFF : FieldValue).toNat = ((0x1FF : FieldValue).toNat % 2 ^ (9 : FieldWidth).toNat) * 2 ^ (7 : FieldWidth).toNat +
        (0x7F : FieldValue).toNat % 2 ^ (7 : FieldWidth).toNat ∧
      State.reset.cfg.cap.allows ((State.reset.buf .eb).wp + (16 : FieldWidth).toNat) = true ∧
      execAll [BufId.eb.writeField 0x1FF 9, BufId.eb.writeField 0x7F 7] State.reset = .next t) ∧
    ((bufAt .unbounded (bits 16 9) 0).own .db ≠ .run ∧
      (16 : FieldWidth).toNat ≤ ((bufAt .unbounded (bits 16 9) 0).buf .db).avail) :=
  ⟨⟨_, by decide, by decide, by decide, by decide, rfl⟩, by decide⟩

theorem witness_PackAndLoadInvertEachOther : ∃ t, State.reset.own .eb ≠ .run ∧
    State.reset.cfg.cap.allows (8 * [(200 : Byte)].length) = true ∧
    execAll [BufId.eb.loadBytes [200], BufId.eb.packBytes] State.reset = .next t :=
  ⟨_, by decide, by decide, rfl⟩

theorem witness_EncStartBeginsACall : ∃ p : Packet, p.cmd = 0b10000 := ⟨{ cmd := 16 }, rfl⟩

theorem witness_FirstPushStoresTheRawSample :
    (encAt (.finite 8) [] 0 0 false 8).enc.mode = .run ∧ (encAt (.finite 8) [] 0 0 false 8).enc.haveFirst = false ∧
    (encAt (.finite 8) [] 0 0 false 8).cfg.cap.allows ((encAt (.finite 8) [] 0 0 false 8).eb.wp + 8) = true ∧
    (encAt (.finite 7) [] 0 0 false 8).cfg.cap.allows ((encAt (.finite 7) [] 0 0 false 8).eb.wp + 8) = false := by decide

theorem witness_RepeatedSampleCountsOrEmitsARun :
    ((encAt .unbounded (bits 8 5) 5 6 true 8).enc.haveFirst = true ∧ (5 : Sample) = (encAt .unbounded (bits 8 5) 5 6 true 8).enc.prev ∧
      (encAt .unbounded (bits 8 5) 5 6 true 8).enc.run ≠ 7) ∧
    ((encAt (.finite 13) (bits 8 5) 5 7 true 8).enc.run = 7 ∧
      (encAt (.finite 13) (bits 8 5) 5 7 true 8).cfg.cap.allows ((encAt (.finite 13) (bits 8 5) 5 7 true 8).eb.wp + 5) =
        true) := by decide

/-- `CAP` is exactly the 8 + 5 + 9 bits that a pending run and `SD -30` need. -/
theorem witness_SmallDeltaPushEmitsItsSymbol :
    ∃ (d : Int) (k : Band) (c : Nat) (out : List Bool),
      (encAt (.finite 22) (bits 8 30) 30 3 true 8).enc.mode = .run ∧
      d = ((0 : Sample).toNat : Int) - (encAt (.finite 22) (bits 8 30) 30 3 true 8).enc.prev.toNat ∧ d ≠ 0 ∧
      bandLo k ≤ d.natAbs ∧ d.natAbs ≤ bandHi k ∧ (c : Int) = (if d < 0 then d + bandHi k else d + 1) ∧
      out = pendingRun 3 ++ field 2 0b00 ++ field 2 k.val ++ field (k.val + 2) c ∧
      (encAt (.finite 22) (bits 8 30) 30 3 true 8).cfg.cap.allows
        ((encAt (.finite 22) (bits 8 30) 30 3 true 8).eb.wp + out.length) = true :=
  ⟨-30, 3, 0, _, by decide, by decide, by decide, by decide, by decide, by decide, rfl, by decide⟩

theorem witness_LargeDeltaPushEmitsItsSymbol :
    ∃ (d : Int) (out : List Bool), (encAt (.finite 24) (bits 8 0) 0 2 true 5).enc.mode = .run ∧
      d = ((31 : Sample).toNat : Int) - (encAt (.finite 24) (bits 8 0) 0 2 true 5).enc.prev.toNat ∧ 30 < d.natAbs ∧
      d.natAbs < 2 ^ (encAt (.finite 24) (bits 8 0) 0 2 true 5).enc.W.toNat ∧
      out = pendingRun 2 ++ field 2 0b10 ++ [decide (d < 0)] ++ field 5 d.natAbs ∧
      (encAt (.finite 24) (bits 8 0) 0 2 true 5).cfg.cap.allows
        ((encAt (.finite 24) (bits 8 0) 0 2 true 5).eb.wp + out.length) = true :=
  ⟨31, _, by decide, by decide, by decide, by decide, rfl, by decide⟩

theorem witness_OutOfRangeIsRaisedBeforeTheSymbol :
    ((64 : Int) = ((64 : Sample).toNat : Int) - (encAt (.finite 13) (bits 8 0) 0 2 true 6).enc.prev.toNat ∧
      30 < (64 : Int).natAbs ∧ 2 ^ (encAt (.finite 13) (bits 8 0) 0 2 true 6).enc.W.toNat ≤ (64 : Int).natAbs ∧
      (encAt (.finite 13) (bits 8 0) 0 2 true 6).cfg.cap.allows
        ((encAt (.finite 13) (bits 8 0) 0 2 true 6).eb.wp + (pendingRun 2).length) = true) ∧
    ((encAt (.finite 12) (bits 8 0) 0 2 true 6).enc.run ≠ 0 ∧
      (encAt (.finite 12) (bits 8 0) 0 2 true 6).cfg.cap.allows ((encAt (.finite 12) (bits 8 0) 0 2 true 6).eb.wp + 5) =
        false) ∧
    (∃ (s t : State), s.enc.mode = .run ∧ 8 ≤ s.enc.W.toNat ∧ exec (.encPush 255) s = .next t ∧
      t.enc.err = .outOfRange) :=
  ⟨by decide, by decide,
   ⟨{ encAt .unbounded [] 0 0 true 8 with
      enc := { prev := 0, run := 0, haveFirst := true, W := 8, mode := .run, err := .outOfRange } }, _,
    rfl, by decide, rfl, rfl⟩⟩

/-- One bit too few for each form: a Small-Delta with the run field lost, with the prefix lost after a flush, with the code
lost; a Large-Delta with the magnitude lost; one out of range with the run lost; the eighth repeat; the Terminator. -/
theorem witness_OverflowKeepsTheFieldsBeforeIt :
    (∃ after, (13 : Int) - 10 ≠ 0 ∧ bandLo 1 ≤ (3 : Int).natAbs ∧ (3 : Int).natAbs ≤ bandHi 1 ∧
      ((4 : Nat) : Int) = (if (3 : Int) < 0 then (3 : Int) + bandHi 1 else (3 : Int) + 1) ∧
      pendingFields (encAt (.finite 12) (bits 8 10) 10 2 true 8).enc.run ++ [field 2 0b00, field 2 1, field 3 4] =
        [field 2 0b01] ++ field 3 1 :: after ∧
      Cap.allows (.finite 12) (8 + [field 2 0b01].flatten.length) = true ∧
      Cap.allows (.finite 12) (8 + [field 2 0b01].flatten.length + (field 3 1).length) = false) ∧
    (∃ after, pendingFields 2 ++ [field 2 0b00, field 2 1, field 3 4] =
        pendingFields 2 ++ field 2 0b00 :: after ∧
      Cap.allows (.finite 14) (8 + (pendingFields 2).flatten.length) = true ∧
      Cap.allows (.finite 14) (8 + (pendingFields 2).flatten.length + (field 2 0b00).length) = false) ∧
    (∃ after, pendingFields 0 ++ [field 2 0b00, field 2 1, field 3 4] =
        [field 2 0b00, field 2 1] ++ field 3 4 :: after ∧
      Cap.allows (.finite 14) (8 + [field 2 0b00, field 2 1].flatten.length) = true ∧
      Cap.allows (.finite 14) (8 + [field 2 0b00, field 2 1].flatten.length + (field 3 4).length) = false) ∧
    (∃ after, (-31 : Int) = ((0 : Sample).toNat : Int) - (encAt (.finite 15) (bits 8 31) 31 0 true 5).enc.prev.toNat ∧
      30 < (-31 : Int).natAbs ∧ (-31 : Int).natAbs < 2 ^ (encAt (.finite 15) (bits 8 31) 31 0 true 5).enc.W.toNat ∧
      pendingFields 0 ++ [field 2 0b10, [true], field 5 31] = [field 2 0b10, [true]] ++ field 5 31 :: after ∧
      Cap.allows (.finite 15) (8 + [field 2 0b10, [true]].flatten.length) = true ∧
      Cap.allows (.finite 15) (8 + [field 2 0b10, [true]].flatten.length + (field 5 31).length) = false) ∧
    (∃ after, (64 : Int) = ((64 : Sample).toNat : Int) - (encAt (.finite 9) (bits 8 0) 0 7 true 6).enc.prev.toNat ∧
      30 < (64 : Int).natAbs ∧ 2 ^ (encAt (.finite 9) (bits 8 0) 0 7 true 6).enc.W.toNat ≤ (64 : Int).natAbs ∧
      pendingFields 7 ++ [] = [] ++ field 2 0b01 :: after ∧ Cap.allows (.finite 9) (8 + 0 + (field 2 0b01).length) = false) ∧
    (∃ after, (encAt (.finite 12) (bits 8 5) 5 7 true 8).enc.run = 7 ∧
      [field 2 0b01, field 3 7] ++ [] = [field 2 0b01] ++ field 3 7 :: after ∧
      Cap.allows (.finite 12) (8 + [field 2 0b01].flatten.length) = true ∧
      Cap.allows (.finite 12) (8 + [field 2 0b01].flatten.length + (field 3 7).length) = false) ∧
    (∃ after, pendingFields 0 ++ [field 2 0b11] = [] ++ field 2 0b11 :: after ∧
      Cap.allows (.finite 9) (8 + 0 + (field 2 0b11).length) = false) :=
  ⟨⟨_, by decide, by decide, by decide, by decide, rfl, by decide, by decide⟩, ⟨_, rfl, by decide, by decide⟩,
   ⟨_, rfl, by decide, by decide⟩, ⟨_, by decide, by decide, by decide, rfl, by decide, by decide⟩,
   ⟨_, by decide, by decide, by decide, rfl, by decide⟩, ⟨_, rfl, rfl, by decide, by decide⟩, ⟨_, rfl, by decide⟩⟩

theorem witness_FinishEndsTheCall :
    (∃ p : Packet, p.cmd = 0b10010) ∧ (encAt .unbounded [] 0 0 false 8).enc.haveFirst = false ∧
    (encAt (.finite 15) (bits 8 5) 5 7 true 8).enc.haveFirst = true ∧
    (encAt (.finite 15) (bits 8 5) 5 7 true 8).cfg.cap.allows
      ((encAt (.finite 15) (bits 8 5) 5 7 true 8).eb.wp + (pendingRun 7).length + 2) = true :=
  ⟨⟨{ cmd := 18 }, rfl⟩, by decide, by decide, by decide⟩

theorem witness_PushAndFinishNeedRun : State.reset.enc.mode ≠ .run := by decide

theorem witness_EncoderOnlyAppendsToEb :
    (∃ t, exec .encFinish (encAt .unbounded (bits 8 5) 5 7 true 8) = .next t) ∧
    (∃ t, exec (.encPush 64) (encAt .unbounded (bits 8 0) 0 2 true 6) = .next t) := ⟨⟨_, rfl⟩, ⟨_, rfl⟩⟩

theorem witness_EncodeCommandsEqualTheBatchEncoder : (bufAt (.finite 28) [] 0).cfg.cap.allows (10 + 18 * [(5 : Sample)].length) = true := by
  decide

theorem witness_EncodeCallForgetsThePast : ∃ t t', State.reset.cfg = (encAt .unbounded (bits 3 5) 9 2 true 3).cfg ∧
    execAll (encodeCommands 8 [10, 13]) State.reset = .next t ∧
    execAll (encodeCommands 8 [10, 13]) (encAt .unbounded (bits 3 5) 9 2 true 3) = .next t' ∧ t.enc.haveFirst = true :=
  ⟨_, _, rfl, rfl, rfl, rfl⟩

/-- At `W = 6` a delta of 63 is representable and one of 64 is not. -/
theorem representable_63 : Representable 6 [0, 63] := by
  intro j a b ha hb _
  match j with
  | 0 =>
    cases ha
    cases hb
    decide
  | j + 1 => simp at hb

theorem not_representable_64 : ¬Representable 6 [0, 64] := fun h => absurd (h 0 0 64 rfl rfl (by decide)) (by decide)

theorem witness_EncodedStreamsAreFramed :
    (∃ out, encodeCall 6 [0, 63] = .ok out) ∧ ([(0 : Sample), 63] ≠ [] ∧ Representable 6 [0, 63]) ∧
    ([(0 : Sample), 64] ≠ [] ∧ ¬Representable 6 [0, 64]) ∧ 8 ≤ (8 : LdWidth).toNat ∧ [(5 : Sample)] ≠ [] :=
  ⟨⟨_, rfl⟩, ⟨by decide, representable_63⟩, ⟨by decide, not_representable_64⟩, by decide, by decide⟩

theorem witness_CanonicalStreamLengthBounds : ∃ out, encodeCall 6 [0, 63] = .ok out ∧ 6 ≤ (6 : LdWidth).toNat :=
  ⟨_, rfl, by decide⟩

theorem witness_DecStartBeginsACall : ∃ p : Packet, p.cmd = 0b11000 := ⟨{ cmd := 24 }, rfl⟩

theorem witness_RawHeaderIsTheFirstSample :
    (decAt (bits 8 200) 0 0 false [] 8).dec.mode = .run ∧ (decAt (bits 8 200) 0 0 false [] 8).dec.hdr = false ∧
    8 ≤ (decAt (bits 8 200) 0 0 false [] 8).db.avail ∧ (decAt (bits 7 0) 0 0 false [] 8).db.avail < 8 := by decide

theorem witness_SmallDeltaSymbolMovesTheValue :
    smallSymbol (.sdB3 31) = some (3, 31) ∧ (decAt (bits 9 127) 0 225 true [225] 8).dec.hdr = true ∧
    6 + (3 : Band).val ≤ (decAt (bits 9 127) 0 225 true [225] 8).db.avail ∧
    (30 : Int) = (if 31 < 2 ^ ((3 : Band).val + 1) then (31 : Int) - bandHi 3 else (31 : Int) - 1) ∧
    ((255 : Sample).toNat : Int) = (decAt (bits 9 127) 0 225 true [225] 8).dec.cur.toNat + (30 : Int) := by decide

theorem witness_ZeroRunRepeatsTheValue : (decAt (bits 5 15) 0 7 true [7] 8).dec.mode = .run ∧
    (decAt (bits 5 15) 0 7 true [7] 8).dec.hdr = true ∧ 5 ≤ (decAt (bits 5 15) 0 7 true [7] 8).db.avail := by decide

theorem witness_LargeDeltaSymbolMovesTheValue :
    (decAt (bits 3 5) 0 9 true [9] 0).dec.hdr = true ∧
    3 + (decAt (bits 3 5) 0 9 true [9] 0).dec.W.toNat ≤ (decAt (bits 3 5) 0 9 true [9] 0).db.avail ∧
    ((9 : Sample).toNat : Int) = (decAt (bits 3 5) 0 9 true [9] 0).dec.cur.toNat +
      (if true then -((0 : BitVec 15).toNat : Int) else (0 : BitVec 15).toNat) := by decide

theorem witness_TerminatorEndsTheCall : (decAt (bits 2 3) 0 7 true [7] 8).dec.mode = .run ∧
    (decAt (bits 2 3) 0 7 true [7] 8).dec.hdr = true ∧ 2 ≤ (decAt (bits 2 3) 0 7 true [7] 8).db.avail := by decide

/-- 250 + 30 is above 255, 1 - 2 is below 0, and a magnitude of 256. -/
theorem witness_SampleRangeLeavesTheOutput :
    (smallSymbol (.sdB3 31) = some (3, 31) ∧
      (symbolFields 8 (.sdB3 31)).sum ≤ (decAt (bits 9 127) 0 250 true [250] 8).db.avail ∧
      255 < ((decAt (bits 9 127) 0 250 true [250] 8).dec.cur.toNat : Int) + rev 31 3) ∧
    (smallSymbol (.sdB0 0) = some (0, 0) ∧
      (symbolFields 8 (.sdB0 0)).sum ≤ (decAt (bits 6 0) 0 1 true [1] 8).db.avail ∧
      ((decAt (bits 6 0) 0 1 true [1] 8).dec.cur.toNat : Int) + rev 0 0 < 0) ∧
    (symbolFields 13 (.ld false 256)).sum ≤ (decAt (bits 16 0x8100) 0 0 true [0] 13).db.avail ∧
    255 < ((decAt (bits 16 0x8100) 0 0 true [0] 13).dec.cur.toNat : Int) + signedMagnitude false 256 ∧ 255 < 256 := by
  decide

/-- Each of the seven places where a stream can end inside a symbol, one bit short. -/
theorem witness_TruncatedStreamStopsTheCall :
    (decAt (bits 7 0) 0 0 false [] 8).db.unread.length < 8 ∧ (decAt (bits 1 1) 0 0 true [0] 8).db.unread.length < 2 ∧
    (∃ r, (decAt (bits 3 0) 0 0 true [0] 8).db.unread = field 2 0b00 ++ r ∧ r.length < 2) ∧
    (∃ k r, k < 4 ∧ (decAt (bits 8 0b00111111) 0 0 true [0] 8).db.unread = field 2 0b00 ++ field 2 k ++ r ∧
      r.length < k + 2) ∧
    (∃ r, (decAt (bits 4 0b0111) 0 0 true [0] 8).db.unread = field 2 0b01 ++ r ∧ r.length < 3) ∧
    (decAt (bits 2 0b10) 0 0 true [0] 8).db.unread = field 2 0b10 ∧
    (∃ b r, (decAt (bits 10 0b1011111111) 0 0 true [0] 8).db.unread = field 2 0b10 ++ b :: r ∧
      r.length < (decAt (bits 10 0b1011111111) 0 0 true [0] 8).dec.W.toNat) :=
  ⟨by decide, by decide, ⟨[false], by decide⟩, ⟨3, bits 4 15, by decide⟩, ⟨bits 2 3, by decide⟩, by decide,
   ⟨true, bits 7 127, by decide⟩⟩

theorem witness_DecoderOutsideRunDoesNothing :
    (isSymbol .term = true ∧ State.reset.dec.mode ≠ .run) ∧
    (isSymbol (.raw8 5) = true ∧ (decAt (bits 8 5) 0 5 true [5] 8).dec.hdr ≠ (Instr.raw8 5).atHdr) ∧
    State.reset.inbox = [] ∧ ∃ rest, ({ State.reset with inbox := [.decTurn] } : State).inbox = .decTurn :: rest :=
  ⟨by decide, by decide, rfl, [], rfl⟩

theorem witness_DecodeCallNeverWritesItsStream :
    (∃ t, (decAt (bits 2 3) 0 7 true [7] 8).dec.mode = .run ∧
      (∀ rest, (decAt (bits 2 3) 0 7 true [7] 8).inbox ≠ .reset :: rest) ∧ step (decAt (bits 2 3) 0 7 true [7] 8) = .next t) ∧
    (∃ t, (∀ rest, ({ decAt (bits 2 3) 0 7 true [7] 8 with inbox := [.cmd { cmd := 8 }] } : State).inbox ≠ .reset :: rest) ∧
      step { decAt (bits 2 3) 0 7 true [7] 8 with inbox := [.cmd { cmd := 8 }] } = .next t) :=
  ⟨⟨_, rfl, nofun, rfl⟩, ⟨_, nofun, rfl⟩⟩

/-- The shortest symbol that does not end the call, a Large-Delta at `W = 0`. -/
theorem witness_EachDecoderStepAdvances : ∃ t, (decAt (bits 3 5) 0 9 true [9] 0).inbox = [] ∧
    (decAt (bits 3 5) 0 9 true [9] 0).dec.mode = .run ∧ step (decAt (bits 3 5) 0 9 true [9] 0) = .next t ∧
    t.dec.mode = .run :=
  ⟨_, rfl, rfl, rfl, rfl⟩

theorem witness_EveryDecodeCallEnds : ∃ t, (bufAt .unbounded (bits 10 0b1100100011) 0).inbox = [] ∧
    exec (.decStart 8) (bufAt .unbounded (bits 10 0b1100100011) 0) = .next t ∧
    2 + (bufAt .unbounded (bits 10 0b1100100011) 0).db.avail / 3 ≤ 5 :=
  ⟨_, rfl, rfl, by decide⟩

/-- A stream with an output and one with an error. -/
theorem witness_DecoderStepsEqualTheBatchDecoder :
    (∃ t, exec (.decStart 8) (bufAt .unbounded (bits 10 0b1100100011) 0) = .next t) ∧
    (∃ out, decodeCall 8 (bits 10 0b1100100011) = .ok out) ∧ (∃ k, decodeCall 8 (bits 8 200) = .error k) ∧
    2 + (bufAt .unbounded (bits 10 0b1100100011) 0).db.avail / 3 ≤ 5 :=
  ⟨⟨_, rfl⟩, ⟨_, rfl⟩, ⟨_, rfl⟩, by decide⟩

theorem witness_RoundTripOfTheCodec :
    (∃ out, encodeCall 8 [55, 53, 53, 10] = .ok out) ∧ ([(0 : Sample), 63] ≠ [] ∧ Representable 6 [0, 63]) :=
  ⟨⟨_, rfl⟩, by decide, representable_63⟩

theorem witness_RoundTripThroughTheMachine : ∃ (a b c : State) (ys : List Byte),
    State.reset.cfg.cap = .unbounded ∧ State.reset.inbox = [] ∧ State.reset.dec.mode ≠ .run ∧
    execAll (encodeCommands 8 [200]) State.reset = .next a ∧ a.enc.mode = .done ∧ exec .ebPack a = .next b ∧
    b.resp = .bytes ys ∧ execAll [.dbLoadBytes ys, .decStart 8] b = .next c :=
  ⟨_, _, _, _, rfl, rfl, by decide, rfl, rfl, rfl, rfl, rfl⟩

theorem witness_PaddingAfterTheTerminatorIsIgnored : ∃ out, decodeCall 8 (bits 10 0b1100100011) = .ok out := ⟨_, rfl⟩

theorem witness_TheTwoSidesCommute : ∃ t, exec (.encStart 8) State.reset = .next t ∧ encodeSide (.encStart 8) = true ∧
    encodeSide (.decStart 8) = false :=
  ⟨_, rfl, rfl, rfl⟩

theorem witness_OnlyStartWakesAQuiescentUnit : ∃ t, exec (.encPush 5) State.reset = .next t ∧
    State.reset.enc.mode ≠ .run ∧ State.reset.dec.mode ≠ .run ∧ (∀ W, Instr.encPush 5 ≠ .encStart W) ∧
    ∀ W, Instr.encPush 5 ≠ .decStart W :=
  ⟨_, rfl, by decide, by decide, nofun, nofun⟩

theorem witness_ModesFollowTheTable : ∃ t, exec .term (decAt (bits 2 3) 0 7 true [7] 8) = .next t := ⟨_, rfl⟩

theorem witness_ErrorRegistersAreSticky : ∃ t, exec .encFinish (encAt .unbounded [] 0 0 false 8) = .next t := ⟨_, rfl⟩

theorem witness_WidthMismatchIsNeverReported : ∃ t, step (decAt (bits 9 127) 0 250 true [250] 8) = .next t ∧
    (decAt (bits 9 127) 0 250 true [250] 8).enc.err.code ≠ 5 ∧ (decAt (bits 9 127) 0 250 true [250] 8).dec.err.code ≠ 5 ∧
    (decAt (bits 9 127) 0 250 true [250] 8).resp ≠ .error .widthMismatch :=
  ⟨_, rfl, by decide, by decide, by decide⟩

end Sys2Proof.Tests
end

/-! # Proofs: the scope of CORE (00_scope.md)

Which commands are accepted, and that every step answers a next state. -/

namespace Sys2Proof.Machine

/-! ## The Bit Buffer commands as one operation of a buffer -/

/-- A command of a buffer is one of six operations, whichever of the two buffers it is issued to (R130 to R135). -/
theorem bufferCommand_form {i : Instr} {b : BufId} (hi : bufferOf i = some b) :
    i = b.clear ∨ (∃ v n, i = b.writeField v n) ∨ (∃ n, i = b.readField n) ∨ i = b.packBytes ∨
      (∃ ys, i = b.loadBytes ys) ∨ ∃ seq, i = b.loadBits seq := by
  cases i <;> simp only [bufferOf, Option.some.injEq, reduceCtorEq] at hi <;> subst hi <;>
    simp [BufId.clear, BufId.writeField, BufId.readField, BufId.packBytes, BufId.loadBytes, BufId.loadBits]

@[simp] theorem wf_writeField {W : LdWidth} {b : BufId} {v : FieldValue} {n : FieldWidth} :
    (b.writeField v n).wf W = true ↔ n.toNat ≤ fw := by
  cases b <;> simp [BufId.writeField, Instr.wf]

@[simp] theorem wf_readField {W : LdWidth} {b : BufId} {n : FieldWidth} :
    (b.readField n).wf W = true ↔ n.toNat ≤ fw := by
  cases b <;> simp [BufId.readField, Instr.wf]

theorem bufClear_on {b : BufId} {s : State} (h : s.own b ≠ .run) :
    bufClear b s = .next ((s.withBuf b .empty).respond .done) := whenIdleOwner_on h

theorem bufPack_on {b : BufId} {s : State} (h : s.own b ≠ .run) :
    bufPack b s = .next (s.respond (.bytes (s.buf b).pack)) := whenIdleOwner_on h

theorem bufLoad_on {b : BufId} {seq : List Bool} {s : State} (h : s.own b ≠ .run) :
    bufLoad b seq s = endBufferCommand b .overflow s (BitBuffer.load s.cfg.cap seq) := whenIdleOwner_on h

/-- While the owner is in `RUN`, a buffer command is not accepted (R136). -/
theorem exec_buffer_off {i : Instr} {b : BufId} {s : State} (hi : bufferOf i = some b) (h : s.own b = .run) :
    exec i s = .next (s.respond .notAccepted) := by
  rcases bufferCommand_form hi with rfl | ⟨v, n, rfl⟩ | ⟨n, rfl⟩ | rfl | ⟨ys, rfl⟩ | ⟨seq, rfl⟩
  · exact (exec_clear b s).trans (whenIdleOwner_off h)
  · exact (exec_writeField b v n s).trans (whenIdleOwner_off h)
  · exact (exec_readField b n s).trans (whenIdleOwner_off h)
  · exact (exec_packBytes b s).trans (whenIdleOwner_off h)
  · exact (exec_loadBytes b ys s).trans (whenIdleOwner_off h)
  · exact (exec_loadBits b seq s).trans (whenIdleOwner_off h)

/-! ## Accepted commands -/

/-- A command answers a next state, and its response is not that it was turned away (log entry 5). -/
def Accepted (r : Result) : Prop := ∃ t, r = .next t ∧ t.resp ≠ .notAccepted

theorem Accepted.respond {s : State} {r : Response} (hr : r ≠ .notAccepted) : Accepted (.next (s.respond r)) :=
  ⟨_, rfl, hr⟩

/-- A buffer command that came to its end was accepted, also where it reached a `raise` (R137). -/
theorem accepted_endBufferCommand (b : BufId) (k : ErrCode) (s : State) (B : Option BitBuffer) :
    Accepted (endBufferCommand b k s B) := by
  cases B with
  | none => exact Accepted.respond nofun
  | some B => exact Accepted.respond nofun

theorem accepted_bufRead {b : BufId} {n : FieldWidth} {s : State} (h : s.own b ≠ .run) (hn : n.toNat ≤ fw) :
    Accepted (bufRead b n s) := by
  rcases Nat.lt_or_ge (s.buf b).avail n.toNat with hshort | henough
  · rw [bufRead_short h hn hshort]
    exact Accepted.respond nofun
  · rw [bufRead_enough h hn henough]
    exact Accepted.respond nofun

/-- With the owner not in `RUN`, a buffer command of a width that can be enabled is accepted (R107, R136). -/
theorem accepted_buffer {i : Instr} {b : BufId} {s : State} {W : LdWidth} (hi : bufferOf i = some b)
    (h : s.own b ≠ .run) (hwf : i.wf W = true) : Accepted (exec i s) := by
  rcases bufferCommand_form hi with rfl | ⟨v, n, rfl⟩ | ⟨n, rfl⟩ | rfl | ⟨ys, rfl⟩ | ⟨seq, rfl⟩
  · rw [exec_clear, bufClear_on h]
    exact Accepted.respond nofun
  · rw [exec_writeField, bufWrite_on h (wf_writeField.mp hwf)]
    exact accepted_endBufferCommand ..
  · rw [exec_readField]
    exact accepted_bufRead h (wf_readField.mp hwf)
  · rw [exec_packBytes, bufPack_on h]
    exact Accepted.respond nofun
  · rw [exec_loadBytes, bufLoad_on h]
    exact accepted_endBufferCommand ..
  · rw [exec_loadBits, bufLoad_on h]
    exact accepted_endBufferCommand ..

/-- Settles O20, from what each buffer command answers in `RUN` and outside it. -/
theorem ownerInRunKeepsItsBuffer : Obligations.OwnerInRunKeepsItsBuffer := fun _ _ _ hi =>
  ⟨exec_buffer_off hi, accepted_buffer hi⟩

/-! ## Every step answers a next state -/

/-- No instruction faults and none is refused (R10, R137, R221). -/
theorem exec_next (i : Instr) (s : State) : ∃ t, exec i s = .next t := by
  rcases instr_form i with hi | ⟨b, hi⟩ | ⟨W, rfl⟩ | ⟨x, rfl⟩ | rfl | ⟨W, rfl⟩
  · rcases exec_symbol_outcome hi s with ⟨-, hsame⟩ | ⟨-, f, hf, -⟩
    · exact ⟨s, hsame⟩
    · rw [hf]
      exact f.endStep_next
  · rcases exec_buffer_outcome hi s with ⟨r, hr, -⟩ | ⟨-, B, r, hr, -⟩
    · exact ⟨_, hr⟩
    · exact ⟨_, hr⟩
  · exact ⟨_, rfl⟩
  · by_cases hm : s.enc.mode = .run
    · rw [exec_push_on hm]
      exact (pushBody x s).endCommand_next
    · exact ⟨_, exec_push_off hm⟩
  · by_cases hm : s.enc.mode = .run
    · rw [exec_finish_on hm]
      exact (finishBody s).endCommand_next
    · exact ⟨_, exec_finish_off hm⟩
  · exact ⟨_, rfl⟩

theorem step_of_run {s t : State} {i : Instr} (h : fetch s = .run i t) : step s = exec i t := by
  rw [step, h]

theorem step_of_settle {s t : State} (h : fetch s = .settle t) : step s = .next t := by
  rw [step, h]

/-- Settles O4: a move of `fetch` is settled, or runs an instruction, which answers a next state. -/
theorem machineNeverStops : Obligations.MachineNeverStops := fun s => by
  cases hmove : fetch s with
  | run i t =>
    rw [step_of_run hmove]
    exact exec_next i t
  | settle t => exact ⟨t, step_of_settle hmove⟩

/-! ## Commands that are not enabled -/

/-- A packet that selects no command uses up its inbox entry and is not accepted (R107; log entry 5). -/
theorem step_of_undecodable {s : State} {p : Packet} {rest : List Input} {e : DecodeError}
    (hin : s.inbox = .cmd p :: rest) (he : decodeCommand p = .error e) :
    step s = .next ((s.withInbox rest).respond .notAccepted) := by
  apply step_of_settle
  simp only [fetch, hin, fetchCommand, he]

/-- The codes that the table of R106 leaves out (R107). -/
theorem decodeCommand_unused {p : Packet}
    (h : p.cmd.toNat ∈ [0b00110, 0b00111, 0b01110, 0b01111] ∨
      p.cmd.toNat ∈ [0b10011, 0b10100, 0b10101, 0b10110, 0b10111] ∨
      p.cmd.toNat ∈ [0b11001, 0b11010, 0b11011, 0b11100, 0b11101, 0b11110, 0b11111]) :
    decodeCommand p = .error (.unknownCommand p.cmd) := by
  simp only [List.mem_cons, List.not_mem_nil, or_false, or_assoc] at h
  rcases h with h | h | h | h | h | h | h | h | h | h | h | h | h | h | h | h <;> simp only [decodeCommand, h]

theorem withWidth_of_gt {n : FieldWidth} {i : Instr} (h : fw < n.toNat) :
    withWidth n i = .error (.widthNotEnabled n) := if_neg (by omega)

/-- A `WRITE` or a `READ` of more than `FW` bits (R107). -/
theorem decodeCommand_wide {p : Packet} (hcmd : p.cmd.toNat ∈ [0b00001, 0b00010, 0b01001, 0b01010])
    (hn : 17 ≤ p.n.toNat) : decodeCommand p = .error (.widthNotEnabled p.n) := by
  have hwide (i : Instr) : withWidth p.n i = .error (.widthNotEnabled p.n) := withWidth_of_gt hn
  simp only [List.mem_cons, List.not_mem_nil, or_false] at hcmd
  rcases hcmd with h | h | h | h <;> simp only [decodeCommand, h, hwide]

/-- Settles O10: the decoder of commands rejects each of these packets. -/
theorem unusedCommandsAreNotAccepted : Obligations.UnusedCommandsAreNotAccepted := by
  intro s p rest hin hbad
  rcases hbad with h | h | h | ⟨hcmd, hn⟩
  · exact step_of_undecodable hin (decodeCommand_unused (.inl h))
  · exact step_of_undecodable hin (decodeCommand_unused (.inr (.inl h)))
  · exact step_of_undecodable hin (decodeCommand_unused (.inr (.inr h)))
  · exact step_of_undecodable hin (decodeCommand_wide hcmd hn)

/-- Settles O33: both commands are gated on `E.mode`. -/
theorem pushAndFinishNeedRun : Obligations.PushAndFinishNeedRun := fun _ _ hm =>
  ⟨exec_push_off hm, exec_finish_off hm⟩

end Sys2Proof.Machine

/-! # Proofs: the state (10_state.md)

The status lines, what one instruction and one move of the machine can do to the state, and what follows for the whole
machine: the invariant, the modes, the error registers, and that the encode side and the decode side do not meet. -/

namespace Sys2Proof.Machine

/-! ## Status lines -/

/-- Settles O60, mode by mode. -/
theorem exactlyOneStatusLineHolds : Obligations.ExactlyOneStatusLineHolds := fun m => by
  cases m <;> decide

/-! ## What one instruction can do -/

/-- Every outcome of `exec i s`, over both units and both buffers (R29, R130 to R137, R150 to R164, R180 to R192,
R221). -/
inductive Effect (i : Instr) (s : State) : State → Prop
  /-- A symbol that is not the decoder's next one (R93, R181). -/
  | unchanged : isSymbol i = true → ¬(s.dec.mode = .run ∧ s.dec.hdr = i.atHdr) → Effect i s s
  /-- A command that only answers, such as one that is not accepted, a `PACK`, or a failed buffer command (R137). -/
  | answered (r : Response) : isSymbol i = false → Effect i s (s.respond r)
  /-- A buffer command that replaces its buffer (R130 to R135). -/
  | buffer (b : BufId) (B : BitBuffer) (r : Response) : bufferOf i = some b → s.own b ≠ .run →
      ((s.buf b).wf s.cfg.cap = true → B.wf s.cfg.cap = true) → Effect i s ((s.withBuf b B).respond r)
  /-- `ENC.START` (R150). -/
  | encStarted (W : LdWidth) : i = .encStart W →
      Effect i s (((s.withBuf .eb .empty).withEnc ⟨s.enc.prev, 0, false, W, .run, .noError⟩).respond .done)
  /-- `ENC.PUSH` that completes (R151). -/
  | pushed (x p : Sample) (bits : List Bool) (r : BitVec 3) : i = .encPush x → s.enc.mode = .run → Fits bits s →
      (s.enc.haveFirst = false → bits.length = 8) → Effect i s ((encoded bits p r .run s).respond .done)
  /-- `ENC.FINISH` that completes (R162). -/
  | finished (bits : List Bool) : i = .encFinish → s.enc.mode = .run → Fits bits s →
      Effect i s ((encoded bits s.enc.prev 0 .done s).respond .done)
  /-- `ENC.PUSH` or `ENC.FINISH` that reaches a `raise` (R221). -/
  | encRaised (k : ErrCode) (bits : List Bool) (r : BitVec 3) : (i = .encFinish ∨ ∃ x, i = .encPush x) →
      s.enc.mode = .run → Fits bits s → k ∈ [ErrCode.emptyInput, .outOfRange, .overflow] →
      Effect i s ((errorEntry .enc k (encodedUntil bits r s)).respond (.error k))
  /-- `DEC.START` (R180). -/
  | decStarted (W : LdWidth) : i = .decStart W →
      Effect i s ((s.withDec ⟨s.dec.cur, false, [], W, .run, .noError⟩).respond .done)
  /-- A sample symbol that completes (R182 to R189). -/
  | sampled (n : Nat) (samples : List Sample) (cur : Sample) : isSymbol i = true → s.dec.mode = .run →
      n ≤ s.db.avail → samples.getLast? = some cur → Effect i s (decoded n samples cur .run s)
  /-- `TERM` that completes (R190). -/
  | terminated (n : Nat) : i = .term → s.dec.mode = .run → s.dec.hdr = true → n ≤ s.db.avail →
      Effect i s (decoded n [] s.dec.cur .done s)
  /-- A symbol whose execution reaches a `raise` (R192, R221). -/
  | symbolRaised (k : ErrCode) (n : Nat) : isSymbol i = true → s.dec.mode = .run → n ≤ s.db.avail →
      (k = .truncatedStream ∨ k = .sampleRange) → Effect i s (errorEntry .dec k (advance n s))

theorem effect_symbol {i : Instr} {s t : State} (hi : isSymbol i = true) (h : exec i s = .next t) : Effect i s t := by
  rcases exec_symbol_outcome hi s with ⟨hoff, hsame⟩ | ⟨⟨hm, hh⟩, f, hf, hdone | hraise⟩
  · cases hsame.symm.trans h
    exact .unchanged hi hoff
  · obtain ⟨hn, samples, cur, m, rfl, ⟨rfl, rfl, rfl, rfl⟩ | ⟨-, rfl, hlast, -⟩⟩ := hdone
    · cases hf.symm.trans h
      exact .terminated _ rfl hm hh hn
    · cases hf.symm.trans h
      exact .sampled _ samples cur hi hm hn hlast
  · obtain ⟨n, k, hn, hk, rfl⟩ := hraise
    cases hf.symm.trans h
    exact .symbolRaised k n hi hm hn hk

theorem isSymbol_of_buffer {i : Instr} {b : BufId} (hi : bufferOf i = some b) : isSymbol i = false := by
  cases i <;> simp [bufferOf, isSymbol, symbolFields] at hi ⊢

theorem effect_buffer {i : Instr} {b : BufId} {s t : State} (hi : bufferOf i = some b) (h : exec i s = .next t) :
    Effect i s t := by
  rcases exec_buffer_outcome hi s with ⟨r, hr, -⟩ | ⟨hown, B, r, hr, -, hwf⟩
  · cases hr.symm.trans h
    exact .answered r (isSymbol_of_buffer hi)
  · cases hr.symm.trans h
    exact .buffer b B r hi hown hwf

theorem effect_encRaised {i : Instr} {f : Flow} {k : ErrCode} {s t : State} (hi : i = .encFinish ∨ ∃ x, i = .encPush x)
    (hm : s.enc.mode = .run) (hk : k ∈ [ErrCode.emptyInput, .outOfRange, .overflow]) (hraise : RaisedAt f k s)
    (h : f.endCommand = .next t) : Effect i s t := by
  obtain ⟨bits, r, rfl, hfit⟩ := hraise
  cases h
  exact .encRaised k bits r hi hm hfit hk

theorem effect_push {x : Sample} {s t : State} (h : exec (.encPush x) s = .next t) : Effect (.encPush x) s t := by
  by_cases hm : s.enc.mode = .run
  · rw [exec_push_on hm] at h
    rcases pushBody_outcome x s with ⟨bits, p, r, hok, hfit, hfirst⟩ | hraise | ⟨-, -, hraise⟩
    · rw [hok, hm] at h
      cases h
      exact .pushed x p bits r rfl hm hfit fun hh => by simp [(hfirst hh).1]
    · exact effect_encRaised (.inr ⟨x, rfl⟩) hm (by decide) hraise h
    · exact effect_encRaised (.inr ⟨x, rfl⟩) hm (by decide) hraise h
  · cases (exec_push_off hm).symm.trans h
    exact .answered _ rfl

theorem effect_finish {s t : State} (h : exec .encFinish s = .next t) : Effect .encFinish s t := by
  by_cases hm : s.enc.mode = .run
  · rw [exec_finish_on hm] at h
    rcases finishBody_outcome s with ⟨bits, hok, hfit, -⟩ | hraise | ⟨-, hempty⟩
    · rw [hok] at h
      cases h
      exact .finished bits rfl hm hfit
    · exact effect_encRaised (.inl rfl) hm (by decide) hraise h
    · have hraise : RaisedAt (finishBody s) .emptyInput s :=
        ⟨[], s.enc.run, by rw [hempty, encodedUntil_eq, appendEb_nil], .inl rfl⟩
      exact effect_encRaised (.inl rfl) hm (by decide) hraise h
  · cases (exec_finish_off hm).symm.trans h
    exact .answered _ rfl

/-- An instruction that answers a next state has one of the effects. -/
theorem effect_of_exec {i : Instr} {s t : State} (h : exec i s = .next t) : Effect i s t := by
  rcases instr_form i with hi | ⟨b, hi⟩ | ⟨W, rfl⟩ | ⟨x, rfl⟩ | rfl | ⟨W, rfl⟩
  · exact effect_symbol hi h
  · exact effect_buffer hi h
  · cases h
    exact .encStarted W rfl
  · exact effect_push h
  · exact effect_finish h
  · cases h
    exact .decStarted W rfl

/-- Settles O56, effect by effect: outside `RUN` only `START` writes a unit's registers. -/
theorem onlyStartWakesAQuiescentUnit : Obligations.OnlyStartWakesAQuiescentUnit := by
  intro i s t h
  refine ⟨fun hm hi => ?_, fun hm hi => ?_⟩
  · cases effect_of_exec h with
    | encStarted W hW => exact absurd hW (hi W)
    | pushed _ _ _ _ _ hrun | finished _ _ hrun | encRaised _ _ _ _ hrun => exact absurd hrun hm
    | buffer => simp
    | _ => rfl
  · cases effect_of_exec h with
    | decStarted W hW => exact absurd hW (hi W)
    | sampled _ _ _ _ hrun | terminated _ _ hrun | symbolRaised _ _ _ hrun => exact absurd hrun hm
    | buffer => simp
    | _ => rfl

/-- Settles O57, effect by effect. -/
theorem modesFollowTheTable : Obligations.ModesFollowTheTable := by
  intro i s t h
  constructor
  · cases effect_of_exec h with
    | encStarted W hW => exact .inr (.inl ⟨W, hW, rfl⟩)
    | finished _ hi hrun => exact .inr (.inr (.inl ⟨hrun, hi, rfl⟩))
    | encRaised _ _ _ hi hrun => exact .inr (.inr (.inr ⟨hrun, hi, rfl⟩))
    | pushed _ _ _ _ _ hrun => exact .inl hrun.symm
    | buffer => exact .inl (by simp)
    | _ => exact .inl rfl
  · cases effect_of_exec h with
    | decStarted W hW => exact .inr (.inl ⟨W, hW, rfl⟩)
    | terminated _ hi hrun => exact .inr (.inr (.inl ⟨hrun, hi, rfl⟩))
    | symbolRaised _ _ hi hrun => exact .inr (.inr (.inr ⟨hrun, hi, rfl⟩))
    | sampled _ _ _ _ hrun => exact .inl hrun.symm
    | buffer => exact .inl (by simp)
    | _ => exact .inl rfl

theorem encCode_ne_noError {k : ErrCode} (h : k ∈ [ErrCode.emptyInput, .outOfRange, .overflow]) : k ≠ .noError := by
  rintro rfl
  simp at h

theorem decCode_ne_noError {k : ErrCode} (h : k = .truncatedStream ∨ k = .sampleRange) : k ≠ .noError := by
  rintro rfl
  simp at h

/-- Settles O58, effect by effect: only `START` and the error entry write an error register. -/
theorem errorRegistersAreSticky : Obligations.ErrorRegistersAreSticky := by
  intro i s t h
  constructor
  · cases effect_of_exec h with
    | encStarted W hW => exact .inr (.inl ⟨⟨W, hW⟩, rfl⟩)
    | encRaised _ _ _ _ hrun _ hk => exact .inr (.inr ⟨hrun, rfl, encCode_ne_noError hk⟩)
    | buffer => exact .inl (by simp)
    | _ => exact .inl rfl
  · cases effect_of_exec h with
    | decStarted W hW => exact .inr (.inl ⟨⟨W, hW⟩, rfl⟩)
    | symbolRaised _ _ _ hrun _ hk => exact .inr (.inr ⟨hrun, rfl, decCode_ne_noError hk⟩)
    | buffer => exact .inl (by simp)
    | _ => exact .inl rfl

end Sys2Proof.Machine

namespace Sys2Proof.Machine

/-! ## What one move can do -/

/-- Everything a decoder's turn can be (R181, R192). -/
theorem fetchSymbol_cases (s : State) :
    (∃ i, fetchSymbol s = .run i s) ∨ fetchSymbol s = .settle s ∨
    (s.dec.mode = .run ∧ ∃ n, n ≤ s.db.avail ∧
      fetchSymbol s = .settle (errorEntry .dec .truncatedStream (advance n s))) := by
  unfold fetchSymbol
  split
  · rename_i hm
    split
    · exact .inl ⟨_, rfl⟩
    · rename_i n htrunc
      have hn : n ≤ s.db.unread.length := decodeSymbol_truncated_le htrunc
      exact .inr (.inr ⟨hm, n, by simpa using hn, rfl⟩)
    · exact .inr (.inl rfl)
  · exact .inr (.inl rfl)

/-- With nothing in the inbox, or `decTurn` at its head, the next move is the decoder's turn (R181, R252). -/
theorem fetch_turn {s : State} (h : s.inbox = [] ∨ ∃ rest, s.inbox = .decTurn :: rest) :
    fetch s = fetchSymbol (s.withInbox s.inbox.tail) := by
  obtain hin | ⟨rest, hin⟩ := h
  · have hself : s.withInbox [] = s := by rw [← hin]; rfl
    simp only [fetch, hin, List.tail_nil, hself]
  · simp only [fetch, hin, List.tail_cons]

/-- Everything the next move can be, the head of the inbox taken: an instruction, the same state, a command that is not
accepted, the reset input, or a symbol that is cut short (R27, R107, R181, R192, R240). -/
theorem fetch_cases (s : State) : ∃ l,
    (∃ i, fetch s = .run i (s.withInbox l)) ∨
    fetch s = .settle (s.withInbox l) ∨
    fetch s = .settle ((s.withInbox l).respond .notAccepted) ∨
    fetch s = .settle (resetInput (s.withInbox l)) ∨
    (s.dec.mode = .run ∧ ∃ n, n ≤ s.db.avail ∧
      fetch s = .settle (errorEntry .dec .truncatedStream (advance n (s.withInbox l)))) := by
  have turn (h : s.inbox = [] ∨ ∃ rest, s.inbox = .decTurn :: rest) := fetch_turn h ▸ fetchSymbol_cases _
  cases hin : s.inbox with
  | nil => exact ⟨_, (turn (.inl hin)).imp_right (.imp_right (.inr ∘ .inr))⟩
  | cons a rest =>
    cases a with
    | cmd p =>
      cases hp : decodeCommand p with
      | ok i => exact ⟨rest, .inl ⟨i, by simp only [fetch, hin, fetchCommand, hp]⟩⟩
      | error e => exact ⟨rest, .inr (.inr (.inl (by simp only [fetch, hin, fetchCommand, hp])))⟩
    | reset => exact ⟨rest, .inr (.inr (.inr (.inl (by simp only [fetch, hin]))))⟩
    | decTurn => exact ⟨_, (turn (.inr ⟨rest, hin⟩)).imp_right (.imp_right (.inr ∘ .inr))⟩

/-- A property that the reset input, a response, the taking of an input, a cut symbol and every effect of an instruction
keep is kept by every step. -/
theorem step_keeps {P : State → Prop} (inbox : ∀ s l, P s → P (s.withInbox l)) (respond : ∀ s r, P s → P (s.respond r))
    (reset : ∀ s, P s → P (resetInput s))
    (cut : ∀ s n, P s → n ≤ s.db.avail → P (errorEntry .dec .truncatedStream (advance n s)))
    (effect : ∀ i s t, P s → Effect i s t → P t) {s t : State} (hs : P s) (h : step s = .next t) : P t := by
  obtain ⟨l, ⟨i, hf⟩ | hf | hf | hf | ⟨-, n, hn, hf⟩⟩ := fetch_cases s
  · exact effect i _ t (inbox s l hs) (effect_of_exec ((step_of_run hf).symm.trans h))
  all_goals cases (step_of_settle hf).symm.trans h
  · exact inbox s l hs
  · exact respond _ _ (inbox s l hs)
  · exact reset _ (inbox s l hs)
  · exact cut _ n (inbox s l hs) hn

/-- Settles O5: the fetch of the step finds the command or the symbol. -/
theorem stepRunsTheDecodedInstruction : Obligations.StepRunsTheDecodedInstruction := by
  refine ⟨fun s p rest i hin hi => step_of_run ?_, fun s i after hturn hm hi => step_of_run ?_⟩
  · simp only [fetch, hin, fetchCommand, hi]
  · rw [fetch_turn hturn, fetchSymbol, if_pos (by exact hm)]
    simp only [State.withInbox_dec, State.withInbox_db, hi]

theorem fetchSymbol_of_not_run {s : State} (h : s.dec.mode ≠ .run) : fetchSymbol s = .settle s := if_neg h

/-- Settles O47: a symbol that is not the decoder's next one changes nothing, and outside `RUN` nothing is fetched. -/
theorem decoderOutsideRunDoesNothing : Obligations.DecoderOutsideRunDoesNothing := by
  refine ⟨fun i s hi hoff => ?_, fun s hm => ⟨fun hin => ?_, fun rest hin => ?_⟩⟩
  · rcases exec_symbol_outcome hi s with ⟨-, hsame⟩ | ⟨⟨hm, hh⟩, -⟩
    · exact hsame
    · exact absurd hh (hoff.resolve_left (not_not_intro hm))
  · exact step_of_settle (by simp only [fetch, hin, fetchSymbol_of_not_run hm])
  · exact step_of_settle (by simp only [fetch, hin]; exact fetchSymbol_of_not_run hm)

theorem step_of_reset {s : State} {rest : List Input} (hin : s.inbox = .reset :: rest) :
    step s = .next (resetInput (s.withInbox rest)) := step_of_settle (by simp only [fetch, hin])

/-- Settles O1: the reset input leaves the values of `State.reset`. -/
theorem resetGivesTheResetTable : Obligations.ResetGivesTheResetTable := by
  rintro t (rfl | ⟨s, rest, hin, h⟩)
  · decide
  · cases (step_of_reset hin).symm.trans h
    exact ⟨rfl, rfl, rfl, rfl, rfl, rfl, rfl, rfl, rfl, rfl, rfl, rfl⟩

/-! ## The invariant, side by side

`State.Inv` speaks of the two sides separately, but for the canonical form of the buffers and `CAP`. -/

/-- The clauses of `State.Inv` about `ENC` and the content of `EB`. -/
structure EncInv (B : BitBuffer) (e : Encoder) : Prop where
  err : e.err = .noError ↔ e.mode ≠ .err
  code : e.err ∈ [ErrCode.noError, .emptyInput, .outOfRange, .overflow]
  cursor : e.mode = .run → B.rp = 0
  fresh : e.mode = .run → e.haveFirst = false → B.bits = [] ∧ e.run = 0
  head : e.mode = .run → e.haveFirst = true → 8 ≤ B.wp
  done : e.mode = .done → e.haveFirst = true ∧ e.run = 0

/-- The clauses of `State.Inv` about `DEC`. -/
structure DecInv (d : Decoder) : Prop where
  err : d.err = .noError ↔ d.mode ≠ .err
  code : d.err ∈ [ErrCode.noError, .truncatedStream, .sampleRange]
  out : d.hdr = false ↔ d.out = []
  cur : d.hdr = true → d.out.getLast? = some d.cur
  done : d.mode = .done → d.hdr = true

theorem inv_iff {s : State} :
    s.Inv ↔ Memory.wf s = true ∧ s.cfg.cap ≠ .finite 0 ∧ EncInv s.eb s.enc ∧ DecInv s.dec :=
  ⟨fun ⟨mem, cap, eErr, eCode, dErr, dCode, cursor, fresh, head, eDone, out, cur, dDone⟩ =>
    ⟨mem, cap, ⟨eErr, eCode, cursor, fresh, head, eDone⟩, ⟨dErr, dCode, out, cur, dDone⟩⟩,
   fun ⟨mem, cap, ⟨eErr, eCode, cursor, fresh, head, eDone⟩, ⟨dErr, dCode, out, cur, dDone⟩⟩ =>
    ⟨mem, cap, eErr, eCode, dErr, dCode, cursor, fresh, head, eDone, out, cur, dDone⟩⟩

/-- Outside `RUN` the host may replace the content of `EB`. -/
theorem EncInv.replace {B : BitBuffer} {e : Encoder} (h : EncInv B e) (hm : e.mode ≠ .run) (C : BitBuffer) :
    EncInv C e where
  err := h.err
  code := h.code
  cursor := fun hrun => absurd hrun hm
  fresh := fun hrun => absurd hrun hm
  head := fun hrun => absurd hrun hm
  done := h.done

theorem EncInv.start (p : Sample) (W : LdWidth) : EncInv .empty ⟨p, 0, false, W, .run, .noError⟩ where
  err := by simp
  code := by simp
  cursor := fun _ => rfl
  fresh := fun _ _ => ⟨rfl, rfl⟩
  head := nofun
  done := nofun

theorem EncInv.push {B : BitBuffer} {e : Encoder} (h : EncInv B e) (hm : e.mode = .run) {bits : List Bool}
    (hfirst : e.haveFirst = false → bits.length = 8) (p : Sample) (r : BitVec 3) :
    EncInv { B with bits := B.bits ++ bits } ⟨p, r, true, e.W, .run, e.err⟩ where
  err := by simpa [hm] using h.err
  code := h.code
  cursor := fun _ => h.cursor hm
  fresh := nofun
  head := fun _ _ => by
    simp only [BitBuffer.wp_mk, List.length_append]
    cases hh : e.haveFirst with
    | false => have := hfirst hh; omega
    | true => have : 8 ≤ B.bits.length := h.head hm hh; omega
  done := nofun

theorem EncInv.finish {B C : BitBuffer} {e : Encoder} (h : EncInv B e) (hm : e.mode = .run) (p : Sample) :
    EncInv C ⟨p, 0, true, e.W, .done, e.err⟩ where
  err := by simpa [hm] using h.err
  code := h.code
  cursor := nofun
  fresh := nofun
  head := nofun
  done := fun _ => ⟨rfl, rfl⟩

theorem EncInv.raised {k : ErrCode} (hk : k ∈ [ErrCode.emptyInput, .outOfRange, .overflow]) (B : BitBuffer)
    (e : Encoder) : EncInv B { e with err := k, mode := .err } where
  err := by simpa using encCode_ne_noError hk
  code := List.mem_cons_of_mem _ hk
  cursor := nofun
  fresh := nofun
  head := nofun
  done := nofun

theorem DecInv.start (c : Sample) (W : LdWidth) : DecInv ⟨c, false, [], W, .run, .noError⟩ where
  err := by simp
  code := by simp
  out := by simp
  cur := nofun
  done := nofun

/-- A symbol in `RUN` leaves `D.cur` the last sample of an output with its header read. -/
theorem DecInv.symbol {d : Decoder} (h : DecInv d) (hm : d.mode = .run) {out : List Sample} {c : Sample}
    (hlast : out.getLast? = some c) {m : Mode} (hne : m ≠ .err) : DecInv ⟨c, true, out, d.W, m, d.err⟩ where
  err := by simpa [hm, hne] using h.err
  code := h.code
  out := by
    have : out ≠ [] := by
      rintro rfl
      simp at hlast
    simpa
  cur := fun _ => hlast
  done := fun _ => rfl

theorem DecInv.raised {d : Decoder} (h : DecInv d) {k : ErrCode} (hk : k = .truncatedStream ∨ k = .sampleRange) :
    DecInv { d with err := k, mode := .err } where
  err := by simpa using decCode_ne_noError hk
  code := by simpa using .inr hk
  out := h.out
  cur := h.cur
  done := nofun

/-! ## The invariant, through each effect -/

theorem wf_appendEb {bits : List Bool} {s : State} (hfit : Fits bits s) (h : Memory.wf s = true) :
    Memory.wf (appendEb bits s) = true := by
  rcases hfit with rfl | hcap
  · rwa [appendEb_nil]
  · have hB := BitBuffer.wf_iff.mp (Memory.wf_buf h .eb)
    refine Memory.wf_withBuf h (BitBuffer.wf_iff.mpr ?_)
    simp only [BitBuffer.wp, List.length_append, State.buf_eb] at *
    exact ⟨by omega, hcap⟩

theorem wf_advance {n : Nat} {s : State} (hn : n ≤ s.db.avail) (h : Memory.wf s = true) :
    Memory.wf (advance n s) = true := by
  have hB := BitBuffer.wf_iff.mp (Memory.wf_buf h .db)
  refine Memory.wf_withBuf h (BitBuffer.wf_iff.mpr ?_)
  simp only [BitBuffer.wp, BitBuffer.avail, State.buf_db] at *
  exact ⟨by omega, hB.2⟩

theorem inv_withInbox {s : State} (l : List Input) (h : s.Inv) : (s.withInbox l).Inv :=
  inv_iff.mpr ((inv_iff (s := s)).mp h)

theorem inv_respond {s : State} (r : Response) (h : s.Inv) : (s.respond r).Inv :=
  inv_iff.mpr ((inv_iff (s := s)).mp h)

/-- Settles O2, clause by clause. -/
theorem resetMeetsTheInvariant : Obligations.ResetMeetsTheInvariant := by
  constructor <;> decide

/-- The reset input leaves what `State.reset` holds, but for `CAP`, which empty buffers cannot exceed (R34, R240). -/
theorem inv_resetInput {s : State} (hcap : s.cfg.cap ≠ .finite 0) : (resetInput s).Inv := by
  obtain ⟨-, -, henc, hdec⟩ := inv_iff.mp resetMeetsTheInvariant
  have hwf : BitBuffer.empty.wf s.cfg.cap = true := BitBuffer.empty_wf _
  exact inv_iff.mpr ⟨Memory.wf_iff.mpr ⟨hwf, hwf⟩, hcap, henc, hdec⟩

/-- The error entry of the decoder after some bits of a symbol (R192, R221). -/
theorem inv_decRaised {s : State} {k : ErrCode} {n : Nat} (h : s.Inv) (hn : n ≤ s.db.avail)
    (hk : k = .truncatedStream ∨ k = .sampleRange) : (errorEntry .dec k (advance n s)).Inv := by
  obtain ⟨hmem, hcap, henc, hdec⟩ := inv_iff.mp h
  exact inv_iff.mpr ⟨wf_advance hn hmem, hcap, henc, hdec.raised hk⟩

theorem inv_replaceBuf {s : State} {b : BufId} {B : BitBuffer} (h : s.Inv) (hown : s.own b ≠ .run)
    (hB : B.wf s.cfg.cap = true) : (s.withBuf b B).Inv := by
  obtain ⟨hmem, hcap, henc, hdec⟩ := inv_iff.mp h
  cases b with
  | eb => exact inv_iff.mpr ⟨Memory.wf_withBuf hmem hB, hcap, henc.replace hown B, hdec⟩
  | db => exact inv_iff.mpr ⟨Memory.wf_withBuf hmem hB, hcap, henc, hdec⟩

/-- Every effect of an instruction keeps the invariant. -/
theorem inv_effect {i : Instr} {s t : State} (h : s.Inv) (heff : Effect i s t) : t.Inv := by
  obtain ⟨hmem, hcap, henc, hdec⟩ := inv_iff.mp h
  cases heff with
  | unchanged => exact h
  | answered r => exact inv_respond r h
  | buffer b B r _ hown hwf => exact inv_respond r (inv_replaceBuf h hown (hwf (Memory.wf_buf hmem b)))
  | encStarted W =>
    have hwf : Memory.wf (s.withBuf .eb .empty) = true := Memory.wf_withBuf hmem (BitBuffer.empty_wf _)
    exact inv_iff.mpr ⟨hwf, hcap, EncInv.start _ W, hdec⟩
  | pushed x p bits r _ hrun hfit hfirst =>
    exact inv_iff.mpr ⟨wf_appendEb hfit hmem, hcap, henc.push hrun hfirst p r, hdec⟩
  | finished bits _ hrun hfit => exact inv_iff.mpr ⟨wf_appendEb hfit hmem, hcap, henc.finish hrun _, hdec⟩
  | encRaised k bits r _ _ hfit hk => exact inv_iff.mpr ⟨wf_appendEb hfit hmem, hcap, EncInv.raised hk _ _, hdec⟩
  | decStarted W => exact inv_iff.mpr ⟨hmem, hcap, henc, DecInv.start _ W⟩
  | sampled n samples cur _ hrun hn hlast =>
    have hout : (s.dec.out ++ samples).getLast? = some cur := by simp [hlast]
    exact inv_iff.mpr ⟨wf_advance hn hmem, hcap, henc, hdec.symbol hrun hout (by decide)⟩
  | terminated n _ hrun hh hn =>
    have hout : (s.dec.out ++ []).getLast? = some s.dec.cur := by simpa using hdec.cur hh
    exact inv_iff.mpr ⟨wf_advance hn hmem, hcap, henc, hdec.symbol hrun hout (by decide)⟩
  | symbolRaised k n _ _ hn hk => exact inv_decRaised h hn hk

/-- Settles O3: each kind of move keeps the invariant. -/
theorem stepKeepsTheInvariant : Obligations.StepKeepsTheInvariant := fun _ _ =>
  step_keeps (fun _ l => inv_withInbox l) (fun _ r => inv_respond r) (fun _ h => inv_resetInput h.capPositive)
    (fun _ _ h hn => inv_decRaised h hn (.inl rfl)) (fun _ _ _ => inv_effect)

end Sys2Proof.Machine

namespace Sys2Proof.Machine

/-! ## The two sides -/

theorem encodeSide_of_symbol {i : Instr} (hi : isSymbol i = true) : encodeSide i = false := by
  cases i <;> simp [isSymbol, symbolFields, encodeSide] at hi ⊢

theorem encodeSide_of_buffer {i : Instr} {b : BufId} (hi : bufferOf i = some b) :
    encodeSide i = true ↔ b = .eb := by
  cases i <;> simp [bufferOf, encodeSide] at hi ⊢ <;> simp [← hi]

/-- What an instruction of the encode side can be. -/
theorem encodeSide_form {i : Instr} (hi : encodeSide i = true) :
    bufferOf i = some .eb ∨ (∃ W, i = .encStart W) ∨ (∃ x, i = .encPush x) ∨ i = .encFinish := by
  cases i <;> simp [encodeSide, bufferOf] at hi ⊢

/-- What an instruction of the decode side can be. -/
theorem decodeSide_form {i : Instr} (hi : encodeSide i = false) :
    isSymbol i = true ∨ bufferOf i = some .db ∨ ∃ W, i = .decStart W := by
  cases i <;> simp [encodeSide, isSymbol, symbolFields, bufferOf] at hi ⊢

theorem effect_frame {i : Instr} {s t : State} (h : Effect i s t) : t.cfg = s.cfg ∧ t.inbox = s.inbox := by
  cases h with
  | buffer => simp
  | _ => exact ⟨rfl, rfl⟩

/-- An instruction of the encode side leaves the decode side alone (R20). -/
theorem effect_keeps_decodeSide {i : Instr} {s t : State} (hi : encodeSide i = true) (h : Effect i s t) :
    t.db = s.db ∧ t.dec = s.dec := by
  cases h with
  | buffer b _ _ hb =>
    obtain rfl := (encodeSide_of_buffer hb).mp hi
    exact ⟨rfl, rfl⟩
  | decStarted W hW =>
    subst hW
    cases hi
  | sampled _ _ _ hsym | symbolRaised _ _ hsym => simp [encodeSide_of_symbol hsym] at hi
  | terminated _ hterm =>
    subst hterm
    cases hi
  | _ => exact ⟨rfl, rfl⟩

/-- An instruction of the decode side leaves the encode side alone (R20). -/
theorem effect_keeps_encodeSide {i : Instr} {s t : State} (hi : encodeSide i = false) (h : Effect i s t) :
    t.eb = s.eb ∧ t.enc = s.enc := by
  cases h with
  | buffer b _ _ hb =>
    cases b with
    | eb => simp [(encodeSide_of_buffer hb).mpr rfl] at hi
    | db => exact ⟨rfl, rfl⟩
  | encStarted _ hc | pushed _ _ _ _ hc | finished _ hc =>
    subst hc
    cases hi
  | encRaised _ _ _ hc =>
    rcases hc with rfl | ⟨x, rfl⟩ <;> cases hi
  | _ => exact ⟨rfl, rfl⟩

/-! ## Two runs

What an instruction does on one side is a function of what the states hold on that side: two states that agree there are
taken to two states that agree there. -/

/-- Two flows come to the same end, a state or the same `raise`, at related states. -/
inductive Flow.Rel (R : State → State → Prop) : Flow → Flow → Prop
  | ok {s s' : State} : R s s' → Flow.Rel R (.ok s) (.ok s')
  | raised (k : ErrCode) {s s' : State} : R s s' → Flow.Rel R (.raised k s) (.raised k s')

theorem Flow.Rel.andThen {R : State → State → Prop} {f f' : Flow} {g g' : State → Flow} (hf : Flow.Rel R f f')
    (hg : ∀ s s', R s s' → Flow.Rel R (g s) (g' s')) : Flow.Rel R (f.andThen g) (f'.andThen g') := by
  cases hf with
  | ok h => exact hg _ _ h
  | raised k h => exact .raised k h

/-- Two results are next states that are related. -/
def BothNext (R : State → State → Prop) (r r' : Result) : Prop := ∃ t t', r = .next t ∧ r' = .next t' ∧ R t t'

theorem BothNext.of_flow {R : State → State → Prop} {f f' : Flow} {g : Flow → Result} (hf : Flow.Rel R f f')
    (hok : ∀ s s', R s s' → BothNext R (g (.ok s)) (g (.ok s')))
    (hraised : ∀ k s s', R s s' → BothNext R (g (.raised k s)) (g (.raised k s'))) : BothNext R (g f) (g f') := by
  cases hf with
  | ok h => exact hok _ _ h
  | raised k h => exact hraised k _ _ h

/-! ### The Bit Buffer commands -/

/-- Two results leave the same content in a buffer, and the same response. -/
def SameBufferEnd (b : BufId) (s s' : State) (r r' : Result) : Prop :=
  ∃ B a, r = .next ((s.withBuf b B).respond a) ∧ r' = .next ((s'.withBuf b B).respond a)

section SameBuffer

variable {b : BufId} {s s' : State} (hbuf : s.buf b = s'.buf b)

include hbuf

theorem SameBufferEnd.answer (a : Response) : SameBufferEnd b s s' (.next (s.respond a)) (.next (s'.respond a)) :=
  ⟨s.buf b, a, by rw [State.withBuf_self], by rw [hbuf, State.withBuf_self]⟩

theorem SameBufferEnd.command (k : ErrCode) (B : Option BitBuffer) :
    SameBufferEnd b s s' (endBufferCommand b k s B) (endBufferCommand b k s' B) := by
  cases B with
  | none => exact SameBufferEnd.answer hbuf _
  | some B => exact ⟨B, .done, rfl, rfl⟩

/-- A buffer command is a function of its buffer, its owner's mode and `CAP` (R130 to R137). -/
theorem exec_buffer_same {i : Instr} (hi : bufferOf i = some b) (hcfg : s.cfg = s'.cfg) (hown : s.own b = s'.own b) :
    SameBufferEnd b s s' (exec i s) (exec i s') := by
  by_cases h : s.own b = .run
  · rw [exec_buffer_off hi h, exec_buffer_off hi (hown ▸ h)]
    exact SameBufferEnd.answer hbuf _
  have h' : s'.own b ≠ .run := hown ▸ h
  rcases bufferCommand_form hi with rfl | ⟨v, n, rfl⟩ | ⟨n, rfl⟩ | rfl | ⟨ys, rfl⟩ | ⟨seq, rfl⟩
  · rw [exec_clear, exec_clear, bufClear_on h, bufClear_on h']
    exact ⟨_, _, rfl, rfl⟩
  · rw [exec_writeField, exec_writeField, bufWrite, bufWrite, whenIdleOwner_on h, whenIdleOwner_on h', hbuf, hcfg]
    split
    · exact SameBufferEnd.answer hbuf _
    · exact SameBufferEnd.command hbuf _ _
  · rw [exec_readField, exec_readField, bufRead, bufRead, whenIdleOwner_on h, whenIdleOwner_on h', hbuf]
    split
    · exact SameBufferEnd.answer hbuf _
    · split
      · exact ⟨_, _, rfl, rfl⟩
      · exact SameBufferEnd.answer hbuf _
  · rw [exec_packBytes, exec_packBytes, bufPack_on h, bufPack_on h', hbuf]
    exact SameBufferEnd.answer hbuf _
  · rw [exec_loadBytes, exec_loadBytes, bufLoad_on h, bufLoad_on h', hcfg]
    exact SameBufferEnd.command hbuf _ _
  · rw [exec_loadBits, exec_loadBits, bufLoad_on h, bufLoad_on h', hcfg]
    exact SameBufferEnd.command hbuf _ _

end SameBuffer

/-! ### The encode side -/

/-- Two states hold the same on the encode side, but that `E.prev` may differ before the first sample of a call, where
no rule reads it (R33); with `P` it is the same there too. -/
structure EncAgree (P : Prop) (s s' : State) : Prop where
  cfg : s.cfg = s'.cfg
  eb : s.eb = s'.eb
  run : s.enc.run = s'.enc.run
  haveFirst : s.enc.haveFirst = s'.enc.haveFirst
  W : s.enc.W = s'.enc.W
  mode : s.enc.mode = s'.enc.mode
  err : s.enc.err = s'.enc.err
  prev : P ∨ s.enc.haveFirst = true → s.enc.prev = s'.enc.prev

theorem encAgree_true_iff {s s' : State} :
    EncAgree True s s' ↔ s.cfg = s'.cfg ∧ s.eb = s'.eb ∧ s.enc = s'.enc := by
  constructor
  · intro h
    exact ⟨h.cfg, h.eb,
      (Encoder.mk.injEq ..).mpr ⟨h.prev (.inl trivial), h.run, h.haveFirst, h.W, h.mode, h.err⟩⟩
  · rintro ⟨hcfg, heb, henc⟩
    constructor <;> simp [hcfg, heb, henc]

section EncoderRuns

variable {P : Prop} {s s' : State}

theorem EncAgree.withEb (h : EncAgree P s s') (B : BitBuffer) : EncAgree P (s.withBuf .eb B) (s'.withBuf .eb B) :=
  { h with eb := rfl }

theorem EncAgree.respond (h : EncAgree P s s') (a : Response) : EncAgree P (s.respond a) (s'.respond a) := { h with }

theorem EncAgree.errorEntry (h : EncAgree P s s') (k : ErrCode) :
    EncAgree P (errorEntry .enc k s) (errorEntry .enc k s') := { h with mode := rfl, err := rfl }

theorem EncAgree.setRun (h : EncAgree P s s') (r : BitVec 3) : EncAgree P (setRun r s) (setRun r s') :=
  { h with run := rfl }

theorem EncAgree.setPrev (h : EncAgree P s s') (x : Sample) : EncAgree P (setPrev x s) (setPrev x s') :=
  { h with prev := fun _ => rfl }

theorem encWrite_agree (v n : Nat) (h : EncAgree P s s') :
    Flow.Rel (EncAgree P) (encWrite v n s) (encWrite v n s') := by
  unfold encWrite
  rw [h.cfg, h.eb]
  split
  · exact .ok (h.withEb _)
  · exact .raised _ h

theorem emitFields_agree (l : List (Nat × Nat)) (h : EncAgree P s s') :
    Flow.Rel (EncAgree P) (emitFields l s) (emitFields l s') := by
  induction l generalizing s s' with
  | nil => exact .ok h
  | cons f rest ih => exact (encWrite_agree _ _ h).andThen fun _ _ => ih

theorem flushRun_agree (h : EncAgree P s s') : Flow.Rel (EncAgree P) (flushRun s) (flushRun s') := by
  unfold flushRun
  rw [h.run]
  split
  · exact .ok h
  · exact (emitFields_agree _ h).andThen fun _ _ h => .ok (h.setRun 0)

theorem pushFirst_agree (x : Sample) (h : EncAgree P s s') :
    Flow.Rel (EncAgree P) (pushFirst x s) (pushFirst x s') :=
  (emitFields_agree _ h).andThen fun _ _ h => .ok { h with prev := fun _ => rfl, haveFirst := rfl }

theorem pushZero_agree (h : EncAgree P s s') : Flow.Rel (EncAgree P) (pushZero s) (pushZero s') := by
  unfold pushZero
  rw [h.run]
  split
  · exact (emitFields_agree _ h).andThen fun _ _ h => .ok (h.setRun 0)
  · exact .ok (h.setRun _)

theorem pushSmall_agree (x : Sample) (d : Int) (h : EncAgree P s s') :
    Flow.Rel (EncAgree P) (pushSmall x d s) (pushSmall x d s') :=
  (flushRun_agree h).andThen fun _ _ h => (emitFields_agree _ h).andThen fun _ _ h => .ok (h.setPrev x)

theorem pushLarge_agree (x : Sample) (d : Int) (h : EncAgree P s s') :
    Flow.Rel (EncAgree P) (pushLarge x d s) (pushLarge x d s') := by
  refine (flushRun_agree h).andThen fun t t' h => ?_
  simp only [emitLd, h.W]
  split
  · exact .raised _ h
  · exact (emitFields_agree _ h).andThen fun _ _ h => .ok (h.setPrev x)

theorem pushBody_agree (x : Sample) (h : EncAgree P s s') :
    Flow.Rel (EncAgree P) (pushBody x s) (pushBody x s') := by
  unfold pushBody
  by_cases hh : s.enc.haveFirst = false
  · rw [if_pos hh, if_pos (h.haveFirst ▸ hh)]
    exact pushFirst_agree x h
  · rw [if_neg hh, if_neg (h.haveFirst ▸ hh), h.prev (.inr (by simpa using hh))]
    split
    · exact pushZero_agree h
    · exact pushSmall_agree x _ h
    · exact pushLarge_agree x _ h

theorem finishBody_agree (h : EncAgree P s s') : Flow.Rel (EncAgree P) (finishBody s) (finishBody s') := by
  unfold finishBody
  rw [h.haveFirst]
  split
  · exact .raised _ h
  · exact (flushRun_agree h).andThen fun _ _ h => (emitFields_agree _ h).andThen fun _ _ h => .ok { h with mode := rfl }

/-- `ENC.START` makes the two sides agree whatever the calls before it left (R33, R150). -/
theorem encStart_agree (W : LdWidth) (hcfg : s.cfg = s'.cfg) (hprev : P → s.enc.prev = s'.enc.prev) :
    BothNext (EncAgree P) (exec (.encStart W) s) (exec (.encStart W) s') :=
  ⟨_, _, rfl, rfl, hcfg, rfl, rfl, rfl, rfl, rfl, rfl, fun hp => hprev (hp.resolve_right nofun)⟩

/-- A command of `ENC` that needs `RUN`. -/
theorem encCommand_agree {body : State → Flow} (h : EncAgree P s s')
    (hbody : Flow.Rel (EncAgree P) (body s) (body s')) :
    BothNext (EncAgree P) (if s.enc.mode = .run then (body s).endCommand else notAccepted s)
      (if s'.enc.mode = .run then (body s').endCommand else notAccepted s') := by
  rw [h.mode]
  split
  · exact .of_flow hbody (fun _ _ h => ⟨_, _, rfl, rfl, h.respond _⟩)
      (fun k _ _ h => ⟨_, _, rfl, rfl, (h.errorEntry k).respond _⟩)
  · exact ⟨_, _, rfl, rfl, h.respond _⟩

theorem exec_encodeSide_agree {i : Instr} (hi : encodeSide i = true) (h : EncAgree P s s') :
    BothNext (EncAgree P) (exec i s) (exec i s') := by
  rcases encodeSide_form hi with hb | ⟨W, rfl⟩ | ⟨x, rfl⟩ | rfl
  · obtain ⟨B, a, hr, hr'⟩ := exec_buffer_same (b := .eb) h.eb hb h.cfg h.mode
    exact ⟨_, _, hr, hr', (h.withEb B).respond a⟩
  · exact encStart_agree W h.cfg fun hp => h.prev (.inl hp)
  · exact encCommand_agree h (pushBody_agree x h)
  · exact encCommand_agree h (finishBody_agree h)

theorem execAll_encodeSide_agree {l : List Instr} (hl : ∀ i ∈ l, encodeSide i = true) (h : EncAgree P s s') :
    BothNext (EncAgree P) (execAll l s) (execAll l s') := by
  induction l generalizing s s' with
  | nil => exact ⟨_, _, rfl, rfl, h⟩
  | cons i rest ih =>
    obtain ⟨t, t', ht, ht', h⟩ := exec_encodeSide_agree (hl i (by simp)) h
    simp only [execAll, ht, ht']
    exact ih (fun j hj => hl j (by simp [hj])) h

end EncoderRuns

/-- Settles O36: after `ENC.START` the two states agree on the encode side, and every later command of the call keeps
that. -/
theorem encodeCallForgetsThePast : Obligations.EncodeCallForgetsThePast := by
  intro W S s s' t t' hcfg ht ht'
  obtain ⟨u, u', hu, hu', hagree⟩ := encStart_agree (P := False) W hcfg nofun
  have hrest : ∀ i ∈ S.map Instr.encPush ++ [.encFinish], encodeSide i = true := by
    simp only [List.mem_append, List.mem_map, List.mem_singleton]
    rintro i (⟨x, -, rfl⟩ | rfl) <;> rfl
  obtain ⟨v, v', hv, hv', h⟩ := execAll_encodeSide_agree hrest hagree
  simp only [encodeCommands, execAll, hu, hu', hv, hv'] at ht ht'
  cases ht
  cases ht'
  exact ⟨h.eb, h.mode, h.err, h.run, h.haveFirst, fun _ hh => h.prev (.inr hh)⟩

/-! ### The decode side -/

/-- Two states hold the same on the decode side. -/
structure DecAgree (s s' : State) : Prop where
  cfg : s.cfg = s'.cfg
  db : s.db = s'.db
  dec : s.dec = s'.dec

section DecoderRuns

variable {s s' : State}

theorem DecAgree.withDec (h : DecAgree s s') (d : Decoder) : DecAgree (s.withDec d) (s'.withDec d) :=
  { h with dec := rfl }

theorem decFields_agree (l : List Nat) (h : DecAgree s s') : Flow.Rel DecAgree (decFields l s) (decFields l s') := by
  induction l generalizing s s' with
  | nil => exact .ok h
  | cons n rest ih =>
    refine Flow.Rel.andThen ?_ fun _ _ => ih
    unfold decRead
    rw [h.db]
    split
    · exact .ok { h with db := rfl }
    · exact .raised _ h

/-- The fields of a symbol are read, then the registers of `DEC` are written as a function of what they hold. -/
theorem fields_then_registers_agree (l : List Nat) (g : Decoder → Decoder) (h : DecAgree s s') :
    Flow.Rel DecAgree ((decFields l s).andThen fun t => .ok (t.withDec (g t.dec)))
      ((decFields l s').andThen fun t => .ok (t.withDec (g t.dec))) :=
  (decFields_agree l h).andThen fun _ _ h => .ok (h.dec ▸ h.withDec _)

theorem acc_agree (d : Int) (h : DecAgree s s') : Flow.Rel DecAgree (acc d s) (acc d s') := by
  simp only [acc, h.dec]
  split
  · exact .raised _ h
  · exact .ok { h with dec := by simp [h.dec] }

theorem decSymbol_agree {hdr : Bool} {body : State → Flow} (h : DecAgree s s')
    (hbody : Flow.Rel DecAgree (body s) (body s')) :
    BothNext DecAgree (decSymbol hdr body s) (decSymbol hdr body s') := by
  unfold decSymbol
  rw [h.dec]
  split
  · exact .of_flow hbody (fun _ _ h => ⟨_, _, rfl, rfl, h⟩)
      (fun k _ _ h => ⟨_, _, rfl, rfl, { h with dec := by simp [h.dec] }⟩)
  · exact ⟨_, _, rfl, rfl, h⟩

theorem smallBody_agree (k : Band) (c : Nat) (h : DecAgree s s') :
    Flow.Rel DecAgree (smallBody k c s) (smallBody k c s') :=
  (decFields_agree _ h).andThen fun _ _ => acc_agree _

theorem exec_symbol_agree {i : Instr} (hi : isSymbol i = true) (h : DecAgree s s') :
    BothNext DecAgree (exec i s) (exec i s') := by
  cases i with
  | raw8 v =>
    exact decSymbol_agree h
      (fields_then_registers_agree _ (fun d => { d with cur := v, out := d.out ++ [v], hdr := true }) h)
  | sdB0 c | sdB1 c | sdB2 c | sdB3 c => exact decSymbol_agree h (smallBody_agree _ _ h)
  | zr n =>
    exact decSymbol_agree h
      (fields_then_registers_agree _ (fun d => { d with out := d.out ++ List.replicate (n.toNat + 1) d.cur }) h)
  | ld sign m =>
    have hbody : Flow.Rel DecAgree (ldBody sign m.toNat s) (ldBody sign m.toNat s') := by
      unfold ldBody
      rw [h.dec]
      exact (decFields_agree _ h).andThen fun _ _ => acc_agree _
    exact decSymbol_agree h hbody
  | term => exact decSymbol_agree h (fields_then_registers_agree _ (fun d => { d with mode := .done }) h)
  | _ => simp [isSymbol, symbolFields] at hi

theorem exec_decodeSide_agree {i : Instr} (hi : encodeSide i = false) (h : DecAgree s s') :
    BothNext DecAgree (exec i s) (exec i s') := by
  rcases decodeSide_form hi with hsym | hb | ⟨W, rfl⟩
  · exact exec_symbol_agree hsym h
  · obtain ⟨B, a, hr, hr'⟩ := exec_buffer_same (b := .db) h.db hb h.cfg (congrArg Decoder.mode h.dec)
    exact ⟨_, _, hr, hr', { h with db := rfl }⟩
  · exact ⟨_, _, rfl, rfl, { h with dec := by simp [h.dec] }⟩

end DecoderRuns

/-! ### The sides commute -/

theorem execAll_pair {i j : Instr} {s t u : State} (hi : exec i s = .next t) (hj : exec j t = .next u) :
    execAll [i, j] s = .next u := by
  simp only [execAll, hi, hj]

theorem respond_done_ext {t u : State} (cfg : t.cfg = u.cfg) (eb : t.eb = u.eb) (enc : t.enc = u.enc)
    (db : t.db = u.db) (dec : t.dec = u.dec) (inbox : t.inbox = u.inbox) : t.respond .done = u.respond .done := by
  simp only [State.respond, cfg, eb, enc, db, dec, inbox]

/-- With `i` of the encode side and `j` of the decode side, `t` after `i` and `u` after `j`: the second instruction
meets the side it works on as the first left it, that is as in `s`, and does there what it does at `s`. -/
theorem sides_commute {i j : Instr} (s : State) (hi : encodeSide i = true) (hj : encodeSide j = false) :
    ∃ ij ji, execAll [i, j] s = .next ij ∧ execAll [j, i] s = .next ji ∧ ij.respond .done = ji.respond .done := by
  obtain ⟨t, ht⟩ := exec_next i s
  obtain ⟨u, hu⟩ := exec_next j s
  obtain ⟨tcfg, tinbox⟩ := effect_frame (effect_of_exec ht)
  obtain ⟨ucfg, uinbox⟩ := effect_frame (effect_of_exec hu)
  obtain ⟨tdb, tdec⟩ := effect_keeps_decodeSide hi (effect_of_exec ht)
  obtain ⟨ueb, uenc⟩ := effect_keeps_encodeSide hj (effect_of_exec hu)
  obtain ⟨_, ij, hu', hij, onDb⟩ := exec_decodeSide_agree hj (s := s) (s' := t) ⟨tcfg.symm, tdb.symm, tdec.symm⟩
  obtain ⟨_, ji, ht', hji, onEb⟩ := exec_encodeSide_agree hi (encAgree_true_iff.mpr ⟨ucfg.symm, ueb.symm, uenc.symm⟩)
  cases hu.symm.trans hu'
  cases ht.symm.trans ht'
  obtain ⟨ijcfg, ijinbox⟩ := effect_frame (effect_of_exec hij)
  obtain ⟨jicfg, jiinbox⟩ := effect_frame (effect_of_exec hji)
  obtain ⟨ijeb, ijenc⟩ := effect_keeps_encodeSide hj (effect_of_exec hij)
  obtain ⟨jidb, jidec⟩ := effect_keeps_decodeSide hi (effect_of_exec hji)
  obtain ⟨-, eb, enc⟩ := encAgree_true_iff.mp onEb
  refine ⟨ij, ji, execAll_pair ht hij, execAll_pair hu hji, respond_done_ext ?_ ?_ ?_ ?_ ?_ ?_⟩
  · rw [ijcfg, jicfg, tcfg, ucfg]
  · rw [ijeb, eb]
  · rw [ijenc, enc]
  · rw [jidb, onDb.db]
  · rw [jidec, onDb.dec]
  · rw [ijinbox, jiinbox, tinbox, uinbox]

/-- Settles O55, from the frame of each effect and what two runs from states that agree on one side do. -/
theorem theTwoSidesCommute : Obligations.TheTwoSidesCommute := by
  refine ⟨fun i s t h => ?_, fun i j s hi hj => sides_commute s hi hj⟩
  obtain ⟨hcfg, hinbox⟩ := effect_frame (effect_of_exec h)
  exact ⟨hcfg, hinbox, fun hi => effect_keeps_decodeSide hi (effect_of_exec h),
    fun hi => effect_keeps_encodeSide hi (effect_of_exec h)⟩

end Sys2Proof.Machine

/-! # Proofs: the Bit Buffers as memories (20_memory.md)

What a buffer gives back after it was written, split, packed or loaded; how long a canonical stream is; and that a
decode call never writes its stream. -/

namespace Sys2Proof.Machine

/-! ## `WRITE` and `READ` of the host -/

/-- The state after the host's `WRITE` of a field that fits (R131). -/
def written (b : BufId) (v : FieldValue) (n : FieldWidth) (s : State) : State :=
  (s.withBuf b { s.buf b with bits := (s.buf b).bits ++ field n.toNat v.toNat }).respond .done

@[simp] theorem written_buf (b : BufId) (v : FieldValue) (n : FieldWidth) (s : State) :
    (written b v n s).buf b = { s.buf b with bits := (s.buf b).bits ++ field n.toNat v.toNat } := by simp [written]

@[simp] theorem written_own (b : BufId) (v : FieldValue) (n : FieldWidth) (s : State) :
    (written b v n s).own b = s.own b := by simp [written]

@[simp] theorem written_cfg (b : BufId) (v : FieldValue) (n : FieldWidth) (s : State) :
    (written b v n s).cfg = s.cfg := by simp [written]

/-- An enabled `WRITE` of the host that fits. -/
theorem exec_writeField_fits {b : BufId} {v : FieldValue} {n : FieldWidth} {s : State} (h : s.own b ≠ .run)
    (hn : n.toNat ≤ fw) (hfit : s.cfg.cap.allows ((s.buf b).wp + n.toNat) = true) :
    exec (b.writeField v n) s = .next (written b v n s) := by
  rw [exec_writeField, bufWrite_on h hn, BitBuffer.write_fits hfit]
  rfl

/-- An enabled `READ` of the host that finds its bits: the response is the whole field, zero-extended (R132). -/
theorem exec_readField_enough {b : BufId} {n : FieldWidth} {s : State} (h : s.own b ≠ .run) (hn : n.toNat ≤ fw)
    (ha : n.toNat ≤ (s.buf b).avail) :
    ∃ r : FieldValue, r.toNat = (s.buf b).memRead (s.buf b).rp n.toNat ∧ exec (b.readField n) s =
      .next ((s.withBuf b { s.buf b with rp := (s.buf b).rp + n.toNat }).respond (.value r)) := by
  refine ⟨_, ?_, (exec_readField b n s).trans (bufRead_enough h hn ha)⟩
  have hlt : (s.buf b).memRead (s.buf b).rp n.toNat < 2 ^ 16 :=
    (BitBuffer.memRead_lt _ _ _).trans_le (Nat.pow_le_pow_right two_pos hn)
  rw [BitVec.toNat_ofNat, Nat.mod_eq_of_lt hlt]

/-- A field at the end of the content, read from where the content ended before (R138 (a)). -/
theorem BitBuffer.memRead_appended (bits : List Bool) (rp v n : Nat) :
    BitBuffer.memRead ⟨bits ++ field n v, rp⟩ bits.length n = v % 2 ^ n := by
  rw [BitBuffer.memRead, List.drop_left, List.take_of_length_le (field_length n v).le, fieldValue_field]

/-- In canonical form no bit is unread exactly where the cursor has met the write pointer (R21, R22). -/
theorem BitBuffer.rp_eq_wp {cap : Cap} {B : BitBuffer} (hB : B.wf cap = true) (h : B.avail = 0) : B.rp = B.wp := by
  have hle := (BitBuffer.wf_iff.mp hB).1
  simp only [BitBuffer.avail] at h
  omega

/-- Settles O22: the cursor stands where the field is appended. -/
theorem writeThenReadReturnsTheValue : Obligations.WriteThenReadReturnsTheValue := by
  intro b v n s hown hn hwf havail hfit
  have hrp : (s.buf b).rp = (s.buf b).bits.length := BitBuffer.rp_eq_wp (Memory.wf_buf hwf b) havail
  have hwrite := exec_writeField_fits (v := v) hown hn hfit
  obtain ⟨r, hr, hread⟩ := exec_readField_enough (b := b) (n := n) (s := written b v n s) (by simpa using hown) hn
    (by simp [BitBuffer.avail, hrp])
  refine ⟨_, r, execAll_pair hwrite hread, rfl, ?_, ?_⟩
  · simpa [hrp, BitBuffer.memRead_appended] using hr
  · simp [BitBuffer.avail, hrp]

/-! ## Adjacent fields -/

/-- A field of `n1 + n2` bits is its first `n1` bits and, below them, the next `n2` (R65). -/
theorem BitBuffer.memRead_add {B : BitBuffer} {a n1 n2 : Nat} (h : n1 + n2 ≤ B.wp - a) :
    B.memRead a (n1 + n2) = B.memRead a n1 * 2 ^ n2 + B.memRead (a + n1) n2 := by
  have hlen : ((B.bits.drop (a + n1)).take n2).length = n2 := by
    simp only [BitBuffer.wp] at h
    simp only [List.length_take, List.length_drop]
    omega
  rw [BitBuffer.memRead, List.take_add, fieldValue_append, List.drop_drop, hlen, BitBuffer.memRead, BitBuffer.memRead]

theorem BitBuffer.memRead_div {B : BitBuffer} {a n1 n2 : Nat} (h : n1 + n2 ≤ B.wp - a) :
    B.memRead a (n1 + n2) / 2 ^ n2 = B.memRead a n1 := by
  rw [BitBuffer.memRead_add h, Nat.add_comm, Nat.add_mul_div_right _ _ (Nat.two_pow_pos n2),
    Nat.div_eq_of_lt (BitBuffer.memRead_lt _ _ _), Nat.zero_add]

theorem BitBuffer.memRead_mod {B : BitBuffer} {a n1 n2 : Nat} (h : n1 + n2 ≤ B.wp - a) :
    B.memRead a (n1 + n2) % 2 ^ n2 = B.memRead (a + n1) n2 := by
  rw [BitBuffer.memRead_add h, Nat.mul_add_mod_self_right, Nat.mod_eq_of_lt (BitBuffer.memRead_lt _ _ _)]

/-- Two `WRITE`s side by side leave the state of one `WRITE` of both fields (R138 (b)). -/
theorem writes_adjacent {b : BufId} {v1 v2 v : FieldValue} {n1 n2 n : FieldWidth} {s : State} (hown : s.own b ≠ .run)
    (hn : n.toNat = n1.toNat + n2.toNat) (hfw : n.toNat ≤ 16)
    (hv : v.toNat = (v1.toNat % 2 ^ n1.toNat) * 2 ^ n2.toNat + v2.toNat % 2 ^ n2.toNat)
    (hfit : s.cfg.cap.allows ((s.buf b).wp + n.toNat) = true) :
    execAll [b.writeField v1 n1, b.writeField v2 n2] s = exec (b.writeField v n) s := by
  have first := exec_writeField_fits (v := v1) (n := n1) hown (by simp only [fw]; omega)
    (Cap.allows_mono (by omega) hfit)
  have second := exec_writeField_fits (b := b) (v := v2) (n := n2) (s := written b v1 n1 s) (by simpa using hown)
    (by simp only [fw]; omega) (by simpa [BitBuffer.wp, hn, Nat.add_assoc] using hfit)
  rw [execAll_pair first second, exec_writeField_fits hown hfw hfit]
  simp [written, hn, hv, ← field_append]

/-- Settles O23: both sides append the same bits, or read the same bits. -/
theorem adjacentFieldsAreOneField : Obligations.AdjacentFieldsAreOneField := by
  refine ⟨fun b v1 v2 v n1 n2 n s t hown hn hfw hv hfit ht =>
    (writes_adjacent hown hn hfw hv hfit).symm.trans ht, fun b n1 n2 n s hown hn hfw ha => ?_⟩
  have hn1 : n1.toNat ≤ fw := by simp only [fw]; omega
  have hn2 : n2.toNat ≤ fw := by simp only [fw]; omega
  have hboth : n1.toNat + n2.toNat ≤ (s.buf b).wp - (s.buf b).rp := hn ▸ ha
  obtain ⟨r, hr, both⟩ := exec_readField_enough hown hfw ha
  obtain ⟨r1, hr1, first⟩ := exec_readField_enough (n := n1) hown hn1 (by omega)
  obtain ⟨r2, hr2, second⟩ := exec_readField_enough (b := b) (n := n2) (s := (s.withBuf b
    { s.buf b with rp := (s.buf b).rp + n1.toNat }).respond (.value r1)) (by simpa using hown) hn2
    (by simp only [State.respond_buf, State.withBuf_buf, BitBuffer.avail, BitBuffer.wp] at hboth ⊢; omega)
  refine ⟨_, _, _, r, r1, r2, both, rfl, first, rfl, second, rfl, ?_, ?_, ?_⟩
  · rw [hr, hr1, hn, BitBuffer.memRead_div hboth]
  · rw [hr, hr2, hn, BitBuffer.memRead_mod hboth]
    simp [BitBuffer.memRead]
  · simp [hn, Nat.add_assoc]

/-! ## The byte image -/

theorem BitBuffer.pack_getElem? {B : BitBuffer} {j : Nat} (h : j < (B.wp + 7) / 8) :
    B.pack[j]? = some (B.imageByte j) := by
  simp [BitBuffer.pack, h]

/-- The packet of `BB.PACK` (R106). -/
theorem decodeCommand_pack {b : BufId} {p : Packet} (h : p.cmd = b.unit ++ (0b011 : BitVec 3)) :
    decodeCommand p = .ok b.packBytes := by
  cases b <;> simp [decodeCommand, h, BufId.unit, BufId.packBytes]

theorem exec_packBytes_on {b : BufId} {s : State} (h : s.own b ≠ .run) :
    exec b.packBytes s = .next (s.respond (.bytes (s.buf b).pack)) := (exec_packBytes b s).trans (bufPack_on h)

/-- Settles O17: each byte of the image has the bits of its eight addresses. -/
theorem packReturnsTheByteImage : Obligations.PackReturnsTheByteImage := by
  refine ⟨fun b p => decodeCommand_pack, fun b s hown => ⟨_, exec_packBytes_on hown, ?_, ?_, ?_⟩⟩
  · rw [BitBuffer.pack_length]
    omega
  · rw [BitBuffer.pack_length]
    omega
  · intro j y hy k hk
    have hj := (List.getElem?_eq_some_iff.mp hy).1
    rw [BitBuffer.pack_length] at hj
    cases (BitBuffer.pack_getElem? hj).symm.trans hy
    exact BitBuffer.imageByte_bit _ _ hk

/-- Bytes with the same bits, counted from the most significant, are the same. -/
theorem byte_ext {x y : Byte} (h : ∀ k < 8, x.getLsbD (7 - k) = y.getLsbD (7 - k)) : x = y :=
  BitVec.eq_of_getLsbD_eq fun i hi => by simpa [show 7 - (7 - i) = i by omega] using h (7 - i) (by omega)

/-- `PACK` of the bits of bytes is the bytes (R138 (e)). -/
theorem BitBuffer.pack_bitsOfBytes (ys : List Byte) (rp : Nat) : BitBuffer.pack ⟨bitsOfBytes ys, rp⟩ = ys := by
  have hlen : (BitBuffer.pack ⟨bitsOfBytes ys, rp⟩).length = ys.length := by
    rw [BitBuffer.pack_length, BitBuffer.wp_mk, bitsOfBytes_length]
    omega
  refine List.ext_getElem? fun j => ?_
  rcases Nat.lt_or_ge j ys.length with hj | hj
  · have hy : ys[j]? = some ys[j] := List.getElem?_eq_getElem hj
    rw [hy, BitBuffer.pack_getElem? (by rwa [← BitBuffer.pack_length, hlen]), Option.some.injEq]
    refine byte_ext fun k hk => ?_
    rw [BitBuffer.imageByte_bit _ _ hk, BitBuffer.bitAt, bitsOfBytes_getElem? hy hk, Option.getD_some]
  · rw [List.getElem?_eq_none hj, List.getElem?_eq_none (hlen.trans_le hj)]

/-- A byte image holds the content, and 0 from there to its end (R63, R134). -/
theorem BitBuffer.bitsOfBytes_pack_getElem? {B : BitBuffer} {a : Nat} (h : a < 8 * B.pack.length) :
    (bitsOfBytes B.pack)[a]? = some ((B.bitAt a).getD false) := by
  rw [BitBuffer.pack_length] at h
  have hbyte := BitBuffer.pack_getElem? (B := B) (j := a / 8) (by omega)
  have hbit := bitsOfBytes_getElem? hbyte (Nat.mod_lt a (by omega : 8 > 0))
  rwa [BitBuffer.imageByte_bit _ _ (Nat.mod_lt a (by omega)), Nat.div_add_mod] at hbit

/-- The bits of a packed buffer are its bits and the padding of the last byte. -/
theorem BitBuffer.bitsOfBytes_pack (B : BitBuffer) :
    bitsOfBytes B.pack = B.bits ++ List.replicate (8 * B.pack.length - B.wp) false := by
  have hlen := B.pack_length
  refine List.ext_getElem? fun a => ?_
  rcases Nat.lt_or_ge a (8 * B.pack.length) with ha | ha
  · rw [BitBuffer.bitsOfBytes_pack_getElem? ha, BitBuffer.bitAt]
    rcases Nat.lt_or_ge a B.bits.length with hin | hout
    · rw [List.getElem?_append_left hin, List.getElem?_eq_getElem hin, Option.getD_some]
    · rw [List.getElem?_append_right hout, List.getElem?_eq_none hout, List.getElem?_replicate_of_lt, Option.getD_none]
      simp only [BitBuffer.wp]
      omega
  · rw [List.getElem?_eq_none (by simpa using ha), List.getElem?_eq_none]
    simp only [List.length_append, List.length_replicate, BitBuffer.wp] at hlen ⊢
    omega

/-- Settles O24, from the byte image of loaded bytes and the bits of a byte image. -/
theorem packAndLoadInvertEachOther : Obligations.PackAndLoadInvertEachOther := by
  refine ⟨fun b ys s t hown hcap ht => ?_, fun B => ⟨_, ?_, B.bitsOfBytes_pack⟩⟩
  · have hload : exec (b.loadBytes ys) s = .next ((s.withBuf b ⟨bitsOfBytes ys, 0⟩).respond .done) := by
      rw [exec_loadBytes, bufLoad_on hown, BitBuffer.load, if_pos (by simpa using hcap)]
      rfl
    cases (execAll_pair hload (exec_packBytes_on (by simpa using hown))).symm.trans ht
    simp [BitBuffer.pack_bitsOfBytes]
  · rw [BitBuffer.pack_length]
    omega

/-! ## The length of a canonical stream -/

theorem leadingZeros_le (limit : Nat) (ds : List Int) :
    leadingZeros limit ds ≤ limit ∧ leadingZeros limit ds ≤ ds.length := by
  induction limit generalizing ds with
  | zero => simp [leadingZeros]
  | succ limit ih =>
    cases ds with
    | nil => simp [leadingZeros]
    | cons d ds =>
      have := ih ds
      simp only [leadingZeros, List.length_cons]
      split <;> omega

theorem bandWidth_eq (k : Band) : bandWidth k = k.val + 2 := by
  fin_cases k <;> rfl

theorem exists_of_map_eq_ok {ε α β : Type} {f : α → β} {x : Except ε α} {y : β} (h : x.map f = .ok y) :
    ∃ a, x = .ok a ∧ f a = y := by
  cases x with
  | error e => cases h
  | ok a => exact ⟨a, rfl, Except.ok.inj h⟩

@[simp] theorem deltasFrom_length (prev : Sample) (xs : List Sample) : (deltasFrom prev xs).length = xs.length := by
  induction xs generalizing prev with
  | nil => rfl
  | cons x xs ih => simp [deltasFrom, ih]

/-- A Large-Delta that is encoded has a magnitude above 30, so it needs `W` of at least 5 (R152, R164). -/
theorem five_le_of_large {W n : Nat} (hlarge : sdMax < n) (hfits : n < 2 ^ W) : 5 ≤ W := by
  by_contra hW
  have : 2 ^ W ≤ 2 ^ 4 := Nat.pow_le_pow_right two_pos (by omega)
  simp only [sdMax] at hlarge
  omega

/-- One turn of the encoder: a symbol of at least 5 bits for 1 to 8 deltas, at `W >= 6` of at most `3 + W` bits (R69,
R165). -/
theorem encodeDeltas_turn {W : LdWidth} {fuel : Nat} {d : Int} {ds : List Int} {bits : List Bool}
    (h : encodeDeltas W (fuel + 1) (d :: ds) = .ok bits) :
    ∃ more symbol rest, more ≤ 7 ∧ more ≤ ds.length ∧ encodeDeltas W fuel (ds.drop more) = .ok rest ∧
      bits = symbol ++ rest ∧ 5 ≤ symbol.length ∧ (6 ≤ W.toNat → symbol.length ≤ 3 + W.toNat) := by
  rw [encodeDeltas] at h
  split at h
  · obtain ⟨rest, hrest, rfl⟩ := exists_of_map_eq_ok h
    obtain ⟨hlimit, hlen⟩ := leadingZeros_le (runMax - 1) ds
    exact ⟨_, _, rest, hlimit, hlen, hrest, rfl, by simp, by simp; omega⟩
  · split at h
    · obtain ⟨rest, hrest, rfl⟩ := exists_of_map_eq_ok h
      have hband := (band d.natAbs).isLt
      refine ⟨0, _, rest, by simp, by simp, hrest, rfl, ?_⟩
      simp only [List.length_append, field_length, bandWidth_eq]
      omega
    · split at h
      · cases h
      · rename_i hlarge hfits
        obtain ⟨rest, hrest, rfl⟩ := exists_of_map_eq_ok h
        have hW := five_le_of_large (Nat.lt_of_not_le hlarge) (Nat.lt_of_not_le hfits)
        refine ⟨0, _, rest, by simp, by simp, hrest, rfl, ?_⟩
        simp only [List.length_append, field_length]
        omega

theorem encodeDeltas_length {W : LdWidth} {fuel : Nat} {ds : List Int} {bits : List Bool}
    (h : encodeDeltas W fuel ds = .ok bits) (hfuel : ds.length ≤ fuel) :
    5 * ((ds.length + 7) / 8) ≤ bits.length ∧ (6 ≤ W.toNat → bits.length ≤ ds.length * (3 + W.toNat)) := by
  induction fuel generalizing ds bits with
  | zero =>
    obtain rfl := List.length_eq_zero_iff.mp (Nat.le_zero.mp hfuel)
    cases h
    simp
  | succ fuel ih =>
    cases ds with
    | nil =>
      cases h
      simp
    | cons d ds =>
      obtain ⟨more, symbol, rest, hmore, hlen, hrest, rfl, hlow, hhigh⟩ := encodeDeltas_turn h
      simp only [List.length_cons] at hfuel
      obtain ⟨restLow, restHigh⟩ := ih hrest (by simp only [List.length_drop]; omega)
      simp only [List.length_drop, List.length_cons, List.length_append] at restLow restHigh ⊢
      refine ⟨by omega, fun hW => ?_⟩
      calc symbol.length + rest.length
          ≤ (3 + W.toNat) + (ds.length - more) * (3 + W.toNat) := Nat.add_le_add (hhigh hW) (restHigh hW)
        _ = (ds.length - more + 1) * (3 + W.toNat) := by ring
        _ ≤ (ds.length + 1) * (3 + W.toNat) := Nat.mul_le_mul_right _ (by omega)

/-- Settles O38: the raw sample and the Terminator have 10 bits, and each symbol between them is counted. -/
theorem canonicalStreamLengthBounds : Obligations.CanonicalStreamLengthBounds := by
  intro W S bits h
  cases S with
  | nil => cases h
  | cons x xs =>
    obtain ⟨mid, hmid, rfl⟩ := exists_of_map_eq_ok h
    obtain ⟨hlow, hhigh⟩ := encodeDeltas_length hmid (by simp)
    simp only [deltasFrom_length, List.length_cons, List.length_append, field_length, Nat.add_sub_cancel] at hlow hhigh ⊢
    exact ⟨by omega, fun hW => by have := hhigh hW; omega⟩

/-! ## A decode call and its stream -/

/-- The content of `DB` is the same, and its cursor has not moved back. -/
def StreamKept (s t : State) : Prop := t.db.bits = s.db.bits ∧ s.db.rp ≤ t.db.rp

/-- While `DEC` is in `RUN` no instruction writes the stream (R75, R136): the host's commands on `DB` are turned away,
and a symbol moves the cursor forward. -/
theorem effect_keeps_stream {i : Instr} {s t : State} (hm : s.dec.mode = .run) (h : Effect i s t) : StreamKept s t := by
  cases h with
  | buffer b B r _ hown =>
    cases b with
    | eb => exact ⟨rfl, le_rfl⟩
    | db => exact absurd hm hown
  | sampled | terminated | symbolRaised => exact ⟨rfl, Nat.le_add_right _ _⟩
  | _ => exact ⟨rfl, le_rfl⟩

/-- A decoder's turn runs an instruction at its state, or it settles with the stream kept (R181, R192). -/
theorem fetchSymbol_keeps_stream (s : State) :
    (∃ i, fetchSymbol s = .run i s) ∨ ∃ t, fetchSymbol s = .settle t ∧ StreamKept s t := by
  rcases fetchSymbol_cases s with hrun | hsame | ⟨-, n, -, hcut⟩
  · exact .inl hrun
  · exact .inr ⟨s, hsame, rfl, le_rfl⟩
  · exact .inr ⟨_, hcut, rfl, Nat.le_add_right _ _⟩

/-- Every move but the reset input runs an instruction, the head of the inbox taken, or settles with the stream kept. -/
theorem fetch_keeps_stream {s : State} (hreset : ∀ rest, s.inbox ≠ .reset :: rest) :
    ∃ l, (∃ i, fetch s = .run i (s.withInbox l)) ∨ ∃ t, fetch s = .settle t ∧ StreamKept s t := by
  have turn (h : s.inbox = [] ∨ ∃ rest, s.inbox = .decTurn :: rest) := fetch_turn h ▸ fetchSymbol_keeps_stream _
  cases hin : s.inbox with
  | nil => exact ⟨_, turn (.inl hin)⟩
  | cons a rest =>
    cases a with
    | reset => exact absurd hin (hreset rest)
    | decTurn => exact ⟨_, turn (.inr ⟨rest, hin⟩)⟩
    | cmd p =>
      refine ⟨rest, ?_⟩
      simp only [fetch, hin, fetchCommand]
      cases decodeCommand p with
      | ok i => exact .inl ⟨i, rfl⟩
      | error e => exact .inr ⟨_, rfl, rfl, le_rfl⟩

/-- Settles O48: the step runs an instruction, or settles; both keep the stream. -/
theorem decodeCallNeverWritesItsStream : Obligations.DecodeCallNeverWritesItsStream := by
  intro s t hm hreset h
  obtain ⟨l, ⟨i, hrun⟩ | ⟨u, hsettle, hkept⟩⟩ := fetch_keeps_stream hreset
  · exact effect_keeps_stream (s := s.withInbox l) hm (effect_of_exec ((step_of_run hrun).symm.trans h))
  · cases (step_of_settle hsettle).symm.trans h
    exact hkept

end Sys2Proof.Machine

/-! # Proofs: the encoding (30_encoding.md)

The two decoders invert the encoding, no pattern is reserved, band codes and small deltas are in bijection; what a delta
symbol and a Zero-Run do; and the batch decoder as a loop over decoded symbols, with what follows for its failures and
for the bits after the Terminator. -/

namespace Sys2Proof.Machine

/-! ## The Small-Delta symbols as one symbol of a band and a code -/

/-- The Small-Delta symbol of a band and a code (R94). -/
def smallInstr (k : Band) (c : Nat) : Instr :=
  match k with
  | 0 => .sdB0 (BitVec.ofNat 2 c)
  | 1 => .sdB1 (BitVec.ofNat 3 c)
  | 2 => .sdB2 (BitVec.ofNat 4 c)
  | 3 => .sdB3 (BitVec.ofNat 5 c)

@[simp] theorem smallInstr_wf (W : LdWidth) (k : Band) (c : Nat) : (smallInstr k c).wf W = true := by
  fin_cases k <;> rfl

@[simp] theorem smallInstr_atHdr (k : Band) (c : Nat) : (smallInstr k c).atHdr = true := by
  fin_cases k <;> rfl

theorem smallSymbol_smallInstr {k : Band} {c : Nat} (hc : c < 2 ^ (k.val + 2)) :
    smallSymbol (smallInstr k c) = some (k, c) := by
  fin_cases k <;> simpa [smallInstr, smallSymbol] using hc

theorem smallSymbol_some {i : Instr} {k : Band} {c : Nat} (h : smallSymbol i = some (k, c)) : i = smallInstr k c := by
  cases i <;> simp only [smallSymbol, Option.some.injEq, Prod.mk.injEq, reduceCtorEq] at h <;>
    obtain ⟨rfl, rfl⟩ := h <;> simp [smallInstr]

/-- The bits above `n - 1` of a value are not in its field (R62). -/
theorem field_mod (n v : Nat) : field n (v % 2 ^ n) = field n v := by
  simpa using field_fieldValue (field n v)

@[simp] theorem field_toNat_ofNat (n v : Nat) : field n (BitVec.ofNat n v).toNat = field n v := by
  rw [BitVec.toNat_ofNat, field_mod]

/-- The selector of a Small-Delta, its band and its code (R92). -/
theorem encode_smallInstr (W : LdWidth) (k : Band) (c : Nat) :
    encode W (smallInstr k c) = .stream (field 2 0b00 ++ field 2 k.val ++ field (k.val + 2) c) := by
  fin_cases k <;> simp only [smallInstr, encode, field_toNat_ofNat]

/-! ## The decoder of symbols, one equation per kind of symbol -/

/-- A field that stands at the head of the stream is read and passed, its value as it was written. -/
theorem readField_field {α : Type} {consumed n v : Nat} {rest : List Bool}
    {k : Nat → List Bool → Except DecodeError α} (hv : v < 2 ^ n) :
    readField consumed n (field n v ++ rest) k = k v rest := by
  rw [readField_append, Nat.mod_eq_of_lt hv]

theorem readField_congr {α : Type} {consumed n : Nat} {bits : List Bool}
    {k k' : Nat → List Bool → Except DecodeError α} (h : ∀ v rest, v < 2 ^ n → k v rest = k' v rest) :
    readField consumed n bits k = readField consumed n bits k' := by
  unfold readField
  rw [h _ _ (fieldValue_take_lt bits)]

/-- After its first two bits a Small-Delta is a band and a code two bits wider than the band's number (R92, R94). -/
theorem decodeSmall_eq (bits : List Bool) :
    decodeSmall bits = readField 2 2 bits fun k rest =>
      readField 4 (k + 2) rest fun c rest => .ok (smallInstr (Fin.ofNat 4 k) c, rest) := by
  refine readField_congr fun k rest hk => ?_
  interval_cases k <;> rfl

theorem decodeSymbol_header (W : LdWidth) (bits : List Bool) :
    decodeSymbol false W bits = readField 0 8 bits fun v rest => .ok (.raw8 (BitVec.ofNat 8 v), rest) := rfl

theorem decodeSymbol_small (W : LdWidth) (bits : List Bool) :
    decodeSymbol true W (field 2 0b00 ++ bits) = decodeSmall bits := rfl

theorem decodeSymbol_zr (W : LdWidth) (bits : List Bool) :
    decodeSymbol true W (field 2 0b01 ++ bits) =
      readField 2 3 bits fun n rest => .ok (.zr (BitVec.ofNat 3 n), rest) := rfl

theorem decodeSymbol_ld (W : LdWidth) (bits : List Bool) :
    decodeSymbol true W (field 2 0b10 ++ bits) = readField 2 1 bits fun s rest =>
      readField 3 W.toNat rest fun m rest => .ok (.ld (s == 1) (BitVec.ofNat 15 m), rest) := rfl

theorem decodeSymbol_term (W : LdWidth) (bits : List Bool) :
    decodeSymbol true W (field 2 0b11 ++ bits) = .ok (.term, bits) := rfl

/-! ## Decoding inverts encoding -/

theorem decodeSymbol_smallInstr (W : LdWidth) (k : Band) {c : Nat} (hc : c < 2 ^ (k.val + 2)) (rest : List Bool) :
    decodeSymbol true W (field 2 0b00 ++ field 2 k.val ++ field (k.val + 2) c ++ rest) =
      .ok (smallInstr k c, rest) := by
  rw [List.append_assoc, List.append_assoc, decodeSymbol_small, decodeSmall_eq, readField_field k.isLt,
    readField_field hc, Fin.ofNat_val_eq_self]

/-- The bits of a symbol, at its position and followed by any bits, are read as that symbol and no more (R91, R92). -/
theorem decodeSymbol_encode {W : LdWidth} {i : Instr} {read : List Bool} (hwf : i.wf W = true)
    (h : encode W i = .stream read) (rest : List Bool) : decodeSymbol i.atHdr W (read ++ rest) = .ok (i, rest) := by
  have small {k : Band} {c : Nat} (hi : smallSymbol i = some (k, c)) (hc : c < 2 ^ (k.val + 2)) :
      decodeSymbol i.atHdr W (read ++ rest) = .ok (i, rest) := by
    obtain rfl := smallSymbol_some hi
    cases (encode_smallInstr W k c).symm.trans h
    rw [smallInstr_atHdr, decodeSymbol_smallInstr W k hc]
  cases i with
  | raw8 v =>
    cases h
    change decodeSymbol false W _ = _
    rw [decodeSymbol_header, readField_field v.isLt, BitVec.ofNat_toNat, BitVec.setWidth_eq]
  | sdB0 c => exact small rfl c.isLt
  | sdB1 c => exact small rfl c.isLt
  | sdB2 c => exact small rfl c.isLt
  | sdB3 c => exact small rfl c.isLt
  | zr n =>
    cases h
    change decodeSymbol true W _ = _
    rw [List.append_assoc, decodeSymbol_zr, readField_field n.isLt, BitVec.ofNat_toNat, BitVec.setWidth_eq]
  | ld sign m =>
    have hm : m.toNat < 2 ^ W.toNat := by simpa [Instr.wf] using hwf
    cases h
    change decodeSymbol true W _ = _
    rw [List.append_assoc, List.append_assoc, decodeSymbol_ld, readField_field (Bool.toNat_lt sign), readField_field hm,
      BitVec.ofNat_toNat, BitVec.setWidth_eq]
    cases sign <;> rfl
  | term =>
    cases h
    exact decodeSymbol_term W rest
  | _ => cases h

theorem withWidth_of_le {n : FieldWidth} {i : Instr} (h : n.toNat ≤ fw) : withWidth n i = .ok i := if_pos h

/-- The packet of a command selects that command (R106). -/
theorem decodeCommand_encode {W : LdWidth} {i : Instr} {p : Packet} (hwf : i.wf W = true)
    (h : encode W i = .command p) : decodeCommand p = .ok i := by
  cases i with
  | raw8 | sdB0 | sdB1 | sdB2 | sdB3 | zr | ld | term => cases h
  | ebWrite v n | dbWrite v n | ebRead n | dbRead n =>
    cases h
    exact withWidth_of_le (by simpa [Instr.wf] using hwf)
  | _ =>
    cases h
    rfl

/-- Settles O6, from the decoder of symbols and the decoder of commands. -/
theorem decodeOfEncodeIsTheInstruction : Obligations.DecodeOfEncodeIsTheInstruction := by
  refine fun W i hwf => ⟨fun read rest h => decodeSymbol_encode hwf h rest, fun hdr p h => ?_⟩
  rw [decode, decodeCommand_encode hwf h]
  rfl

/-! ## What is decoded was encoded -/

/-- The head of `bits` is the encoding of `i`, a symbol of this position, and `rest` follows it. -/
def Encodes (hdr : Bool) (W : LdWidth) (i : Instr) (bits rest : List Bool) : Prop :=
  i.wf W = true ∧ i.atHdr = hdr ∧ ∃ read, encode W i = .stream read ∧ bits = read ++ rest

theorem two_pow_ldWidth_le (W : LdWidth) : 2 ^ W.toNat ≤ 2 ^ 15 := Nat.pow_le_pow_right two_pos (by omega)

theorem decodeSmall_encodes {W : LdWidth} {bits rest : List Bool} {i : Instr} (h : decodeSmall bits = .ok (i, rest)) :
    Encodes true W i (field 2 0b00 ++ bits) rest := by
  rw [decodeSmall_eq] at h
  obtain ⟨k, r, hk, rfl, hcode⟩ := readField_ok_field h
  obtain ⟨c, r, -, rfl, hok⟩ := readField_ok_field hcode
  cases hok
  refine ⟨smallInstr_wf .., smallInstr_atHdr .., _, encode_smallInstr .., ?_⟩
  rw [Fin.val_ofNat, Nat.mod_eq_of_lt (by exact hk), List.append_assoc, List.append_assoc]

/-- The symbol decoder reads a symbol of its position, and takes the bits of that symbol's encoding (R91, R92, R99). -/
theorem decodeSymbol_encodes {hdr : Bool} {W : LdWidth} {bits rest : List Bool} {i : Instr}
    (h : decodeSymbol hdr W bits = .ok (i, rest)) : Encodes hdr W i bits rest := by
  cases hdr with
  | false =>
    rw [decodeSymbol_header] at h
    obtain ⟨v, r, -, rfl, hok⟩ := readField_ok_field h
    cases hok
    exact ⟨rfl, rfl, _, rfl, by rw [field_toNat_ofNat]⟩
  | true =>
    rw [decodeSymbol, if_neg nofun] at h
    obtain ⟨p, r, hp, rfl, hbody⟩ := readField_ok_field h
    interval_cases p
    · exact decodeSmall_encodes hbody
    · obtain ⟨n, r, -, rfl, hok⟩ := readField_ok_field hbody
      cases hok
      exact ⟨rfl, rfl, _, rfl, by rw [field_toNat_ofNat, List.append_assoc]⟩
    · obtain ⟨s, r, hs, rfl, hmag⟩ := readField_ok_field hbody
      obtain ⟨m, r, hm, rfl, hok⟩ := readField_ok_field hmag
      cases hok
      have hval : (BitVec.ofNat 15 m).toNat = m := Nat.mod_eq_of_lt (hm.trans_le (two_pow_ldWidth_le W))
      have hsign : (s == 1).toNat = s := by interval_cases s <;> rfl
      refine ⟨decide_eq_true (by rwa [hval]), rfl, _, rfl, ?_⟩
      rw [hval, hsign, List.append_assoc, List.append_assoc]
    · cases hbody
      exact ⟨rfl, rfl, _, rfl, rfl⟩

/-- Settles O7: each kind of symbol, read field by field, is the encoding of those fields. -/
theorem encodeOfDecodeIsTheBits : Obligations.EncodeOfDecodeIsTheBits := fun _ _ _ _ _ => decodeSymbol_encodes

/-- Settles O8: the decoders compute each of these words. -/
theorem sampleWordsDecode : Obligations.SampleWordsDecode := ⟨rfl, rfl, rfl, rfl, rfl, rfl, rfl⟩

/-! ## No pattern is reserved -/

/-- With enough bits for a field, its read answers what its continuation answers. -/
theorem readField_total {α : Type} {consumed n : Nat} {bits : List Bool}
    {k : Nat → List Bool → Except DecodeError α} (hn : n ≤ bits.length)
    (hk : ∀ v rest, v < 2 ^ n → rest.length = bits.length - n → ∃ a, k v rest = .ok a) :
    ∃ a, readField consumed n bits k = .ok a := by
  rw [readField_enough _ _ hn]
  exact hk _ _ (fieldValue_take_lt bits) List.length_drop

theorem decodeSmall_total {bits : List Bool} (h : 7 ≤ bits.length) : ∃ a, decodeSmall bits = .ok a := by
  rw [decodeSmall_eq]
  exact readField_total (by omega) fun k r hk hr => readField_total (by omega) fun _ _ _ _ => ⟨_, rfl⟩

/-- 8 bits at the header position, 9 and `3 + W` bits after it, are enough for every symbol (R92, R100). -/
theorem decodeSymbol_total {hdr : Bool} {W : LdWidth} {bits : List Bool} (hW : 3 + W.toNat ≤ bits.length)
    (h9 : 9 ≤ bits.length) : ∃ a, decodeSymbol hdr W bits = .ok a := by
  cases hdr with
  | false => exact readField_total (by omega) fun _ _ _ _ => ⟨_, rfl⟩
  | true =>
    rw [decodeSymbol, if_neg nofun]
    refine readField_total (by omega) fun p r hp hr => ?_
    interval_cases p
    · exact decodeSmall_total (by omega)
    · exact readField_total (by omega) fun _ _ _ _ => ⟨_, rfl⟩
    · exact readField_total (by omega) fun s r _ hr => readField_total (by omega) fun _ _ _ _ => ⟨_, rfl⟩
    · exact ⟨_, rfl⟩

/-! ## Band codes (R94 to R96) -/

/-- The bounds of a band by its number: its codes have `k + 2` bits, `hi(k)` is all of them but two, `lo(k)` half of
that (R94). -/
theorem band_bounds (k : Band) : 2 ^ (k.val + 1) = bandLo k + 1 ∧ 2 ^ (k.val + 2) = bandHi k + 2 ∧
    bandHi k = 2 * bandLo k ∧ 1 ≤ bandLo k := by
  fin_cases k <;> decide

theorem bandK_eq (k : Band) : bandK k = bandHi k := by fin_cases k <;> rfl

theorem bandHalf_eq (k : Band) : bandHalf k = 2 ^ (k.val + 1) := by fin_cases k <;> rfl

theorem gen_neg {d : Int} (h : d < 0) (k : Band) : gen d k = (d + bandHi k).toNat := by rw [gen, if_pos h, bandK_eq]

theorem gen_pos {d : Int} (h : 0 < d) (k : Band) : gen d k = (d + 1).toNat := if_neg (by omega)

theorem rev_low {k : Band} {c : Nat} (h : c < 2 ^ (k.val + 1)) : rev c k = (c : Int) - bandHi k := by
  rw [rev, bandHalf_eq, if_pos h, bandK_eq]

theorem rev_high {k : Band} {c : Nat} (h : 2 ^ (k.val + 1) ≤ c) : rev c k = (c : Int) - 1 := by
  rw [rev, bandHalf_eq, if_neg (by omega)]

/-- Settles O12: the negative deltas of a band fill the lower half of its codes in order, the positive ones the upper
half. -/
theorem bandCodesAreABijection : Obligations.BandCodesAreABijection := by
  refine ⟨fun k d hlo hhi => ?_, fun k c hc => ?_⟩
  · obtain ⟨hhalf, hwidth, hdouble, hone⟩ := band_bounds k
    rcases lt_or_gt_of_ne (show d ≠ 0 by omega) with hneg | hpos
    · have hgen : (gen d k : Int) = d + bandHi k := by rw [gen_neg hneg]; omega
      have hlow : gen d k < 2 ^ (k.val + 1) := by omega
      exact ⟨fun _ => hgen, by omega, by omega, by omega, by rw [rev_low hlow]; omega⟩
    · have hgen : (gen d k : Int) = d + 1 := by rw [gen_pos hpos]; omega
      have hhigh : 2 ^ (k.val + 1) ≤ gen d k := by omega
      exact ⟨by omega, fun _ => hgen, by omega, by omega, by rw [rev_high hhigh]; omega⟩
  · obtain ⟨hhalf, hwidth, hdouble, hone⟩ := band_bounds k
    rcases Nat.lt_or_ge c (2 ^ (k.val + 1)) with hlow | hhigh
    · have hrev := rev_low hlow
      have hgen : gen (rev c k) k = c := by rw [gen_neg (by omega)]; omega
      exact ⟨by omega, by omega, hgen, fun _ => hrev, by omega⟩
    · have hrev := rev_high hhigh
      have hgen : gen (rev c k) k = c := by rw [gen_pos (by omega)]; omega
      exact ⟨by omega, by omega, hgen, by omega, fun _ => hrev⟩

/-! ## What a delta symbol and a Zero-Run do (R183 to R191) -/

/-- The delta of a Small-Delta or a Large-Delta (R96, R98). -/
def symbolDelta : Instr → Option Int
  | .sdB0 c => some (rev c.toNat 0)
  | .sdB1 c => some (rev c.toNat 1)
  | .sdB2 c => some (rev c.toNat 2)
  | .sdB3 c => some (rev c.toNat 3)
  | .ld sign m => some (signedMagnitude sign m.toNat)
  | _ => none

theorem symbolDelta_of_small {i : Instr} {k : Band} {c : Nat} (h : smallSymbol i = some (k, c)) :
    symbolDelta i = some (rev c k) := by
  cases i <;> simp only [smallSymbol, Option.some.injEq, Prod.mk.injEq, reduceCtorEq] at h <;>
    obtain ⟨rfl, rfl⟩ := h <;> rfl

/-- A Small-Delta or a Large-Delta is the read of its fields, and `ACC` of its delta. -/
theorem exec_delta {i : Instr} {d : Int} (hi : symbolDelta i = some d) (s : State) :
    exec i s = decSymbol true (fun t => (decFields (symbolFields t.dec.W i) t).andThen (acc d)) s := by
  cases i <;> simp only [symbolDelta, Option.some.injEq, reduceCtorEq] at hi <;> subst hi <;> rfl

section DeltaSymbol

variable {i : Instr} {d : Int} {s : State} (hi : symbolDelta i = some d) (hm : s.dec.mode = .run)
  (hh : s.dec.hdr = true) (ha : (symbolFields s.dec.W i).sum ≤ s.db.avail)

include hi hm hh ha

/-- A delta symbol whose bits are all there: they are consumed, then `ACC` is done. -/
theorem exec_delta_enough : exec i s = (acc d (advance (symbolFields s.dec.W i).sum s)).endStep := by
  rw [exec_delta hi, decSymbol_on hm hh, decFields_enough ha, Flow.andThen_ok]

theorem exec_delta_inRange {x : Sample} (hx : (x.toNat : Int) = s.dec.cur.toNat + d) :
    exec i s = .next (appendOut [x] (setCur x (advance (symbolFields s.dec.W i).sum s))) := by
  have hlt := x.isLt
  have hlow : 0 ≤ (s.dec.cur.toNat : Int) + d := by omega
  have hhigh : (s.dec.cur.toNat : Int) + d ≤ 255 := by omega
  rw [exec_delta_enough hi hm hh ha, acc_inRange (by exact hlow) (by exact hhigh), advance_dec, ofInt_sample hx,
    Flow.endStep_ok]

theorem exec_delta_outOfRange (hrange : (s.dec.cur.toNat : Int) + d < 0 ∨ 255 < (s.dec.cur.toNat : Int) + d) :
    exec i s = .next (errorEntry .dec .sampleRange (advance (symbolFields s.dec.W i).sum s)) := by
  rw [exec_delta_enough hi hm hh ha, acc_outOfRange (by exact hrange), Flow.endStep_raised]

end DeltaSymbol

/-- Settles O43: a Large-Delta is a delta symbol of `3 + W` bits. -/
theorem largeDeltaSymbolMovesTheValue : Obligations.LargeDeltaSymbolMovesTheValue := by
  intro sign m x s hm hh ha hx
  have hsum : (symbolFields s.dec.W (.ld sign m)).sum = 3 + s.dec.W.toNat := by
    simp only [symbolFields, List.sum_cons, List.sum_nil]
    omega
  rw [exec_delta_inRange (i := .ld sign m) rfl hm hh (by omega) hx, hsum]
  rfl

/-- Settles O45, from `ACC` of a delta symbol; a magnitude above 255 is more than any sample can take. -/
theorem sampleRangeLeavesTheOutput : Obligations.SampleRangeLeavesTheOutput := by
  refine ⟨fun i d s hm hh hd ha hrange => ?_, fun cur sign m hlarge => ?_⟩
  · have hi : symbolDelta i = some d := by
      rcases hd with ⟨k, c, hsmall, rfl⟩ | ⟨sign, m, rfl, rfl⟩
      · exact symbolDelta_of_small hsmall
      · rfl
    exact exec_delta_outOfRange hi hm hh ha hrange
  · have hcur := cur.isLt
    cases sign with
    | false => exact .inr (by simp only [signedMagnitude, Bool.false_eq_true, if_false]; omega)
    | true => exact .inl (by simp only [signedMagnitude, if_true]; omega)

/-- Settles O42: the two fields are read, and the copies are appended. -/
theorem zeroRunRepeatsTheValue : Obligations.ZeroRunRepeatsTheValue := by
  intro n s hm hh ha
  change decSymbol true (zrBody n.toNat) s = _
  rw [decSymbol_on hm hh, zrBody, decFields_enough (by exact ha)]
  rfl

/-! ## The batch decoder, one symbol a turn -/

/-- What a symbol after the header gives, by the current value: the new value and the samples appended, or the end of
the call at the Terminator, the only symbol there that has neither a delta nor copies (R188 to R191, R193). -/
def symbolOutput (cur : Sample) (i : Instr) : Except ErrCode (Option (Sample × List Sample)) :=
  match i, symbolDelta i with
  | .zr n, _ => .ok (some (cur, List.replicate (n.toNat + 1) cur))
  | _, some d => (addDelta cur d).map fun x => some (x, [x])
  | _, none => .ok none

theorem symbolOutput_delta {cur : Sample} {i : Instr} {d : Int} (h : symbolDelta i = some d) :
    symbolOutput cur i = (addDelta cur d).map fun x => some (x, [x]) := by
  cases i <;> simp only [symbolDelta, Option.some.injEq, reduceCtorEq] at h <;> subst h <;> rfl

theorem addDelta_error {cur : Sample} {d : Int} {k : ErrCode} (h : addDelta cur d = .error k) : k = .sampleRange := by
  unfold addDelta at h
  split at h
  · exact (Except.error.inj h).symm
  · cases h

theorem eq_error_of_map_eq_error {ε α β : Type} {f : α → β} {x : Except ε α} {e : ε} (h : x.map f = .error e) :
    x = .error e := by
  cases x with
  | error e' => exact congrArg _ (Except.error.inj h)
  | ok a => cases h

theorem symbolOutput_error {cur : Sample} {i : Instr} {k : ErrCode} (h : symbolOutput cur i = .error k) :
    k = .sampleRange := by
  unfold symbolOutput at h
  split at h
  · cases h
  · exact addDelta_error (eq_error_of_map_eq_error h)
  · cases h

/-- The rest of a call after a symbol, `loop` the turns that follow. -/
def continueWith (loop : Sample → List Sample → Except ErrCode (List Sample)) (out : List Sample) :
    Option (Sample × List Sample) → Except ErrCode (List Sample)
  | some (cur, samples) => loop cur (out ++ samples)
  | none => .ok out

/-- One turn of `decode(bits, W)` on what the symbol decoder reads, `loop` the turns that follow (R193). -/
def turnWith (loop : Sample → List Sample → List Bool → Except ErrCode (List Sample)) (cur : Sample)
    (out : List Sample) : Except DecodeError (Instr × List Bool) → Except ErrCode (List Sample)
  | .ok (i, rest) => (symbolOutput cur i).bind (continueWith (loop · · rest) out)
  | .error _ => .error .truncatedStream

section Turn

variable {loop : Sample → List Sample → List Bool → Except ErrCode (List Sample)} {cur : Sample} {out : List Sample}

/-- `take(n)` of the batch decoder is a field's read by the symbol decoder. -/
theorem takeBits_eq_turnWith {consumed n : Nat} {bits : List Bool}
    {k : Nat → List Bool → Except ErrCode (List Sample)}
    {k' : Nat → List Bool → Except DecodeError (Instr × List Bool)}
    (hk : ∀ v rest, v < 2 ^ n → k v rest = turnWith loop cur out (k' v rest)) :
    takeBits n bits k = turnWith loop cur out (readField consumed n bits k') := by
  rcases Nat.lt_or_ge bits.length n with hn | hn
  · rw [readField_short _ _ hn, takeBits, if_pos hn]
    rfl
  · rw [readField_enough _ _ hn, ← hk _ _ (fieldValue_take_lt bits), takeBits, if_neg (by omega)]

/-- `ACC` and the turns that follow. -/
theorem turnWith_delta {i : Instr} {d : Int} (rest : List Bool) (hi : symbolDelta i = some d) :
    (addDelta cur d).bind (fun x => loop x (out ++ [x]) rest) = turnWith loop cur out (.ok (i, rest)) := by
  rw [turnWith, symbolOutput_delta hi]
  cases addDelta cur d <;> rfl

/-- A turn that leads to an output: at the Terminator, or by the turns that follow. -/
theorem turnWith_ok {a : Except DecodeError (Instr × List Bool)} {result : List Sample}
    (h : turnWith loop cur out a = .ok result) : ∃ i rest, a = .ok (i, rest) ∧
      ((symbolOutput cur i = .ok none ∧ result = out) ∨
        ∃ x samples, symbolOutput cur i = .ok (some (x, samples)) ∧ loop x (out ++ samples) rest = .ok result) := by
  obtain e | ⟨i, rest⟩ := a
  · cases h
  · refine ⟨i, rest, rfl, ?_⟩
    rw [turnWith] at h
    rcases hi : symbolOutput cur i with e | _ | ⟨x, samples⟩ <;> rw [hi] at h
    · cases h
    · exact .inl ⟨rfl, (Except.ok.inj h).symm⟩
    · exact .inr ⟨x, samples, rfl, h⟩

/-- A turn that leads to an error: the stream is cut, the sum leaves the sample range, or a turn that follows fails. -/
theorem turnWith_error {a : Except DecodeError (Instr × List Bool)} {k : ErrCode}
    (h : turnWith loop cur out a = .error k) :
    k = .truncatedStream ∨ k = .sampleRange ∨ ∃ x samples rest, loop x samples rest = .error k := by
  obtain e | ⟨i, rest⟩ := a
  · exact .inl (Except.error.inj h).symm
  · rw [turnWith] at h
    rcases hi : symbolOutput cur i with e | _ | ⟨x, samples⟩ <;> rw [hi] at h
    · cases h
      exact .inr (.inl (symbolOutput_error hi))
    · cases h
    · exact .inr (.inr ⟨x, _, rest, h⟩)

end Turn

/-- The batch decoder's turn is the symbol decoder's read of one symbol, and what that symbol gives (R181, R193). -/
theorem decodeLoop_succ (W : LdWidth) (fuel : Nat) (cur : Sample) (out : List Sample) (bits : List Bool) :
    decodeLoop W (fuel + 1) cur out bits = turnWith (decodeLoop W fuel) cur out (decodeSymbol true W bits) := by
  rw [decodeSymbol, if_neg nofun]
  refine takeBits_eq_turnWith fun p r hp => ?_
  interval_cases p
  · rw [if_pos rfl]
    change _ = turnWith _ cur out (decodeSmall r)
    rw [decodeSmall_eq]
    refine takeBits_eq_turnWith fun k r hk => ?_
    refine takeBits_eq_turnWith fun c r hc => turnWith_delta r ?_
    refine symbolDelta_of_small (smallSymbol_smallInstr ?_)
    rwa [Fin.val_ofNat, Nat.mod_eq_of_lt (by exact hk)]
  · rw [if_neg nofun, if_pos rfl]
    refine takeBits_eq_turnWith fun n r hn => ?_
    have hval : (BitVec.ofNat 3 n).toNat = n := Nat.mod_eq_of_lt hn
    simp only [turnWith, symbolOutput, continueWith, Except.bind, hval]
  · rw [if_neg nofun, if_neg nofun, if_pos rfl]
    refine takeBits_eq_turnWith fun s r hs => ?_
    refine takeBits_eq_turnWith fun m r hm => turnWith_delta r ?_
    rw [symbolDelta, BitVec.toNat_ofNat, Nat.mod_eq_of_lt (hm.trans_le (two_pow_ldWidth_le W))]
  · rfl

/-- A stream is too short for the raw first sample, or begins with it (R90, R193). -/
theorem header_cases (bits : List Bool) :
    bits.length < 8 ∨ ∃ (v : Sample) (rest : List Bool), bits = field 8 v.toNat ++ rest := by
  rcases Nat.lt_or_ge bits.length 8 with hshort | hlong
  · exact .inl hshort
  · refine .inr ⟨BitVec.ofNat 8 (fieldValue (bits.take 8)), bits.drop 8, ?_⟩
    rw [field_toNat_ofNat, ← take_eq_field hlong, List.take_append_drop]

theorem decodeCall_short (W : LdWidth) {bits : List Bool} (h : bits.length < 8) :
    decodeCall W bits = .error .truncatedStream := if_pos h

theorem decodeCall_header (W : LdWidth) (v : Sample) (rest : List Bool) :
    decodeCall W (field 8 v.toNat ++ rest) = decodeLoop W (rest.length + 9) v [v] rest := by
  have hlen : (field 8 v.toNat ++ rest).length = rest.length + 8 := by simp [Nat.add_comm]
  have hvalue : BitVec.ofNat 8 (fieldValue (field 8 v.toNat)) = v := by
    rw [fieldValue_field, Nat.mod_eq_of_lt v.isLt, BitVec.ofNat_toNat, BitVec.setWidth_eq]
  rw [decodeCall, takeBits, if_neg (by omega), List.take_left' (field_length ..), List.drop_left' (field_length ..),
    hlen, hvalue]

/-! ## How a decode call fails (R100) -/

theorem decodeLoop_error {W : LdWidth} {fuel : Nat} {cur : Sample} {out : List Sample} {bits : List Bool} {k : ErrCode}
    (h : decodeLoop W fuel cur out bits = .error k) : k = .truncatedStream ∨ k = .sampleRange := by
  induction fuel generalizing cur out bits with
  | zero => exact .inl (Except.error.inj h).symm
  | succ fuel ih =>
    rw [decodeLoop_succ] at h
    obtain hcut | hrange | ⟨_, _, _, hrest⟩ := turnWith_error h
    · exact .inl hcut
    · exact .inr hrange
    · exact ih hrest

/-- Settles O9, from the symbol decoder on long streams and the turns of the batch decoder. -/
theorem noEncodingIsReserved : Obligations.NoEncodingIsReserved := by
  refine ⟨fun hdr W bits hW h9 => ?_, fun W bits k h => ?_⟩
  · obtain ⟨⟨i, rest⟩, hok⟩ := decodeSymbol_total (hdr := hdr) hW h9
    exact ⟨i, rest, hok⟩
  · obtain hshort | ⟨v, rest, rfl⟩ := header_cases bits
    · rw [decodeCall_short W hshort] at h
      exact .inl (Except.error.inj h).symm
    · rw [decodeCall_header] at h
      exact decodeLoop_error h

/-! ## The bits after the Terminator (R102) -/

/-- A symbol that is read is read with any bits appended (R91, R92). -/
theorem decodeSymbol_append {hdr : Bool} {W : LdWidth} {bits rest : List Bool} {i : Instr}
    (h : decodeSymbol hdr W bits = .ok (i, rest)) (padding : List Bool) :
    decodeSymbol hdr W (bits ++ padding) = .ok (i, rest ++ padding) := by
  obtain ⟨hwf, rfl, read, hread, rfl⟩ := decodeSymbol_encodes h
  rw [List.append_assoc]
  exact decodeSymbol_encode hwf hread _

theorem decodeLoop_append {W : LdWidth} {fuel : Nat} {cur : Sample} {out result : List Sample} {bits : List Bool}
    (h : decodeLoop W fuel cur out bits = .ok result) (more : Nat) (padding : List Bool) :
    decodeLoop W (fuel + more) cur out (bits ++ padding) = .ok result := by
  induction fuel generalizing cur out bits with
  | zero => cases h
  | succ fuel ih =>
    rw [decodeLoop_succ] at h
    obtain ⟨i, rest, hsymbol, hend⟩ := turnWith_ok h
    rw [Nat.add_right_comm, decodeLoop_succ, decodeSymbol_append hsymbol, turnWith]
    obtain ⟨hterm, rfl⟩ | ⟨x, samples, houtput, hrest⟩ := hend
    · rw [hterm]
      rfl
    · rw [houtput]
      exact ih hrest

/-- Settles O54: every turn reads the same symbol, and the Terminator ends the call. -/
theorem paddingAfterTheTerminatorIsIgnored : Obligations.PaddingAfterTheTerminatorIsIgnored := by
  intro W bits padding out h
  obtain hshort | ⟨v, rest, rfl⟩ := header_cases bits
  · rw [decodeCall_short W hshort] at h
    cases h
  · rw [decodeCall_header] at h
    rw [List.append_assoc, decodeCall_header, List.length_append, Nat.add_right_comm]
    exact decodeLoop_append h padding.length padding

end Sys2Proof.Machine

/-! # Proofs: the Bit Buffer commands (40_bit_buffer.md)

What each command of a buffer is decoded from, what it does where it completes, and what it leaves where it reaches a
`raise`. `PACK` stands with the byte image above. -/

namespace Sys2Proof.Machine

/-! ## The packets (R106) -/

/-- What the packet of a buffer's command selects, by its operation code `op` (R106, R107). -/
def BufId.decodeOp (b : BufId) (p : Packet) : Nat → Except DecodeError Instr
  | 0b000 => .ok b.clear
  | 0b001 => withWidth p.n (b.writeField p.value p.n)
  | 0b010 => withWidth p.n (b.readField p.n)
  | 0b011 => .ok b.packBytes
  | 0b100 => .ok (b.loadBytes p.bytes)
  | 0b101 => .ok (b.loadBits p.seq)
  | _ => .error (.unknownCommand p.cmd)

/-- The code of a buffer's command is `{unit, op}`, with the same operations for both buffers (R106). -/
theorem decodeCommand_buffer {b : BufId} {p : Packet} {op : BitVec 3} (h : p.cmd = b.unit ++ op) :
    decodeCommand p = b.decodeOp p op.toNat := by
  have hcode : p.cmd.toNat = 8 * b.unit.toNat + op.toNat := by
    rw [h, BitVec.toNat_append, ← Nat.shiftLeft_add_eq_or_of_lt op.isLt, Nat.shiftLeft_eq, Nat.mul_comm]
  have hop : op.toNat < 8 := op.isLt
  rw [decodeCommand, hcode]
  generalize op.toNat = k at hop
  cases b <;> interval_cases k <;> rfl

/-! ## `CLEAR` -/

theorem exec_clear_on {b : BufId} {s : State} (h : s.own b ≠ .run) :
    exec b.clear s = .next ((s.withBuf b .empty).respond .done) := (exec_clear b s).trans (bufClear_on h)

/-- Settles O14: both commands leave the empty buffer. -/
theorem clearEmptiesTheBuffer : Obligations.ClearEmptiesTheBuffer := by
  refine ⟨fun b p hp => decodeCommand_buffer hp, fun b s hown => ⟨_, exec_clear_on hown, ?_⟩,
    fun W s => ⟨_, rfl, rfl, rfl⟩⟩
  simp [BitBuffer.empty, BitBuffer.avail]

/-! ## `WRITE` -/

/-- An enabled `WRITE` of the host that does not fit (R131). -/
theorem exec_writeField_full {b : BufId} {v : FieldValue} {n : FieldWidth} {s : State} (h : s.own b ≠ .run)
    (hn : n.toNat ≤ fw) (hfull : s.cfg.cap.allows ((s.buf b).wp + n.toNat) = false) :
    exec (b.writeField v n) s = .next (s.respond (.error .overflow)) := by
  rw [exec_writeField, bufWrite_on h hn, BitBuffer.write_full hfull]
  rfl

/-- No bits appended to a buffer leave it as it was (R131). -/
theorem withBuf_append_nil (b : BufId) (s : State) :
    s.withBuf b { s.buf b with bits := (s.buf b).bits ++ [] } = s := by
  rw [List.append_nil]
  exact State.withBuf_self s b

theorem written_width_zero (b : BufId) (v : FieldValue) (s : State) : written b v 0 s = s.respond .done :=
  congrArg (State.respond · .done) (withBuf_append_nil b s)

/-- Settles O15: the field stands behind the earlier content; in legal pointers no bits always fit. -/
theorem writeAppendsTheField : Obligations.WriteAppendsTheField := by
  refine ⟨fun b p hp hn => (decodeCommand_buffer hp).trans (withWidth_of_le hn), fun b v n s hown hn =>
    ⟨fun hfit => ?_, exec_writeField_full hown hn, ?_⟩⟩
  · have hwrite : (s.buf b).write s.cfg.cap v.toNat n.toNat = some _ := BitBuffer.write_fits hfit
    refine ⟨_, exec_writeField_fits hown hn hfit, rfl, ?_, fun k hk => BitBuffer.bitAt_write hwrite hk,
      fun a ha => BitBuffer.bitAt_write_below hwrite ha⟩
    simp [BitBuffer.wp]
  · rintro rfl hwf
    rw [exec_writeField_fits hown hn (BitBuffer.wf_iff.mp (Memory.wf_buf hwf b)).2, written_width_zero]

/-! ## `READ` -/

/-- Bit `n - 1 - k` of the field at address `a` is the bit at `a + k` (R62, R9 `MemRead`). -/
theorem BitBuffer.bitAt_memRead {B : BitBuffer} {a n k : Nat} (h : n ≤ B.wp - a) (hk : k < n) :
    B.bitAt (a + k) = some ((B.memRead a n).testBit (n - 1 - k)) := by
  have hfield : (B.bits.drop a).take n = field n (B.memRead a n) := take_eq_field (by simpa [BitBuffer.wp] using h)
  rw [← field_getElem? n _ k hk, ← hfield, List.getElem?_take_of_lt hk, List.getElem?_drop]
  rfl

/-- Settles O16: the response is the field at the cursor. -/
theorem readReturnsTheNextBits : Obligations.ReadReturnsTheNextBits := by
  refine ⟨fun b p hp hn => (decodeCommand_buffer hp).trans (withWidth_of_le hn), fun b n s hown hn =>
    ⟨fun havail => ?_, fun hshort => (exec_readField b n s).trans (bufRead_short hown hn hshort)⟩⟩
  obtain ⟨r, hr, hread⟩ := exec_readField_enough hown hn havail
  refine ⟨r, hread, hr ▸ BitBuffer.memRead_lt _ _ _, fun k hk => ?_⟩
  rw [BitBuffer.bitAt_memRead havail hk, ← hr]
  rfl

/-! ## `LOADBYTES` and `LOADBITS` -/

/-- An enabled load of the host that fits. -/
theorem bufLoad_fits {b : BufId} {seq : List Bool} {s : State} (h : s.own b ≠ .run)
    (hfit : s.cfg.cap.allows seq.length = true) :
    bufLoad b seq s = .next ((s.withBuf b { bits := seq, rp := 0 }).respond .done) := by
  rw [bufLoad_on h, BitBuffer.load, if_pos hfit]
  rfl

/-- An enabled load of the host that does not fit. -/
theorem bufLoad_full {b : BufId} {seq : List Bool} {s : State} (h : s.own b ≠ .run)
    (hfull : s.cfg.cap.allows seq.length = false) : bufLoad b seq s = .next (s.respond (.error .overflow)) := by
  rw [bufLoad_on h, BitBuffer.load, if_neg (by simp [hfull])]
  rfl

/-- Settles O18: the content is the bits of the bytes, 8 for each. -/
theorem loadBytesReplacesTheContent : Obligations.LoadBytesReplacesTheContent := by
  refine ⟨fun b p hp => decodeCommand_buffer hp, fun b ys s hown => ?_⟩
  rw [exec_loadBytes, ← bitsOfBytes_length]
  exact ⟨fun hfit => ⟨_, bufLoad_fits hown hfit, rfl, rfl, fun j y hy k hk => bitsOfBytes_getElem? hy hk⟩,
    bufLoad_full hown⟩

/-- The host's `WRITE` of one bit. -/
theorem exec_writeField_bit {b : BufId} {x : Bool} {s : State} (h : s.own b ≠ .run)
    (hfit : s.cfg.cap.allows ((s.buf b).wp + 1) = true) :
    exec (b.writeField (if x then 1 else 0) 1) s =
      .next ((s.withBuf b { s.buf b with bits := (s.buf b).bits ++ [x] }).respond .done) := by
  rw [exec_writeField_fits (n := 1) h (by decide) hfit]
  cases x <;> rfl

/-- One `WRITE` of width 1 per bit appends the sequence. The response of the command before them is `done`, so that no
`WRITE` at all leaves the same response as some (R135). -/
theorem execAll_writeField_bits {b : BufId} {seq : List Bool} {s : State} (h : s.own b ≠ .run)
    (hfit : s.cfg.cap.allows ((s.buf b).wp + seq.length) = true) :
    execAll (seq.map fun x => b.writeField (if x then 1 else 0) 1) (s.respond .done) =
      .next ((s.withBuf b { s.buf b with bits := (s.buf b).bits ++ seq }).respond .done) := by
  induction seq generalizing s with
  | nil => rw [withBuf_append_nil]; rfl
  | cons x xs ih =>
    rw [List.length_cons] at hfit
    have hbit := exec_writeField_bit (b := b) (x := x) (s := s.respond .done) (by simpa using h)
      (by simpa using Cap.allows_mono (by omega) hfit)
    have hrest := ih (s := s.withBuf b { s.buf b with bits := (s.buf b).bits ++ [x] }) (by simpa using h)
      (by simpa [BitBuffer.wp, Nat.add_assoc, Nat.add_comm] using hfit)
    simp only [List.map_cons, execAll, hbit]
    simpa using hrest

/-- Settles O19: after `CLEAR`, the `WRITE`s append the sequence to nothing. -/
theorem loadBitsReplacesTheContent : Obligations.LoadBitsReplacesTheContent := by
  refine ⟨fun b p hp => decodeCommand_buffer hp, fun b seq s hown => ?_⟩
  rw [exec_loadBits]
  refine ⟨fun hfit => ⟨bufLoad_fits hown hfit, ?_⟩, bufLoad_full hown⟩
  have hwrites := execAll_writeField_bits (b := b) (seq := seq) (s := s.withBuf b .empty) (by simpa using hown)
    (by simpa [BitBuffer.empty] using hfit)
  simp only [execAll, exec_clear_on hown, bufLoad_fits hown hfit]
  simpa [BitBuffer.empty] using hwrites

/-! ## Errors -/

/-- Where a result answers an error, the code is 3 or 6 and nothing but the response has changed (R137). -/
def RaisesCleanly (s : State) (r : Result) : Prop :=
  ∀ t k, r = .next t → t.resp = .error k → t = s.respond (.error k) ∧ (k.code = 3 ∨ k.code = 6)

section RaisesCleanly

variable {s : State}

theorem RaisesCleanly.of_answer {u : State} {a : Response} (ha : ∀ k, a ≠ .error k) :
    RaisesCleanly s (.next (u.respond a)) := by
  rintro _ k ⟨⟩ hk
  exact absurd hk (ha k)

theorem RaisesCleanly.of_error {k : ErrCode} (hk : k.code = 3 ∨ k.code = 6) :
    RaisesCleanly s (.next (s.respond (.error k))) := by
  rintro _ _ ⟨⟩ ⟨⟩
  exact ⟨rfl, hk⟩

theorem RaisesCleanly.whenIdleOwner {b : BufId} {r : Result} (h : RaisesCleanly s r) :
    RaisesCleanly s (whenIdleOwner b s r) := by
  unfold Machine.whenIdleOwner
  split
  · exact of_answer nofun
  · exact h

theorem RaisesCleanly.endBufferCommand (b : BufId) (B : Option BitBuffer) :
    RaisesCleanly s (endBufferCommand b .overflow s B) := by
  cases B with
  | none => exact .of_error (.inr rfl)
  | some B => exact .of_answer nofun

theorem raisesCleanly_buffer {i : Instr} {b : BufId} (hi : bufferOf i = some b) : RaisesCleanly s (exec i s) := by
  rcases bufferCommand_form hi with rfl | ⟨v, n, rfl⟩ | ⟨n, rfl⟩ | rfl | ⟨ys, rfl⟩ | ⟨seq, rfl⟩
  · rw [exec_clear, bufClear]
    exact .whenIdleOwner (.endBufferCommand b _)
  · rw [exec_writeField, bufWrite]
    refine .whenIdleOwner ?_
    split
    · exact .of_answer nofun
    · exact .endBufferCommand b _
  · rw [exec_readField, bufRead]
    refine .whenIdleOwner ?_
    split
    · exact .of_answer nofun
    · split
      · exact .of_answer nofun
      · exact .of_error (.inl rfl)
  · rw [exec_packBytes, bufPack]
    exact .whenIdleOwner (.of_answer nofun)
  · rw [exec_loadBytes, bufLoad]
    exact .whenIdleOwner (.endBufferCommand b _)
  · rw [exec_loadBits, bufLoad]
    exact .whenIdleOwner (.endBufferCommand b _)

end RaisesCleanly

/-- Settles O21: `CLEAR`, `WRITE` and the loads can answer `Overflow` only, `READ` `Underflow` only. -/
theorem failedBufferCommandChangesNothing : Obligations.FailedBufferCommandChangesNothing :=
  fun _ _ _ t k hi => raisesCleanly_buffer hi t k

end Sys2Proof.Machine

/-! # Proofs: the encoder (41_encoder.md)

What each form of `ENC.PUSH` and `ENC.FINISH` writes and where it stops; the stream of a whole call, sample by sample,
which is both what the commands append and what `encode(S, W)` gives; and that a decode call of that stream gives the
samples back, by the batch decoder and by the machine. -/

namespace Sys2Proof.Machine

/-! ## The symbols as fields to write -/

/-- A Zero-Run symbol of field `n`, value and width of each field (R156). -/
def zeroRun (n : Nat) : List (Nat × Nat) := [(0b01, 2), (n, 3)]

/-- The symbol of a pending run, nothing where no run is pending (R151). -/
def pendingSymbol (r : BitVec 3) : List (Nat × Nat) := if r = 0 then [] else zeroRun (r.toNat - 1)

/-- The Small-Delta symbol of a band and a code (R157 to R160). -/
def smallFields (k : Band) (c : Nat) : List (Nat × Nat) := [(0b00, 2), (k.val, 2), (c, bandWidth k)]

/-- The Large-Delta symbol of a delta (R161). -/
def largeFields (W : LdWidth) (d : Int) : List (Nat × Nat) :=
  [(0b10, 2), (if d < 0 then 1 else 0, 1), (d.natAbs, W.toNat)]

/-- The symbol of a delta that is not zero, or `OutOfRange` where it has none (R152, R164). -/
def deltaSymbol (W : LdWidth) (d : Int) : Except ErrCode (List (Nat × Nat)) :=
  if d.natAbs ≤ sdMax then .ok (smallFields (band d.natAbs) (gen d (band d.natAbs)))
  else if 2 ^ W.toNat ≤ d.natAbs then .error .outOfRange
  else .ok (largeFields W d)

@[simp] theorem emitted_pendingSymbol (r : BitVec 3) : emitted (pendingSymbol r) = pendingRun r := by
  by_cases h : r = 0
  · rw [pendingRun_of_zero h, pendingSymbol, if_pos h, emitted]
  · rw [pendingRun_of_pos h, pendingSymbol, if_neg h, zeroRun]

theorem pendingRun_length_le (r : BitVec 3) : (pendingRun r).length ≤ 5 := by
  unfold pendingRun
  split <;> simp

/-- The band that covers a magnitude is the one selected (R153). -/
theorem band_eq_of_covers {k : Band} {a : Nat} (hlo : bandLo k ≤ a) (hhi : a ≤ bandHi k) : band a = k := by
  unfold band
  fin_cases k <;> simp only [bandLo, bandHi] at hlo hhi
  · rw [if_pos hhi]
    rfl
  · rw [if_neg (by omega), if_pos hhi]
    rfl
  · rw [if_neg (by omega), if_neg (by omega), if_pos hhi]
    rfl
  · rw [if_neg (by omega), if_neg (by omega), if_neg (by omega)]
    rfl

/-- The band selected for a small magnitude covers it (R153). -/
theorem band_covers {a : Nat} (h1 : 1 ≤ a) (h30 : a ≤ 30) : bandLo (band a) ≤ a ∧ a ≤ bandHi (band a) := by
  unfold band
  split_ifs <;> simp only [bandLo, bandHi] <;> omega

theorem bandHi_le (k : Band) : bandHi k ≤ 30 := by fin_cases k <;> decide

theorem deltaSymbol_small {W : LdWidth} {k : Band} {d : Int} (hlo : bandLo k ≤ d.natAbs) (hhi : d.natAbs ≤ bandHi k) :
    deltaSymbol W d = .ok (smallFields k (gen d k)) := by
  rw [deltaSymbol, if_pos (hhi.trans (bandHi_le k)), band_eq_of_covers hlo hhi]

theorem deltaSymbol_large {W : LdWidth} {d : Int} (hlarge : 30 < d.natAbs) (hfits : d.natAbs < 2 ^ W.toNat) :
    deltaSymbol W d = .ok (largeFields W d) := by
  rw [deltaSymbol, if_neg (Nat.not_le.mpr hlarge), if_neg (Nat.not_le.mpr hfits)]

theorem deltaSymbol_outOfRange {W : LdWidth} {d : Int} (hlarge : 30 < d.natAbs) (hwide : 2 ^ W.toNat ≤ d.natAbs) :
    deltaSymbol W d = .error .outOfRange := by
  rw [deltaSymbol, if_neg (Nat.not_le.mpr hlarge), if_pos hwide]

/-- A delta that is not zero has a Small-Delta symbol, a Large-Delta symbol, or none. -/
theorem deltaSymbol_cases (W : LdWidth) {d : Int} (hd : d ≠ 0) :
    (∃ k, bandLo k ≤ d.natAbs ∧ d.natAbs ≤ bandHi k ∧ deltaSymbol W d = .ok (smallFields k (gen d k))) ∨
    (30 < d.natAbs ∧ d.natAbs < 2 ^ W.toNat ∧ deltaSymbol W d = .ok (largeFields W d)) ∨
    (30 < d.natAbs ∧ 2 ^ W.toNat ≤ d.natAbs ∧ deltaSymbol W d = .error .outOfRange) := by
  rcases Nat.lt_or_ge 30 d.natAbs with hlarge | hsmall
  · rcases Nat.lt_or_ge d.natAbs (2 ^ W.toNat) with hfits | hwide
    · exact .inr (.inl ⟨hlarge, hfits, deltaSymbol_large hlarge hfits⟩)
    · exact .inr (.inr ⟨hlarge, hwide, deltaSymbol_outOfRange hlarge hwide⟩)
  · obtain ⟨hlo, hhi⟩ := band_covers (by omega) hsmall
    exact .inl ⟨_, hlo, hhi, deltaSymbol_small hlo hhi⟩

/-- A symbol has bits, and the longest is a Large-Delta at `W = 15` (R92). -/
theorem deltaSymbol_length {W : LdWidth} {d : Int} {symbol : List (Nat × Nat)} (hd : d ≠ 0)
    (h : deltaSymbol W d = .ok symbol) : 0 < (emitted symbol).length ∧ (emitted symbol).length ≤ 18 := by
  rcases deltaSymbol_cases W hd with ⟨k, -, -, hk⟩ | ⟨-, -, hk⟩ | ⟨-, -, hk⟩ <;> cases hk.symm.trans h
  · have := k.isLt
    simp only [smallFields, emitted, bandWidth_eq, List.length_append, field_length, List.length_nil]
    omega
  · have := W.isLt
    simp only [largeFields, emitted, List.length_append, field_length, List.length_nil]
    omega

/-! ## A run, a symbol, and what comes after them

Every command that writes after the first sample of a call writes the fields of a run and clears `E.run`, then the fields
of a symbol, then goes on. -/

/-- The run is written, and `E.run` cleared (R151). -/
def writeRun (run : List (Nat × Nat)) (s : State) : Flow := (emitFields run s).andThen fun t => .ok (setRun 0 t)

/-- The run, the symbol, and `next` after both. -/
def emission (run symbol : List (Nat × Nat)) (next : State → Flow) (s : State) : Flow :=
  (writeRun run s).andThen fun t => (emitFields symbol t).andThen next

theorem flushRun_eq_writeRun (s : State) : flushRun s = writeRun (pendingSymbol s.enc.run) s := by
  by_cases h : s.enc.run = 0
  · rw [flushRun_of_zero h, pendingSymbol, if_pos h, writeRun, emitFields, Flow.andThen_ok, setRun_of_eq h]
  · rw [flushRun_of_pos h, pendingSymbol, if_neg h, writeRun, zeroRun]

section Emission

variable {run symbol : List (Nat × Nat)} {next : State → Flow} {s : State}

/-- After a run has been written `E.W` is what it was. -/
theorem writeRun_andThen_congr {f g : State → Flow} (h : ∀ t : State, t.enc.W = s.enc.W → f t = g t) :
    (writeRun run s).andThen f = (writeRun run s).andThen g := by
  unfold writeRun
  rcases emitFields_cases run s with ⟨hok, -⟩ | ⟨-, _, -, -, hraise⟩
  · rw [hok]
    exact h _ rfl
  · rw [hraise]
    rfl

theorem writeRun_fits (h : s.cfg.cap.allows (s.eb.wp + (emitted run).length) = true) :
    writeRun run s = .ok (encodedUntil (emitted run) 0 s) := by
  rw [writeRun, emitFields_fits h]
  rfl

theorem emission_fits (h : s.cfg.cap.allows (s.eb.wp + (emitted run ++ emitted symbol).length) = true) :
    emission run symbol next s = next (encodedUntil (emitted run ++ emitted symbol) 0 s) := by
  rw [List.length_append, ← Nat.add_assoc] at h
  have hsymbol : emitFields symbol (encodedUntil (emitted run) 0 s) = _ :=
    emitFields_fits (by simpa [encodedUntil] using h)
  rw [emission, writeRun_fits (Cap.allows_mono (by omega) h), Flow.andThen_ok, hsymbol, Flow.andThen_ok]
  simp [encodedUntil, appendEb, State.withBuf, State.withEnc]

/-- The first field that does not fit stops the emission: the fields before it are written, and `E.run` is cleared where
the run was written in full (R151, R216). -/
theorem emission_stops {l m : List (Nat × Nat)} {v n : Nat} (hfields : run ++ symbol = l ++ (v, n) :: m)
    (hl : l = [] ∨ s.cfg.cap.allows (s.eb.wp + (emitted l).length) = true)
    (hn : s.cfg.cap.allows (s.eb.wp + (emitted l).length + n) = false) :
    emission run symbol next s =
      .raised .overflow (encodedUntil (emitted l) (if run.length ≤ l.length then 0 else s.enc.run) s) := by
  by_cases hlen : run.length ≤ l.length
  · obtain ⟨l', rfl⟩ : run <+: l := List.prefix_of_prefix_length_le ⟨symbol, hfields⟩ (List.prefix_append _ _) hlen
    obtain rfl : symbol = l' ++ (v, n) :: m := by simpa using hfields
    have hrun : writeRun run s = .ok (encodedUntil (emitted run) 0 s) := by
      rcases hl with hl | hl
      · obtain ⟨rfl, -⟩ := List.append_eq_nil_iff.mp hl
        rw [writeRun, emitFields, emitted, Flow.andThen_ok, encodedUntil, appendEb_nil, setRun]
      · exact writeRun_fits (Cap.allows_mono (by simp) hl)
    have hstop : emitFields (l' ++ (v, n) :: m) (encodedUntil (emitted run) 0 s) = _ :=
      emitFields_stops (by simpa [encodedUntil, Nat.add_assoc] using hl.imp_left (List.append_eq_nil_iff.mp · |>.2))
        (by simpa [encodedUntil, Nat.add_assoc] using hn)
    rw [emission, hrun, Flow.andThen_ok, hstop, if_pos hlen]
    simp [encodedUntil, appendEb, State.withBuf, State.withEnc]
  · obtain ⟨rest, rfl⟩ : l <+: run :=
      List.prefix_of_prefix_length_le (List.prefix_append _ _) ⟨symbol, hfields⟩ (Nat.le_of_not_le hlen)
    cases rest with
    | nil => simp at hlen
    | cons f m' =>
      obtain ⟨rfl, -⟩ : f = (v, n) ∧ m' ++ symbol = m := by simpa using hfields
      rw [emission, writeRun, emitFields_stops hl hn, if_neg hlen]
      rfl

end Emission

/-! ## The commands as emissions -/

/-- The class of a delta that is not zero (R152). -/
theorem classify_of_ne_zero {d : Int} (hd : d ≠ 0) :
    classify d = if d.natAbs ≤ sdMax then .small else .large := if_neg hd

section Commands

variable {x : Sample} {s : State}

theorem pushBody_first (hh : s.enc.haveFirst = false) : pushBody x s = pushFirst x s := if_pos hh

/-- A push of the previous sample (R151 `ZERO`). -/
theorem pushBody_zero (hh : s.enc.haveFirst = true) (hd : delta x s.enc.prev = 0) : pushBody x s = pushZero s := by
  rw [pushBody, if_neg (by simp [hh]), hd]
  rfl

theorem pushZero_counts (hr : s.enc.run ≠ 7) : pushZero s = .ok (setRun (s.enc.run + 1) s) := if_neg hr

/-- The eighth repeat writes the longest Zero-Run (R151, R156). -/
theorem pushZero_eighth (hr : s.enc.run = 7) : pushZero s = emission (zeroRun 7) [] .ok s := by
  rw [pushZero, if_pos hr, emission, writeRun]
  change (emitFields (zeroRun 7) s).andThen _ = _
  cases emitFields (zeroRun 7) s <;> rfl

/-- A push of another sample whose delta has a symbol: the pending run, then the symbol (R151 `SMALL`, `LARGE`). -/
theorem pushBody_symbol {symbol : List (Nat × Nat)} (hh : s.enc.haveFirst = true) (hd : delta x s.enc.prev ≠ 0)
    (hsym : deltaSymbol s.enc.W (delta x s.enc.prev) = .ok symbol) :
    pushBody x s = emission (pendingSymbol s.enc.run) symbol (fun t => .ok (setPrev x t)) s := by
  rw [pushBody, if_neg (by simp [hh]), classify_of_ne_zero hd]
  rcases Nat.lt_or_ge sdMax (delta x s.enc.prev).natAbs with hlarge | hsmall
  · rw [if_neg (Nat.not_le.mpr hlarge)]
    rw [deltaSymbol, if_neg (Nat.not_le.mpr hlarge)] at hsym
    split at hsym
    · cases hsym
    · rename_i hfits
      cases hsym
      change pushLarge _ _ _ = _
      rw [pushLarge, flushRun_eq_writeRun, emission]
      refine writeRun_andThen_congr fun t ht => ?_
      rw [ht, if_neg hfits, emitLd, ht]
      rfl
  · rw [if_pos hsmall]
    rw [deltaSymbol, if_pos hsmall] at hsym
    cases hsym
    change pushSmall _ _ _ = _
    rw [pushSmall, flushRun_eq_writeRun]
    rfl

/-- A push of a sample whose delta has no symbol: the pending run is written, then the error is raised (R164, R220
(a)). -/
theorem pushBody_noSymbol {k : ErrCode} (hh : s.enc.haveFirst = true) (hd : delta x s.enc.prev ≠ 0)
    (hsym : deltaSymbol s.enc.W (delta x s.enc.prev) = .error k) :
    pushBody x s = emission (pendingSymbol s.enc.run) [] (.raised k) s := by
  rw [pushBody, if_neg (by simp [hh]), classify_of_ne_zero hd]
  unfold deltaSymbol at hsym
  split at hsym
  · cases hsym
  · rename_i hlarge
    split at hsym
    · rename_i hwide
      cases hsym
      rw [if_neg hlarge]
      change pushLarge _ _ _ = _
      rw [pushLarge, flushRun_eq_writeRun, emission]
      refine writeRun_andThen_congr fun t ht => ?_
      rw [ht, if_pos hwide]
      rfl
    · cases hsym

theorem finishBody_empty (hh : s.enc.haveFirst = false) : finishBody s = .raised .emptyInput s := if_pos hh

/-- `ENC.FINISH` after a sample: the pending run, then the Terminator (R162, R163). -/
theorem finishBody_symbols (hh : s.enc.haveFirst = true) : finishBody s = emission (pendingSymbol s.enc.run) [(0b11, 2)]
    (fun t => .ok (t.withEnc { t.enc with mode := .done })) s := by
  rw [finishBody, if_neg (by simp [hh]), flushRun_eq_writeRun]
  rfl

/-! What `exec` answers where the bits fit. -/

section Fits

variable (hm : s.enc.mode = .run) (hh : s.enc.haveFirst = true)

include hm

theorem exec_push_first (hh : s.enc.haveFirst = false) (hfit : s.cfg.cap.allows (s.eb.wp + 8) = true) :
    exec (.encPush x) s = .next (((appendEb (field 8 x.toNat) s).withEnc
      { s.enc with prev := x, haveFirst := true }).respond .done) := by
  have hraw : emitRaw8 x s = .ok (appendEb (field 8 x.toNat) s) := by
    simpa [emitted, emitRaw8] using emitFields_fits (l := [(x.toNat, 8)]) (by simpa [emitted] using hfit)
  rw [exec_push_on hm, pushBody_first hh, pushFirst, hraw]
  rfl

include hh

theorem exec_push_counts (hd : delta x s.enc.prev = 0) (hr : s.enc.run ≠ 7) :
    exec (.encPush x) s = .next ((setRun (s.enc.run + 1) s).respond .done) := by
  rw [exec_push_on hm, pushBody_zero hh hd, pushZero_counts hr, Flow.endCommand_ok]

theorem exec_push_eighth (hd : delta x s.enc.prev = 0) (hr : s.enc.run = 7)
    (hfit : s.cfg.cap.allows (s.eb.wp + 5) = true) :
    exec (.encPush x) s = .next ((encodedUntil (emitted (zeroRun 7)) 0 s).respond .done) := by
  rw [exec_push_on hm, pushBody_zero hh hd, pushZero_eighth hr, emission_fits (by exact hfit)]
  rfl

theorem exec_push_symbol {symbol : List (Nat × Nat)} (hd : delta x s.enc.prev ≠ 0)
    (hsym : deltaSymbol s.enc.W (delta x s.enc.prev) = .ok symbol)
    (hfit : s.cfg.cap.allows (s.eb.wp + (pendingRun s.enc.run ++ emitted symbol).length) = true) :
    exec (.encPush x) s =
      .next ((setPrev x (encodedUntil (pendingRun s.enc.run ++ emitted symbol) 0 s)).respond .done) := by
  rw [exec_push_on hm, pushBody_symbol hh hd hsym, emission_fits (by simpa using hfit), emitted_pendingSymbol,
    Flow.endCommand_ok]

theorem exec_push_noSymbol {k : ErrCode} (hd : delta x s.enc.prev ≠ 0)
    (hsym : deltaSymbol s.enc.W (delta x s.enc.prev) = .error k)
    (hfit : s.cfg.cap.allows (s.eb.wp + (pendingRun s.enc.run).length) = true) :
    exec (.encPush x) s =
      .next ((errorEntry .enc k (encodedUntil (pendingRun s.enc.run) 0 s)).respond (.error k)) := by
  rw [exec_push_on hm, pushBody_noSymbol hh hd hsym, emission_fits (by simpa [emitted] using hfit),
    emitted_pendingSymbol, emitted, List.append_nil, Flow.endCommand_raised]

theorem exec_finish_fits (hfit : s.cfg.cap.allows (s.eb.wp + (pendingRun s.enc.run).length + 2) = true) :
    exec .encFinish s = .next ((encoded (pendingRun s.enc.run ++ field 2 0b11) s.enc.prev 0 .done s).respond .done) := by
  rw [exec_finish_on hm, finishBody_symbols hh, emission_fits (by simpa [emitted, Nat.add_assoc] using hfit)]
  simp [emitted, encoded, encodedUntil, State.withEnc, hh]

end Fits

end Commands

/-! ## The stream of a call, delta by delta -/

/-- What `ENC` appends for the deltas `ds` and the end of the call, the Terminator left out, when the run `r` is pending
(R151, R162); the error is that of the first delta that has no symbol. -/
def streamFrom (W : LdWidth) : BitVec 3 → List Int → Except ErrCode (List Bool)
  | r, [] => .ok (pendingRun r)
  | r, d :: ds =>
    if d = 0 then
      if r = 7 then (streamFrom W 0 ds).map (emitted (zeroRun 7) ++ ·) else streamFrom W (r + 1) ds
    else
      (deltaSymbol W d).bind fun symbol => (streamFrom W 0 ds).map (pendingRun r ++ emitted symbol ++ ·)

section StreamFrom

variable {W : LdWidth} {r : BitVec 3} {d : Int} {ds : List Int}

theorem streamFrom_counts (hr : r ≠ 7) : streamFrom W r (0 :: ds) = streamFrom W (r + 1) ds := by
  rw [streamFrom, if_pos rfl, if_neg hr]

theorem streamFrom_eighth : streamFrom W 7 (0 :: ds) = (streamFrom W 0 ds).map (emitted (zeroRun 7) ++ ·) := by
  rw [streamFrom, if_pos rfl, if_pos rfl]

theorem streamFrom_symbol {symbol : List (Nat × Nat)} (hd : d ≠ 0) (hsym : deltaSymbol W d = .ok symbol) :
    streamFrom W r (d :: ds) = (streamFrom W 0 ds).map (pendingRun r ++ emitted symbol ++ ·) := by
  rw [streamFrom, if_neg hd, hsym]
  rfl

theorem streamFrom_noSymbol {k : ErrCode} (hd : d ≠ 0) (hsym : deltaSymbol W d = .error k) :
    streamFrom W r (d :: ds) = .error k := by
  rw [streamFrom, if_neg hd, hsym]
  rfl

end StreamFrom

/-! ## `encode(S, W)` is that stream -/

theorem toNat_run_succ {r : BitVec 3} (hr : r ≠ 7) : (r + 1).toNat = r.toNat + 1 ∧ r + 1 ≠ 0 := by
  revert r
  decide

theorem toNat_run_pos {r : BitVec 3} (hr : r ≠ 0) : 0 < r.toNat := by
  revert r
  decide

theorem leadingZeros_cons_zero (limit : Nat) (ds : List Int) :
    leadingZeros (limit + 1) (0 :: ds) = leadingZeros limit ds + 1 := if_pos rfl

theorem leadingZeros_cons_ne_zero (limit : Nat) {d : Int} (hd : d ≠ 0) (ds : List Int) :
    leadingZeros limit (d :: ds) = 0 := by
  cases limit with
  | zero => rfl
  | succ limit => exact if_neg hd

theorem except_map_map {ε α β γ : Type} (f : α → β) (g : β → γ) (x : Except ε α) :
    (x.map f).map g = x.map fun a => g (f a) := by
  cases x <;> rfl

/-- A pending run takes up the zero deltas that follow, as many as make it 8 long, and is written as one symbol (R151,
R165). -/
theorem streamFrom_pending {W : LdWidth} {r : BitVec 3} (hr : r ≠ 0) (ds : List Int) :
    streamFrom W r ds = (streamFrom W 0 (ds.drop (leadingZeros (8 - r.toNat) ds))).map
      (emitted (zeroRun (r.toNat - 1 + leadingZeros (8 - r.toNat) ds)) ++ ·) := by
  have hpending : pendingRun r = emitted (zeroRun (r.toNat - 1)) := pendingRun_of_pos hr
  have hpos := toNat_run_pos hr
  have hlt := r.isLt
  induction ds generalizing r with
  | nil =>
    have hnone : leadingZeros (8 - r.toNat) [] = 0 := Nat.le_zero.mp (leadingZeros_le _ []).2
    rw [hnone, Nat.add_zero, List.drop_nil, streamFrom, streamFrom, hpending]
    simp [Except.map, pendingRun_of_zero]
  | cons d ds ih =>
    by_cases hd : d = 0
    · subst hd
      obtain ⟨limit, hlimit⟩ : ∃ limit, 8 - r.toNat = limit + 1 := ⟨7 - r.toNat, by omega⟩
      rw [hlimit, leadingZeros_cons_zero, List.drop_succ_cons]
      by_cases h7 : r = 7
      · subst h7
        obtain rfl : limit = 0 := by simpa using hlimit.symm
        rw [streamFrom_eighth]
        rfl
      · obtain ⟨hsucc, hne⟩ := toNat_run_succ h7
        rw [streamFrom_counts h7, ih hne (pendingRun_of_pos hne) (by omega) (by omega), hsucc,
          show 8 - (r.toNat + 1) = limit by omega,
          show r.toNat + 1 - 1 + leadingZeros limit ds = r.toNat - 1 + (leadingZeros limit ds + 1) by omega]
    · rw [leadingZeros_cons_ne_zero _ hd, Nat.add_zero, List.drop_zero, streamFrom, if_neg hd, streamFrom, if_neg hd,
        hpending, pendingRun_of_zero rfl]
      cases deltaSymbol W d with
      | error k => rfl
      | ok symbol => simp [Except.bind, except_map_map, List.append_assoc]

/-- The batch encoder's loop gives the stream of the deltas (R165). -/
theorem encodeDeltas_eq_streamFrom {W : LdWidth} {fuel : Nat} {ds : List Int} (h : ds.length ≤ fuel) :
    encodeDeltas W fuel ds = streamFrom W 0 ds := by
  induction fuel generalizing ds with
  | zero =>
    obtain rfl := List.length_eq_zero_iff.mp (Nat.le_zero.mp h)
    rfl
  | succ fuel ih =>
    cases ds with
    | nil => rfl
    | cons d ds =>
      simp only [List.length_cons] at h
      have hrest (n : Nat) : encodeDeltas W fuel (ds.drop n) = streamFrom W 0 (ds.drop n) :=
        ih (by simp only [List.length_drop]; omega)
      rw [encodeDeltas]
      by_cases hd : d = 0
      · subst hd
        rw [if_pos rfl, streamFrom_counts (by decide), streamFrom_pending (by decide)]
        change Except.map _ (encodeDeltas W fuel (ds.drop (leadingZeros 7 ds))) = _
        rw [hrest]
        simp [emitted, zeroRun]
      · rw [if_neg hd]
        have hds : encodeDeltas W fuel ds = streamFrom W 0 ds := hrest 0
        by_cases hsmall : d.natAbs ≤ sdMax
        · rw [if_pos hsmall, streamFrom_symbol hd (if_pos hsmall), hds]
          simp [emitted, smallFields, pendingRun_of_zero]
        · rw [if_neg hsmall]
          by_cases hwide : 2 ^ W.toNat ≤ d.natAbs
          · rw [if_pos hwide, streamFrom_noSymbol hd ((if_neg hsmall).trans (if_pos hwide))]
          · rw [if_neg hwide, streamFrom_symbol hd ((if_neg hsmall).trans (if_neg hwide)), hds]
            simp [emitted, largeFields, pendingRun_of_zero]

theorem encodeCall_cons (W : LdWidth) (x : Sample) (xs : List Sample) : encodeCall W (x :: xs) =
    (streamFrom W 0 (deltasFrom x xs)).map fun bits => field 8 x.toNat ++ bits ++ field 2 0b11 := by
  rw [encodeCall, encodeDeltas_eq_streamFrom (by simp)]

/-! ## The commands of a call append that stream -/

/-- How an encode call ends: in `DONE` with this content of `EB`, or in `ERR` with this error (R162, R166, R221). -/
def EncodeEnds (t : State) : Except ErrCode (List Bool) → Prop
  | .ok bits => t.enc.mode = .done ∧ t.enc.err = .noError ∧ t.eb.bits = bits
  | .error k => t.enc.mode = .err ∧ t.enc.err = k

/-- The commands of a call after its first ones: the samples that are left, then `FINISH`. -/
def pushAll (xs : List Sample) : List Instr := xs.map .encPush ++ [.encFinish]

theorem execAll_cons {i : Instr} {is : List Instr} {s t : State} (h : exec i s = .next t) :
    execAll (i :: is) s = execAll is t := by
  rw [execAll, h]

/-- Outside `RUN` the commands that are left of a call are not accepted (R29). -/
theorem execAll_pushAll_off {xs : List Sample} {s : State} (hm : s.enc.mode ≠ .run) :
    ∃ t, execAll (pushAll xs) s = .next t ∧ t.enc = s.enc := by
  induction xs generalizing s with
  | nil => exact ⟨_, execAll_cons (exec_finish_off hm), rfl⟩
  | cons x xs ih =>
    obtain ⟨t, ht, henc⟩ := ih (s := s.respond .notAccepted) hm
    exact ⟨t, (execAll_cons (exec_push_off hm)).trans ht, henc⟩

theorem eq_of_delta_eq_zero {x prev : Sample} (h : delta x prev = 0) : x = prev := by
  rw [delta, Int.sub_eq_zero] at h
  exact BitVec.eq_of_toNat_eq (by exact_mod_cast h)

/-- With room for what is pending, 18 bits for each sample and the Terminator, the commands that are left of a call
append the stream of the deltas that are left (R166). -/
theorem execAll_pushAll {xs : List Sample} {s : State} (hm : s.enc.mode = .run) (hh : s.enc.haveFirst = true)
    (herr : s.enc.err = .noError)
    (hfit : s.cfg.cap.allows (s.eb.wp + (pendingRun s.enc.run).length + 18 * xs.length + 2) = true) :
    ∃ t, execAll (pushAll xs) s = .next t ∧
      EncodeEnds t ((streamFrom s.enc.W s.enc.run (deltasFrom s.enc.prev xs)).map
        fun bits => s.eb.bits ++ bits ++ field 2 0b11) := by
  induction xs generalizing s with
  | nil =>
    have hfinish := exec_finish_fits hm hh (by simpa using hfit)
    exact ⟨_, execAll_cons hfinish, rfl, herr, by simp [encoded]⟩
  | cons x xs ih =>
    simp only [List.length_cons, deltasFrom] at hfit ⊢
    by_cases hd : delta x s.enc.prev = 0
    · have hx : s.enc.prev = x := (eq_of_delta_eq_zero hd).symm
      by_cases h7 : s.enc.run = 7
      · have hpush := exec_push_eighth hm hh hd h7 (Cap.allows_mono (by omega) hfit)
        obtain ⟨t, ht, hend⟩ := ih (s := (encodedUntil (emitted (zeroRun 7)) 0 s).respond .done) hm hh herr
          (Cap.allows_mono (by simp [encodedUntil, emitted, zeroRun, pendingRun_of_zero]; omega) hfit)
        refine ⟨t, (execAll_cons hpush).trans ht, ?_⟩
        rw [hd, h7, streamFrom_eighth, except_map_map, ← hx]
        simpa [encodedUntil] using hend
      · have hpush := exec_push_counts hm hh hd h7
        have := pendingRun_length_le (s.enc.run + 1)
        obtain ⟨t, ht, hend⟩ := ih (s := (setRun (s.enc.run + 1) s).respond .done) hm hh herr
          (Cap.allows_mono (m := s.eb.wp + (pendingRun (s.enc.run + 1)).length + 18 * xs.length + 2) (by omega) hfit)
        refine ⟨t, (execAll_cons hpush).trans ht, ?_⟩
        rw [hd, streamFrom_counts h7, ← hx]
        exact hend
    · cases hsym : deltaSymbol s.enc.W (delta x s.enc.prev) with
      | error k =>
        have hpush := exec_push_noSymbol hm hh hd hsym (Cap.allows_mono (by omega) hfit)
        obtain ⟨t, ht, henc⟩ := execAll_pushAll_off (xs := xs)
          (s := (errorEntry .enc k (encodedUntil (pendingRun s.enc.run) 0 s)).respond (.error k)) nofun
        refine ⟨t, (execAll_cons hpush).trans ht, ?_⟩
        rw [streamFrom_noSymbol hd hsym]
        exact ⟨by rw [henc]; rfl, by rw [henc]; rfl⟩
      | ok symbol =>
        obtain ⟨-, hlen⟩ := deltaSymbol_length hd hsym
        have hpush := exec_push_symbol hm hh hd hsym
          (Cap.allows_mono (by rw [List.length_append]; omega) hfit)
        obtain ⟨t, ht, hend⟩ := ih
          (s := (setPrev x (encodedUntil (pendingRun s.enc.run ++ emitted symbol) 0 s)).respond .done) hm hh herr
          (Cap.allows_mono (by simp [encodedUntil, pendingRun_of_zero]; omega) hfit)
        refine ⟨t, (execAll_cons hpush).trans ht, ?_⟩
        rw [streamFrom_symbol hd hsym, except_map_map]
        simpa [encodedUntil] using hend

/-- The state after `ENC.START(W)` and the push of a first sample (R150, R151). -/
def afterFirst (W : LdWidth) (x : Sample) (s : State) : State :=
  ((s.withBuf .eb ⟨field 8 x.toNat, 0⟩).withEnc ⟨x, 0, true, W, .run, .noError⟩).respond .done

theorem execAll_encodeCommands_cons {W : LdWidth} {x : Sample} {xs : List Sample} {s : State}
    (hfit : s.cfg.cap.allows 8 = true) :
    execAll (encodeCommands W (x :: xs)) s = execAll (pushAll xs) (afterFirst W x s) := by
  have hstart : exec (.encStart W) s = .next (((s.withBuf .eb .empty).withEnc
      ⟨s.enc.prev, 0, false, W, .run, .noError⟩).respond .done) := rfl
  exact (execAll_cons hstart).trans (execAll_cons (exec_push_first rfl rfl hfit))

/-- Settles O35: after `START` and the first sample, each push keeps the content of `EB` in step with the stream of the
deltas, and `encode(S, W)` is that stream. -/
theorem encodeCommandsEqualTheBatchEncoder : Obligations.EncodeCommandsEqualTheBatchEncoder := by
  intro W S s hfit
  suffices h : ∃ t, execAll (encodeCommands W S) s = .next t ∧ EncodeEnds t (encodeCall W S) by
    obtain ⟨t, ht, hend⟩ := h
    refine ⟨t, ht, ?_⟩
    cases h : encodeCall W S <;> simp only [h] at hend ⊢ <;> exact hend
  cases S with
  | nil => exact ⟨_, rfl, rfl, rfl⟩
  | cons x xs =>
    rw [List.length_cons] at hfit
    rw [execAll_encodeCommands_cons (Cap.allows_mono (by omega) hfit), encodeCall_cons]
    exact execAll_pushAll (s := afterFirst W x s) rfl rfl rfl
      (Cap.allows_mono (by simp [afterFirst, BitBuffer.wp, pendingRun_of_zero]; omega) hfit)

/-! ## The commands of the encoder, one by one -/

/-- Settles O25: the meaning of `START` is this state. -/
theorem encStartBeginsACall : Obligations.EncStartBeginsACall := by
  refine ⟨fun p hp => ?_, fun W s => rfl⟩
  rw [decodeCommand, hp]
  rfl

/-- Settles O26: the raw sample is the one field written. -/
theorem firstPushStoresTheRawSample : Obligations.FirstPushStoresTheRawSample := by
  refine fun x s hm hh => ⟨exec_push_first hm hh, fun hfull => ?_⟩
  have hraw : emitRaw8 x s = .raised .overflow s := by
    rw [emitRaw8, emitFields, encWrite_full hfull, Flow.andThen_raised]
  rw [exec_push_on hm, pushBody_first hh, pushFirst, hraw]
  rfl

/-- Settles O27: the delta is zero. -/
theorem repeatedSampleCountsOrEmitsARun : Obligations.RepeatedSampleCountsOrEmitsARun := by
  rintro x s hm hh rfl
  have hd : delta s.enc.prev s.enc.prev = 0 := Int.sub_self _
  exact ⟨exec_push_counts hm hh hd, exec_push_eighth hm hh hd⟩

/-- The code of a delta as the rules write it (R95, R154). -/
theorem gen_eq_of_code {k : Band} {d : Int} {c : Nat} (hd : d ≠ 0)
    (hc : (c : Int) = if d < 0 then d + bandHi k else d + 1) : gen d k = c := by
  rcases lt_or_gt_of_ne hd with hneg | hpos
  · rw [if_pos hneg] at hc
    rw [gen_neg hneg]
    omega
  · rw [if_neg (by omega)] at hc
    rw [gen_pos hpos]
    omega

/-- The bits of one field of a symbol. -/
def fieldBits (f : Nat × Nat) : List Bool := field f.2 f.1

theorem emitted_eq_flatten (l : List (Nat × Nat)) : emitted l = (l.map fieldBits).flatten := by
  induction l with
  | nil => rfl
  | cons f rest ih =>
    rw [emitted, ih]
    rfl

theorem smallFields_bits (k : Band) (c : Nat) :
    (smallFields k c).map fieldBits = [field 2 0b00, field 2 k.val, field (k.val + 2) c] := by
  rw [← bandWidth_eq]
  rfl

theorem largeFields_bits (W : LdWidth) (d : Int) :
    (largeFields W d).map fieldBits = [field 2 0b10, [decide (d < 0)], field W.toNat d.natAbs] := by
  by_cases h : d < 0 <;> simp [largeFields, fieldBits, h, field]

theorem pendingSymbol_bits (r : BitVec 3) : (pendingSymbol r).map fieldBits = pendingFields r := by
  by_cases h : r = 0
  · rw [pendingSymbol, pendingFields, if_pos h, if_pos h, List.map_nil]
  · rw [pendingSymbol, pendingFields, if_neg h, if_neg h]
    rfl

/-- Settles O28: the symbol is that of the one band that covers the delta. -/
theorem smallDeltaPushEmitsItsSymbol : Obligations.SmallDeltaPushEmitsItsSymbol := by
  rintro x s d k c bits hm hh rfl hd hlo hhi hc rfl hfit
  obtain rfl := gen_eq_of_code hd hc
  have hbits : pendingRun s.enc.run ++ emitted (smallFields k (gen (delta x s.enc.prev) k)) =
      pendingRun s.enc.run ++ field 2 0b00 ++ field 2 k.val ++ field (k.val + 2) (gen (delta x s.enc.prev) k) := by
    simp [emitted_eq_flatten, smallFields_bits]
  rw [exec_push_symbol hm hh hd (deltaSymbol_small hlo hhi) (hbits ▸ hfit), hbits]
  rfl

theorem ne_zero_of_large {d : Int} (h : 30 < d.natAbs) : d ≠ 0 := by omega

/-- Settles O29: the symbol is the Large-Delta. -/
theorem largeDeltaPushEmitsItsSymbol : Obligations.LargeDeltaPushEmitsItsSymbol := by
  rintro x s d bits hm hh rfl hlarge hfits rfl hfit
  have hd : delta x s.enc.prev ≠ 0 := ne_zero_of_large hlarge
  have hbits : pendingRun s.enc.run ++ emitted (largeFields s.enc.W (delta x s.enc.prev)) =
      pendingRun s.enc.run ++ field 2 0b10 ++ [decide (delta x s.enc.prev < 0)] ++
        field s.enc.W.toNat (delta x s.enc.prev).natAbs := by
    simp [emitted_eq_flatten, largeFields_bits]
  rw [exec_push_symbol hm hh hd (deltaSymbol_large hlarge hfits) (hbits ▸ hfit), hbits]
  rfl

theorem delta_bounds (x p : Sample) : -255 ≤ delta x p ∧ delta x p ≤ 255 := by
  have := x.isLt
  have := p.isLt
  unfold delta
  omega

/-- At `W >= 8` the magnitude of every delta fits (R164). -/
theorem delta_natAbs_lt {W : LdWidth} (hW : 8 ≤ W.toNat) (x p : Sample) : (delta x p).natAbs < 2 ^ W.toNat := by
  have hbounds := delta_bounds x p
  have hpow : 2 ^ 8 ≤ 2 ^ W.toNat := Nat.pow_le_pow_right two_pos hW
  omega

/-- Where the run does not fit, part of it is written and nothing else happens but the error (R216). -/
theorem emission_run_overflow {run symbol : List (Nat × Nat)} {next : State → Flow} {s : State}
    (hrun : emitted run ≠ [])
    (hfull : s.cfg.cap.allows (s.eb.wp + (emitted run).length) = false) :
    ∃ done, emission run symbol next s = .raised .overflow (appendEb done s) := by
  rcases emitFields_cases run s with ⟨-, hempty | hfits⟩ | ⟨-, done, -, -, hraise⟩
  · exact absurd hempty hrun
  · exact absurd (hfits.symm.trans hfull) nofun
  · exact ⟨done, by rw [emission, writeRun, hraise, Flow.andThen_raised, Flow.andThen_raised]⟩

/-- At `W >= 8` no push writes `OutOfRange` to `E.err` (R164). -/
theorem exec_push_not_outOfRange {x : Sample} {s t : State} (hm : s.enc.mode = .run) (hW : 8 ≤ s.enc.W.toNat)
    (h : exec (.encPush x) s = .next t) (herr : t.enc.err = .outOfRange) : s.enc.err = .outOfRange := by
  rw [exec_push_on hm] at h
  rcases pushBody_outcome x s with ⟨bits, p, r, hok, -⟩ | ⟨bits, r, hraise, -⟩ | ⟨-, hwide, -⟩
  · rw [hok] at h
    cases h
    exact herr
  · rw [hraise] at h
    cases h
    cases herr
  · exact absurd (delta_natAbs_lt hW x s.enc.prev) (Nat.not_lt.mpr hwide)

/-- Settles O30: the delta has no symbol, so the run is all there is to write. -/
theorem outOfRangeIsRaisedBeforeTheSymbol : Obligations.OutOfRangeIsRaisedBeforeTheSymbol := by
  refine ⟨?_, fun x s t hm hW h herr => exec_push_not_outOfRange hm hW h herr⟩
  rintro x s d hm hh rfl hlarge hwide
  have hd : delta x s.enc.prev ≠ 0 := ne_zero_of_large hlarge
  have hsym : deltaSymbol s.enc.W (delta x s.enc.prev) = _ := deltaSymbol_outOfRange hlarge hwide
  refine ⟨exec_push_noSymbol hm hh hd hsym, fun hr hfull => ?_⟩
  have hlen : (emitted (pendingSymbol s.enc.run)).length = 5 := by
    rw [emitted_pendingSymbol, pendingRun_of_pos hr]
    rfl
  obtain ⟨done, hraise⟩ := emission_run_overflow (run := pendingSymbol s.enc.run) (symbol := [])
    (next := .raised .outOfRange) (List.ne_nil_of_length_pos (by omega)) (hlen ▸ hfull)
  rw [exec_push_on hm, pushBody_noSymbol hh hd hsym, hraise]
  exact ⟨_, rfl, rfl⟩

/-- A command that is an emission, at the first field that does not fit. -/
theorem exec_emission_overflow {i : Instr} {s : State} {run symbol : List (Nat × Nat)} {next : State → Flow}
    {before after : List (List Bool)} {lost : List Bool} (hexec : exec i s = (emission run symbol next s).endCommand)
    (hfields : run.map fieldBits ++ symbol.map fieldBits = before ++ lost :: after)
    (hbefore : before = [] ∨ s.cfg.cap.allows (s.eb.wp + before.flatten.length) = true)
    (hlost : s.cfg.cap.allows (s.eb.wp + before.flatten.length + lost.length) = false) :
    exec i s = .next ((errorEntry .enc .overflow (encodedUntil before.flatten
      (if (run.map fieldBits).length ≤ before.length then 0 else s.enc.run) s)).respond (.error .overflow)) := by
  rw [← List.map_append, List.map_eq_append_iff] at hfields
  obtain ⟨l, rest, hsplit, rfl, hrest⟩ := hfields
  obtain ⟨f, m, rfl, rfl, rfl⟩ := List.map_eq_cons_iff.mp hrest
  rw [← emitted_eq_flatten] at hbefore hlost ⊢
  rw [hexec, emission_stops hsplit (hbefore.imp_left List.map_eq_nil_iff.mp) (by simpa [fieldBits] using hlost),
    Flow.endCommand_raised, List.length_map, List.length_map]

/-- Settles O31: each form is an emission of its run and its symbol. -/
theorem overflowKeepsTheFieldsBeforeIt : Obligations.OverflowKeepsTheFieldsBeforeIt := by
  intro i s flush symbol before after lost hm hh hform hfields hbefore hlost
  suffices h : ∃ run fields next, exec i s = (emission run fields next s).endCommand ∧ run.map fieldBits = flush ∧
      fields.map fieldBits = symbol by
    obtain ⟨run, fields, next, hexec, rfl, rfl⟩ := h
    exact exec_emission_overflow hexec hfields hbefore hlost
  rcases hform with ⟨x, d, k, c, rfl, rfl, hd, hlo, hhi, hc, rfl, rfl⟩ | ⟨x, d, rfl, rfl, hlarge, hfits, rfl, rfl⟩ |
    ⟨x, d, rfl, rfl, hlarge, hwide, rfl, rfl⟩ | ⟨rfl, h7, rfl, rfl⟩ | ⟨rfl, rfl, rfl⟩
  · obtain rfl := gen_eq_of_code hd hc
    exact ⟨_, _, _, (exec_push_on hm).trans (congrArg _ (pushBody_symbol hh hd (deltaSymbol_small hlo hhi))),
      pendingSymbol_bits _, smallFields_bits ..⟩
  · exact ⟨_, _, _, (exec_push_on hm).trans
      (congrArg _ (pushBody_symbol hh (ne_zero_of_large hlarge) (deltaSymbol_large hlarge hfits))),
      pendingSymbol_bits _, largeFields_bits ..⟩
  · exact ⟨_, [], _, (exec_push_on hm).trans
      (congrArg _ (pushBody_noSymbol hh (ne_zero_of_large hlarge) (deltaSymbol_outOfRange hlarge hwide))),
      pendingSymbol_bits _, rfl⟩
  · exact ⟨_, [], _, (exec_push_on hm).trans
      (congrArg _ ((pushBody_zero hh (Int.sub_self _)).trans (pushZero_eighth h7))), rfl, rfl⟩
  · exact ⟨_, _, _, (exec_finish_on hm).trans (congrArg _ (finishBody_symbols hh)), pendingSymbol_bits _, rfl⟩

/-- Settles O32: `FINISH` raises, or is the emission of the run and the Terminator. -/
theorem finishEndsTheCall : Obligations.FinishEndsTheCall := by
  refine ⟨fun p hp => ?_, fun s hm => ⟨fun hh => ?_, fun hh hfit => ?_⟩⟩
  · rw [decodeCommand, hp]
    rfl
  · rw [exec_finish_on hm, finishBody_empty hh]
    rfl
  · have hterm : field 2 0b11 = [true, true] := rfl
    rw [exec_finish_fits hm hh hfit, hterm]
    simp [encoded, appendEb, State.withBuf, State.withEnc, State.respond, hh]

/-- `EB` holds what it held and perhaps more after it, with the cursor and `E.W` where they were. -/
def EbGrows (s t : State) : Prop := ∃ bits, t.eb = ⟨s.eb.bits ++ bits, s.eb.rp⟩ ∧ t.enc.W = s.enc.W

theorem effect_ebGrows {i : Instr} {s t : State} (hi : i = .encFinish ∨ ∃ x, i = .encPush x) (h : Effect i s t) :
    EbGrows s t := by
  cases h with
  | unchanged | answered | symbolRaised | decStarted | sampled | terminated =>
    exact ⟨[], by simp [decoded], by simp [decoded]⟩
  | buffer b B r hb => rcases hi with rfl | ⟨x, rfl⟩ <;> cases hb
  | encStarted W hW => rcases hi with rfl | ⟨x, rfl⟩ <;> cases hW
  | pushed x p bits | finished bits | encRaised k bits => exact ⟨bits, rfl, rfl⟩

/-- Settles O34, from the effect of the command and the frame of the encode side. -/
theorem encoderOnlyAppendsToEb : Obligations.EncoderOnlyAppendsToEb := by
  intro i s t hi h
  have hside : encodeSide i = true := by rcases hi with rfl | ⟨x, rfl⟩ <;> rfl
  obtain ⟨hcfg, hinbox⟩ := effect_frame (effect_of_exec h)
  obtain ⟨hdb, hdec⟩ := effect_keeps_decodeSide hside (effect_of_exec h)
  obtain ⟨bits, heb, hW⟩ := effect_ebGrows hi (effect_of_exec h)
  refine ⟨fun a ha => ?_, ?_, ?_, hW, hdb, hdec, hcfg, hinbox⟩
  · rw [heb]
    exact List.getElem?_append_left ha
  · rw [heb, BitBuffer.wp, BitBuffer.wp, List.length_append]
    omega
  · rw [heb]

/-! ## Bands, classes, and which sequences have a stream -/

/-- Settles O11: the band selected covers the magnitude, and a band that covers it is the one selected. -/
theorem bandSelectorPicksTheCoveringBand : Obligations.BandSelectorPicksTheCoveringBand := by
  intro a h1 h30
  obtain ⟨hlo, hhi⟩ := band_covers h1 h30
  exact ⟨hlo, hhi, fun k hlo hhi => (band_eq_of_covers hlo hhi).symm⟩

/-- Settles O13, class by class. -/
theorem deltaClassifierSortsByMagnitude : Obligations.DeltaClassifierSortsByMagnitude := by
  refine ⟨fun x p => ?_, fun d => ?_⟩
  · obtain ⟨hlow, hhigh⟩ := delta_bounds x p
    exact ⟨hlow, hhigh, Int.sub_add_cancel _ _⟩
  · by_cases hzero : d = 0
    · subst hzero
      decide
    · rw [classify_of_ne_zero hzero]
      rcases Nat.lt_or_ge sdMax d.natAbs with hlarge | hsmall
      · rw [if_neg (Nat.not_le.mpr hlarge)]
        simpa [hzero] using hlarge
      · rw [if_pos hsmall]
        simpa [hzero] using hsmall

/-- The delta, if it is not zero, has a symbol at width `W` (R152, R164). -/
def HasSymbol (W : LdWidth) (d : Int) : Prop := 30 < d.natAbs → d.natAbs < 2 ^ W.toNat

theorem deltaSymbol_of_hasSymbol {W : LdWidth} {d : Int} (hd : d ≠ 0) (h : HasSymbol W d) :
    ∃ symbol, deltaSymbol W d = .ok symbol := by
  rcases deltaSymbol_cases W hd with ⟨k, -, -, hk⟩ | ⟨-, -, hk⟩ | ⟨hlarge, hwide, -⟩
  · exact ⟨_, hk⟩
  · exact ⟨_, hk⟩
  · exact absurd (h hlarge) (Nat.not_lt.mpr hwide)

theorem deltaSymbol_of_not_hasSymbol {W : LdWidth} {d : Int} (h : ¬HasSymbol W d) :
    deltaSymbol W d = .error .outOfRange := by
  obtain ⟨hlarge, hwide⟩ := Classical.not_imp.mp h
  exact deltaSymbol_outOfRange hlarge (Nat.not_lt.mp hwide)

theorem hasSymbol_zero (W : LdWidth) : HasSymbol W 0 := nofun

/-- The deltas have a stream if each of them has a symbol. -/
theorem streamFrom_ok {W : LdWidth} {r : BitVec 3} {ds : List Int} (h : ∀ d ∈ ds, HasSymbol W d) :
    ∃ bits, streamFrom W r ds = .ok bits := by
  induction ds generalizing r with
  | nil => exact ⟨_, rfl⟩
  | cons d ds ih =>
    obtain ⟨hhead, htail⟩ := List.forall_mem_cons.mp h
    obtain ⟨rest, hrest⟩ := ih (r := 0) htail
    by_cases hd : d = 0
    · subst hd
      by_cases h7 : r = 7
      · subst h7
        rw [streamFrom_eighth, hrest]
        exact ⟨_, rfl⟩
      · rw [streamFrom_counts h7]
        exact ih htail
    · obtain ⟨symbol, hsym⟩ := deltaSymbol_of_hasSymbol hd hhead
      rw [streamFrom_symbol hd hsym, hrest]
      exact ⟨_, rfl⟩

/-- The deltas have no stream if one of them has no symbol. -/
theorem streamFrom_outOfRange {W : LdWidth} {r : BitVec 3} {ds : List Int} (h : ¬∀ d ∈ ds, HasSymbol W d) :
    streamFrom W r ds = .error .outOfRange := by
  induction ds generalizing r with
  | nil => exact absurd nofun h
  | cons d ds ih =>
    by_cases hd : d = 0
    · subst hd
      have htail : ¬∀ d ∈ ds, HasSymbol W d := fun hall => h (List.forall_mem_cons.mpr ⟨hasSymbol_zero W, hall⟩)
      by_cases h7 : r = 7
      · subst h7
        rw [streamFrom_eighth, ih htail]
        rfl
      · rw [streamFrom_counts h7, ih htail]
    · by_cases hhead : HasSymbol W d
      · obtain ⟨symbol, hsym⟩ := deltaSymbol_of_hasSymbol hd hhead
        rw [streamFrom_symbol hd hsym, ih fun hall => h (List.forall_mem_cons.mpr ⟨hhead, hall⟩)]
        rfl
      · exact streamFrom_noSymbol hd (deltaSymbol_of_not_hasSymbol hhead)

theorem representable_singleton (W : LdWidth) (x : Sample) : Representable W [x] := by
  intro j a b _ hb
  simp at hb

theorem representable_cons_cons {W : LdWidth} {x y : Sample} {xs : List Sample} :
    Representable W (x :: y :: xs) ↔ HasSymbol W (delta y x) ∧ Representable W (y :: xs) := by
  refine ⟨fun h => ⟨h 0 x y rfl rfl, fun j a b ha hb => h (j + 1) a b ha hb⟩, fun ⟨hhead, htail⟩ j a b ha hb => ?_⟩
  cases j with
  | zero =>
    cases ha
    cases hb
    exact hhead
  | succ j => exact htail j a b ha hb

/-- Samples are representable where each of their deltas has a symbol (R164). -/
theorem representable_iff {W : LdWidth} {x : Sample} {xs : List Sample} :
    Representable W (x :: xs) ↔ ∀ d ∈ deltasFrom x xs, HasSymbol W d := by
  induction xs generalizing x with
  | nil => exact iff_of_true (representable_singleton W x) nofun
  | cons y ys ih => rw [representable_cons_cons, ih, deltasFrom, List.forall_mem_cons]

theorem encodeCall_of_representable {W : LdWidth} {S : List Sample} (hne : S ≠ []) (h : Representable W S) :
    ∃ bits, encodeCall W S = .ok bits := by
  cases S with
  | nil => exact absurd rfl hne
  | cons x xs =>
    obtain ⟨bits, hbits⟩ := streamFrom_ok (r := 0) (representable_iff.mp h)
    rw [encodeCall_cons, hbits]
    exact ⟨_, rfl⟩

theorem encodeCall_of_not_representable {W : LdWidth} {S : List Sample} (hne : S ≠ []) (h : ¬Representable W S) :
    encodeCall W S = .error .outOfRange := by
  cases S with
  | nil => exact absurd rfl hne
  | cons x xs =>
    rw [encodeCall_cons, streamFrom_outOfRange (representable_iff.not.mp h)]
    rfl

/-- At `W >= 8` the width of a Large-Delta is no bound (R164). -/
theorem representable_of_wide {W : LdWidth} (hW : 8 ≤ W.toNat) (S : List Sample) : Representable W S :=
  fun _ a b _ _ _ => delta_natAbs_lt hW b a

/-- Settles O37: the stream of a call stands between the raw sample and the Terminator. -/
theorem encodedStreamsAreFramed : Obligations.EncodedStreamsAreFramed := by
  refine ⟨fun W x S bits h => ?_, fun _ => rfl,
    fun W S hne => ⟨encodeCall_of_representable hne, encodeCall_of_not_representable hne⟩,
    fun W S hW hne => encodeCall_of_representable hne (representable_of_wide hW S)⟩
  rw [encodeCall_cons] at h
  obtain ⟨mid, -, rfl⟩ := exists_of_map_eq_ok h
  refine ⟨?_, ?_, ?_⟩
  · rw [List.append_assoc, List.take_left' (field_length ..)]
  · rw [List.drop_left' (by simp only [List.length_append, field_length]; omega)]
    rfl
  · simp only [List.length_append, field_length]
    omega

/-! ## `decode(encode(S, W), W)` is `S` (R194) -/

/-- A symbol at the head of the stream is one turn of the batch decoder (R193). -/
theorem decodeLoop_symbol {W : LdWidth} {i : Instr} {read : List Bool} (hwf : i.wf W = true) (hhdr : i.atHdr = true)
    (hread : encode W i = .stream read) (fuel : Nat) (cur : Sample) (out : List Sample) (rest : List Bool) :
    decodeLoop W (fuel + 1) cur out (read ++ rest) =
      (symbolOutput cur i).bind (continueWith (decodeLoop W fuel · · rest) out) := by
  have hsym := decodeSymbol_encode hwf hread rest
  rw [hhdr] at hsym
  rw [decodeLoop_succ, hsym, turnWith]

theorem decodeLoop_zeroRun {W : LdWidth} {n : Nat} (hn : n < 8) (fuel : Nat) (cur : Sample) (out : List Sample)
    (rest : List Bool) : decodeLoop W (fuel + 1) cur out (emitted (zeroRun n) ++ rest) =
      decodeLoop W fuel cur (out ++ List.replicate (n + 1) cur) rest := by
  have hval : (BitVec.ofNat 3 n).toNat = n := Nat.mod_eq_of_lt hn
  have hread : encode W (.zr (BitVec.ofNat 3 n)) = .stream (emitted (zeroRun n)) := by
    simp only [encode, field_toNat_ofNat, emitted, zeroRun, List.append_nil]
  rw [decodeLoop_symbol rfl rfl hread, symbolOutput, hval]
  rfl

/-- The symbol of a delta is read as a symbol of that delta (R96, R98). -/
theorem deltaSymbol_decodes {W : LdWidth} {d : Int} {symbol : List (Nat × Nat)} (hd : d ≠ 0)
    (h : deltaSymbol W d = .ok symbol) :
    ∃ i, i.wf W = true ∧ i.atHdr = true ∧ encode W i = .stream (emitted symbol) ∧ symbolDelta i = some d := by
  rcases deltaSymbol_cases W hd with ⟨k, hlo, hhi, hk⟩ | ⟨hlarge, hfits, hk⟩ | ⟨-, -, hk⟩ <;> cases hk.symm.trans h
  · obtain ⟨-, -, hcode, -, hrev⟩ := bandCodesAreABijection.1 k d hlo hhi
    refine ⟨smallInstr k (gen d k), smallInstr_wf .., smallInstr_atHdr .., ?_, ?_⟩
    · rw [encode_smallInstr]
      simp [emitted_eq_flatten, smallFields_bits]
    · rw [symbolDelta_of_small (smallSymbol_smallInstr hcode), hrev]
  · have hval : (BitVec.ofNat 15 d.natAbs).toNat = d.natAbs := Nat.mod_eq_of_lt (hfits.trans_le (two_pow_ldWidth_le W))
    refine ⟨.ld (decide (d < 0)) (BitVec.ofNat 15 d.natAbs), ?_, rfl, ?_, ?_⟩
    · simpa only [Instr.wf, hval, decide_eq_true_eq] using hfits
    · rw [encode, hval]
      by_cases hneg : d < 0 <;> simp [emitted, largeFields, hneg]
    · rw [symbolDelta, hval, signedMagnitude]
      refine congrArg some ?_
      by_cases hneg : d < 0
      · rw [if_pos (decide_eq_true hneg)]
        omega
      · rw [if_neg (by simpa using hneg)]
        omega

theorem addDelta_delta (x prev : Sample) : addDelta prev (delta x prev) = .ok x := by
  have hsum : (prev.toNat : Int) + delta x prev = x.toNat := by rw [delta]; omega
  have hx := x.isLt
  rw [addDelta, hsum, if_neg (by omega), ofInt_sample rfl]

theorem decodeLoop_deltaSymbol {W : LdWidth} {x prev : Sample} {symbol : List (Nat × Nat)} (hd : delta x prev ≠ 0)
    (hsym : deltaSymbol W (delta x prev) = .ok symbol) (fuel : Nat) (out : List Sample) (rest : List Bool) :
    decodeLoop W (fuel + 1) prev out (emitted symbol ++ rest) = decodeLoop W fuel x (out ++ [x]) rest := by
  obtain ⟨i, hwf, hhdr, hread, hdelta⟩ := deltaSymbol_decodes hd hsym
  rw [decodeLoop_symbol hwf hhdr hread, symbolOutput_delta hdelta, addDelta_delta]
  rfl

theorem decodeLoop_term (W : LdWidth) (fuel : Nat) (cur : Sample) (out : List Sample) (rest : List Bool) :
    decodeLoop W (fuel + 1) cur out (field 2 0b11 ++ rest) = .ok out :=
  decodeLoop_symbol (i := .term) rfl rfl rfl fuel cur out rest

/-- A pending run is one turn that appends its copies, or no turn where there is none. -/
theorem decodeLoop_pendingRun {W : LdWidth} {r : BitVec 3} {fuel : Nat} (hfuel : (pendingRun r).length < fuel)
    (cur : Sample) (out : List Sample) (rest : List Bool) : ∃ fuel', fuel ≤ fuel' + (pendingRun r).length ∧
      decodeLoop W fuel cur out (pendingRun r ++ rest) =
        decodeLoop W fuel' cur (out ++ List.replicate r.toNat cur) rest := by
  by_cases hr : r = 0
  · subst hr
    exact ⟨fuel, Nat.le_add_right .., by simp [pendingRun_of_zero]⟩
  · have hpos := toNat_run_pos hr
    have hlt := r.isLt
    obtain ⟨fuel, rfl⟩ : ∃ m, fuel = m + 1 := ⟨fuel - 1, by omega⟩
    have hrun : pendingRun r = emitted (zeroRun (r.toNat - 1)) := pendingRun_of_pos hr
    refine ⟨fuel, ?_, ?_⟩
    · simp only [hrun, zeroRun, emitted, List.length_append, field_length]
      omega
    · rw [hrun, decodeLoop_zeroRun (by omega), Nat.sub_add_cancel hpos]

/-- The stream of the samples after `prev`, with a run of `r` repeats of `prev` pending, is decoded to those repeats and
the samples, whatever follows the Terminator. -/
theorem decodeLoop_streamFrom {W : LdWidth} {r : BitVec 3} {prev : Sample} {xs : List Sample} {bits : List Bool}
    {fuel : Nat} (h : streamFrom W r (deltasFrom prev xs) = .ok bits) (hfuel : bits.length < fuel)
    (out : List Sample) (padding : List Bool) :
    decodeLoop W fuel prev out (bits ++ (field 2 0b11 ++ padding)) =
      .ok (out ++ List.replicate r.toNat prev ++ xs) := by
  induction xs generalizing r prev bits fuel out with
  | nil =>
    cases h
    obtain ⟨fuel', hle, hrun⟩ := decodeLoop_pendingRun hfuel prev out (field 2 0b11 ++ padding)
    obtain ⟨fuel'', rfl⟩ : ∃ m, fuel' = m + 1 := ⟨fuel' - 1, by omega⟩
    rw [hrun, decodeLoop_term, List.append_nil]
  | cons x xs ih =>
    rw [deltasFrom] at h
    by_cases hd : delta x prev = 0
    · obtain rfl := eq_of_delta_eq_zero hd
      rw [hd] at h
      by_cases h7 : r = 7
      · subst h7
        rw [streamFrom_eighth] at h
        obtain ⟨rest, hrest, rfl⟩ := exists_of_map_eq_ok h
        have hlen : (emitted (zeroRun 7)).length = 5 := rfl
        rw [List.length_append] at hfuel
        obtain ⟨fuel, rfl⟩ : ∃ m, fuel = m + 1 := ⟨fuel - 1, by omega⟩
        rw [List.append_assoc, decodeLoop_zeroRun (by omega), ih hrest (by omega)]
        simp [List.replicate_succ']
      · rw [streamFrom_counts h7] at h
        rw [ih h hfuel, (toNat_run_succ h7).1]
        simp [List.replicate_succ']
    · cases hsym : deltaSymbol W (delta x prev) with
      | error k =>
        rw [streamFrom_noSymbol hd hsym] at h
        cases h
      | ok symbol =>
        rw [streamFrom_symbol hd hsym] at h
        obtain ⟨rest, hrest, rfl⟩ := exists_of_map_eq_ok h
        obtain ⟨hlen, -⟩ := deltaSymbol_length hd hsym
        simp only [List.length_append] at hfuel
        obtain ⟨fuel', hle, hrun⟩ := decodeLoop_pendingRun (W := W) (r := r) (fuel := fuel) (by omega) prev out
          (emitted symbol ++ (rest ++ (field 2 0b11 ++ padding)))
        obtain ⟨fuel'', rfl⟩ : ∃ m, fuel' = m + 1 := ⟨fuel' - 1, by omega⟩
        simp only [List.append_assoc] at hrun ⊢
        rw [hrun, decodeLoop_deltaSymbol hd hsym, ih hrest (by omega)]
        simp

/-- The stream of a call decodes to its samples, whatever bits follow it (R102, R194). -/
theorem decodeCall_of_encodeCall {W : LdWidth} {S : List Sample} {bits : List Bool} (h : encodeCall W S = .ok bits)
    (padding : List Bool) : decodeCall W (bits ++ padding) = .ok S := by
  cases S with
  | nil => cases h
  | cons x xs =>
    rw [encodeCall_cons] at h
    obtain ⟨mid, hmid, rfl⟩ := exists_of_map_eq_ok h
    rw [List.append_assoc, List.append_assoc, decodeCall_header,
      decodeLoop_streamFrom hmid (by simp only [List.length_append]; omega)]
    rfl

/-! ## The decoder's steps are the turns of `decode(bits, W)` (R193) -/

/-- A symbol after the header is a delta, a Zero-Run or the Terminator (R91, R93). -/
theorem symbol_form {i : Instr} (hi : isSymbol i = true) (hhdr : i.atHdr = true) :
    (∃ d, symbolDelta i = some d) ∨ (∃ n, i = .zr n) ∨ i = .term := by
  cases i <;> simp [isSymbol, symbolFields, Instr.atHdr, symbolDelta] at hi hhdr ⊢

theorem encode_stream_length {W : LdWidth} {i : Instr} {read : List Bool} (h : encode W i = .stream read) :
    read.length = (symbolFields W i).sum := by
  cases i with
  | raw8 | sdB0 | sdB1 | sdB2 | sdB3 | zr | term =>
    cases h
    rfl
  | ld sign m =>
    cases h
    simp only [symbolFields, List.length_append, field_length, List.sum_cons, List.sum_nil]
    omega
  | _ => cases h

/-- A symbol after the header that is not the Terminator has 3 bits or more (R92, R195). -/
theorem three_le_symbolFields {i : Instr} {cur : Sample} {next : Sample × List Sample} (W : LdWidth)
    (hi : isSymbol i = true) (hnext : symbolOutput cur i = .ok (some next)) : 3 ≤ (symbolFields W i).sum := by
  cases i with
  | raw8 | sdB0 | sdB1 | sdB2 | sdB3 | zr => simp [symbolFields]
  | ld sign m =>
    simp only [symbolFields, List.sum_cons]
    omega
  | term => cases hnext
  | _ => simp [isSymbol, symbolFields] at hi

/-- The state after a symbol whose bits are all there, by what the symbol gives (R181 to R191). -/
def afterSymbol (n : Nat) (s : State) : Except ErrCode (Option (Sample × List Sample)) → State
  | .ok (some (x, samples)) => (advance n s).withDec { s.dec with cur := x, out := s.dec.out ++ samples }
  | .ok none => (advance n s).withDec { s.dec with mode := .done }
  | .error k => errorEntry .dec k (advance n s)

theorem acc_eq_afterSymbol (d : Int) (n : Nat) (s : State) : (acc d (advance n s)).endStep =
    .next (afterSymbol n s ((addDelta s.dec.cur d).map fun x => some (x, [x]))) := by
  by_cases hrange : (s.dec.cur.toNat : Int) + d < 0 ∨ 255 < (s.dec.cur.toNat : Int) + d
  · rw [acc_outOfRange (by exact hrange), addDelta, if_pos hrange]
    rfl
  · rw [acc_inRange (by rw [advance_dec]; omega) (by rw [advance_dec]; omega), addDelta, if_neg hrange]
    rfl

section DecoderTurn

variable {s : State}

/-- The execution of a symbol after the header gives what the batch decoder's turn gives (R193). -/
theorem exec_symbol_afterSymbol {i : Instr} (hi : isSymbol i = true) (hhdr : i.atHdr = true) (hm : s.dec.mode = .run)
    (hh : s.dec.hdr = true) (ha : (symbolFields s.dec.W i).sum ≤ s.db.avail) :
    exec i s = .next (afterSymbol (symbolFields s.dec.W i).sum s (symbolOutput s.dec.cur i)) := by
  rcases symbol_form hi hhdr with ⟨d, hd⟩ | ⟨n, rfl⟩ | rfl
  · rw [exec_delta_enough hd hm hh ha, acc_eq_afterSymbol, symbolOutput_delta hd]
  · exact zeroRunRepeatsTheValue n s hm hh ha
  · change decSymbol true termBody s = _
    rw [decSymbol_on hm hh, termBody, decFields_enough (by exact ha)]
    rfl

/-- The symbol decoder fails by a cut stream only (R100). -/
def OnlyTruncates {α : Type} (a : Except DecodeError α) : Prop := ∀ e, a = .error e → ∃ n, e = .truncated n

theorem readField_onlyTruncates {α : Type} {consumed n : Nat} {bits : List Bool}
    {k : Nat → List Bool → Except DecodeError α} (hk : ∀ v rest, v < 2 ^ n → OnlyTruncates (k v rest)) :
    OnlyTruncates (readField consumed n bits k) := by
  rcases Nat.lt_or_ge bits.length n with hn | hn
  · rw [readField_short _ _ hn]
    rintro e ⟨⟩
    exact ⟨consumed, rfl⟩
  · rw [readField_enough _ _ hn]
    exact hk _ _ (fieldValue_take_lt bits)

theorem decodeSymbol_onlyTruncates (hdr : Bool) (W : LdWidth) (bits : List Bool) :
    OnlyTruncates (decodeSymbol hdr W bits) := by
  cases hdr with
  | false =>
    rw [decodeSymbol_header]
    exact readField_onlyTruncates fun _ _ _ => nofun
  | true =>
    rw [decodeSymbol, if_neg nofun]
    refine readField_onlyTruncates fun p r hp => ?_
    interval_cases p
    · change OnlyTruncates (decodeSmall r)
      rw [decodeSmall_eq]
      exact readField_onlyTruncates fun _ _ _ => readField_onlyTruncates fun _ _ _ => nofun
    · exact readField_onlyTruncates fun _ _ _ => nofun
    · exact readField_onlyTruncates fun _ _ _ => readField_onlyTruncates fun _ _ _ => nofun
    · exact nofun

variable (hin : s.inbox = []) (hm : s.dec.mode = .run)

include hin hm

theorem step_symbol {i : Instr} {rest : List Bool}
    (hsym : decodeSymbol s.dec.hdr s.dec.W s.db.unread = .ok (i, rest)) : step s = exec i s := by
  have hself : s.withInbox s.inbox.tail = s := by rw [hin, List.tail_nil, ← hin]; rfl
  rw [stepRunsTheDecodedInstruction.2 s i rest (.inl hin) hm hsym, hself]

theorem step_cut {e : DecodeError} (hsym : decodeSymbol s.dec.hdr s.dec.W s.db.unread = .error e) :
    ∃ n, step s = .next (errorEntry .dec .truncatedStream (advance n s)) := by
  obtain ⟨n, rfl⟩ := decodeSymbol_onlyTruncates _ _ _ e hsym
  exact ⟨n, step_of_settle (by simp only [fetch, hin, fetchSymbol, if_pos hm, hsym]; rfl)⟩

/-- A decoder's step after the header, on the symbol at its cursor (R181). -/
theorem step_afterSymbol {i : Instr} {rest : List Bool} (hh : s.dec.hdr = true)
    (hsym : decodeSymbol true s.dec.W s.db.unread = .ok (i, rest)) : isSymbol i = true ∧
      (symbolFields s.dec.W i).sum ≤ s.db.avail ∧ rest = (advance (symbolFields s.dec.W i).sum s).db.unread ∧
      step s = .next (afterSymbol (symbolFields s.dec.W i).sum s (symbolOutput s.dec.cur i)) := by
  obtain ⟨hi, hhdr, ha⟩ := decodeSymbol_isSymbol hsym
  rw [BitBuffer.unread_length] at ha
  obtain ⟨-, -, read, hread, hbits⟩ := decodeSymbol_encodes hsym
  refine ⟨hi, ha, ?_, ?_⟩
  · have hlen := encode_stream_length hread
    rw [BitBuffer.unread, advance_bits, advance_rp, ← List.drop_drop, ← BitBuffer.unread, hbits, List.drop_left' hlen]
  · rw [step_symbol hin hm (hh ▸ hsym), exec_symbol_afterSymbol hi hhdr hm hh ha]

end DecoderTurn

/-- How a decode call ends: in `DONE` with this output, or in `ERR` with this error (R190, R193, R221). -/
def DecodeEnds (u : State) : Except ErrCode (List Sample) → Prop
  | .ok out => u.dec.mode = .done ∧ u.dec.err = .noError ∧ u.dec.out = out
  | .error k => u.dec.mode = .err ∧ u.dec.err = k

theorem stepsFrom_succ {n : Nat} {s t : State} (h : step s = .next t) :
    stepsFrom step (n + 1) s = stepsFrom step n t := by
  rw [stepsFrom, h]

/-- A decoder that has stopped stays as it is while the host issues nothing (R29, R252). -/
theorem stepsFrom_stopped {s : State} (hin : s.inbox = []) (hm : s.dec.mode ≠ .run) (n : Nat) :
    stepsFrom step n s = some s := by
  induction n with
  | zero => rfl
  | succ n ih => rw [stepsFrom_succ ((decoderOutsideRunDoesNothing.2 s hm).1 hin), ih]

theorem stepsFrom_stops {s t : State} (h : step s = .next t) (hin : t.inbox = []) (hm : t.dec.mode ≠ .run) (n : Nat) :
    stepsFrom step (n + 1) s = some t := (stepsFrom_succ h).trans (stepsFrom_stopped hin hm n)

/-- After the header, one step for every 3 unread bits and one more lead to the end that the batch decoder's loop
gives. -/
theorem stepsFrom_decodeLoop {n fuel : Nat} {s : State} (hin : s.inbox = []) (hm : s.dec.mode = .run)
    (hh : s.dec.hdr = true) (herr : s.dec.err = .noError) (hn : s.db.avail / 3 < n) (hfuel : s.db.avail / 3 < fuel) :
    ∃ u, stepsFrom step n s = some u ∧
      DecodeEnds u (decodeLoop s.dec.W fuel s.dec.cur s.dec.out s.db.unread) := by
  induction n generalizing s fuel with
  | zero => omega
  | succ n ih =>
    obtain ⟨fuel, rfl⟩ : ∃ m, fuel = m + 1 := ⟨fuel - 1, by omega⟩
    rw [decodeLoop_succ]
    rcases hsym : decodeSymbol true s.dec.W s.db.unread with e | ⟨i, rest⟩
    · obtain ⟨k, hstep⟩ := step_cut hin hm (hh ▸ hsym)
      exact ⟨_, stepsFrom_stops hstep hin nofun n, rfl, rfl⟩
    · obtain ⟨hi, ha, rfl, hstep⟩ := step_afterSymbol hin hm hh hsym
      rw [turnWith]
      rcases hout : symbolOutput s.dec.cur i with k | _ | ⟨x, samples⟩ <;> rw [hout] at hstep
      · exact ⟨_, stepsFrom_stops hstep hin nofun n, rfl, rfl⟩
      · exact ⟨_, stepsFrom_stops hstep hin nofun n, rfl, herr, rfl⟩
      · rw [stepsFrom_succ hstep]
        have h3 := three_le_symbolFields s.dec.W hi hout
        have hleft := advance_avail (symbolFields s.dec.W i).sum s
        exact ih (s := afterSymbol _ s (.ok (some (x, samples)))) hin hm hh herr
          (by simp only [afterSymbol, State.withDec_db]; omega) (by simp only [afterSymbol, State.withDec_db]; omega)

/-- From the start of a decode call, the decoder's steps lead to the end that the batch decoder gives (R193). -/
theorem stepsFrom_decodeCall {n : Nat} {s : State} (hin : s.inbox = []) (hm : s.dec.mode = .run)
    (hh : s.dec.hdr = false) (hout : s.dec.out = []) (herr : s.dec.err = .noError) (hn : 2 + s.db.avail / 3 ≤ n) :
    ∃ u, stepsFrom step n s = some u ∧ DecodeEnds u (decodeCall s.dec.W s.db.unread) := by
  obtain ⟨n, rfl⟩ : ∃ m, n = m + 1 := ⟨n - 1, by omega⟩
  rcases header_cases s.db.unread with hshort | ⟨v, rest, hbits⟩
  · obtain ⟨k, hstep⟩ := step_cut hin hm (by rw [hh, decodeSymbol_header, readField_short _ _ hshort])
    rw [decodeCall_short _ hshort]
    exact ⟨_, stepsFrom_stops hstep hin nofun n, rfl, rfl⟩
  · have hsym : decodeSymbol false s.dec.W s.db.unread = .ok (.raw8 v, rest) := by
      rw [hbits]
      exact decodeSymbol_encode (i := .raw8 v) rfl rfl rest
    have hlen : s.db.avail = rest.length + 8 := by
      rw [← BitBuffer.unread_length, hbits, List.length_append, field_length, Nat.add_comm]
    have hraw : exec (.raw8 v) s =
        .next ((advance 8 s).withDec { s.dec with cur := v, out := s.dec.out ++ [v], hdr := true }) := by
      change decSymbol false (rawBody v) s = _
      rw [decSymbol_on hm hh, rawBody, decFields_enough (by simp; omega)]
      rfl
    have hrest : (advance 8 s).db.unread = rest := by
      rw [BitBuffer.unread, advance_bits, advance_rp, ← List.drop_drop, ← BitBuffer.unread, hbits,
        List.drop_left' (field_length ..)]
    have hleft := advance_avail 8 s
    rw [hbits, decodeCall_header, stepsFrom_succ ((step_symbol hin hm (hh ▸ hsym)).trans hraw)]
    obtain ⟨u, hu, hend⟩ := stepsFrom_decodeLoop (n := n) (fuel := rest.length + 9)
      (s := (advance 8 s).withDec { s.dec with cur := v, out := s.dec.out ++ [v], hdr := true }) hin hm rfl herr
      (by simp only [State.withDec_db]; omega) (by simp only [State.withDec_db]; omega)
    refine ⟨u, hu, ?_⟩
    simpa [hrest, hout] using hend

/-! ## The round trip through the machine -/

/-- Instructions of the encode side leave the decode side alone (R73). -/
theorem execAll_encodeSide_frame {l : List Instr} {s t : State} (hl : ∀ i ∈ l, encodeSide i = true)
    (h : execAll l s = .next t) : t.cfg = s.cfg ∧ t.inbox = s.inbox ∧ t.db = s.db ∧ t.dec = s.dec := by
  induction l generalizing s with
  | nil =>
    cases h
    exact ⟨rfl, rfl, rfl, rfl⟩
  | cons i is ih =>
    obtain ⟨hi, his⟩ := List.forall_mem_cons.mp hl
    obtain ⟨u, hu⟩ := exec_next i s
    obtain ⟨hcfg, hinbox, hdb, hdec⟩ := ih his ((execAll_cons hu).symm.trans h)
    obtain ⟨hcfg', hinbox', hside, -⟩ := theTwoSidesCommute.1 i s u hu
    obtain ⟨hdb', hdec'⟩ := hside hi
    exact ⟨hcfg.trans hcfg', hinbox.trans hinbox', hdb.trans hdb', hdec.trans hdec'⟩

theorem encodeCommands_encodeSide (W : LdWidth) (S : List Sample) : ∀ i ∈ encodeCommands W S, encodeSide i = true := by
  simp only [encodeCommands, List.mem_cons, List.mem_append, List.mem_map, List.not_mem_nil, or_false]
  rintro i (rfl | ⟨x, -, rfl⟩ | rfl) <;> rfl

/-- An encode call that ends in `DONE` leaves the batch encoder's stream in `EB` (R166). -/
theorem encodeCall_of_done {W : LdWidth} {S : List Sample} {s t : State} (hcap : s.cfg.cap = .unbounded)
    (h : execAll (encodeCommands W S) s = .next t) (hdone : t.enc.mode = .done) :
    encodeCall W S = .ok t.eb.bits := by
  obtain ⟨u, hu, hend⟩ := encodeCommandsEqualTheBatchEncoder W S s (by rw [hcap, Cap.allows_unbounded])
  cases hu.symm.trans h
  cases hcall : encodeCall W S with
  | ok bits =>
    simp only [hcall] at hend
    obtain ⟨-, -, hbits⟩ := hend
    rw [hbits]
  | error k =>
    simp only [hcall] at hend
    exact absurd (hdone.symm.trans hend.1) nofun

/-- The bytes are loaded into `DB`, and a decode call of them begins (R134, R180). -/
theorem execAll_load_start {ys : List Byte} {W : LdWidth} {s : State} (hm : s.dec.mode ≠ .run)
    (hfit : s.cfg.cap.allows (bitsOfBytes ys).length = true) :
    execAll [.dbLoadBytes ys, .decStart W] s = .next (((s.withBuf .db ⟨bitsOfBytes ys, 0⟩).withDec
      ⟨s.dec.cur, false, [], W, .run, .noError⟩).respond .done) :=
  execAll_pair (bufLoad_fits (b := .db) hm hfit) rfl

/-- Settles O53: `EB` holds the stream of the samples, its bytes are that stream and padding, and the decoder's steps
give what the batch decoder gives of it, the samples. -/
theorem roundTripThroughTheMachine : Obligations.RoundTripThroughTheMachine := by
  intro W S s a b c ys hcap hin hdec ha hdone hb hys hc
  have hcall := encodeCall_of_done hcap ha hdone
  obtain ⟨acfg, ainbox, -, adec⟩ := execAll_encodeSide_frame (encodeCommands_encodeSide W S) ha
  have hpack : exec .ebPack a = .next (a.respond (.bytes a.eb.pack)) :=
    exec_packBytes_on (b := .eb) (s := a) (by rw [State.own_eb, hdone]; exact nofun)
  cases hpack.symm.trans hb
  obtain rfl : a.eb.pack = ys := Response.bytes.inj hys
  have hload := execAll_load_start (ys := a.eb.pack) (W := W) (s := a.respond (.bytes a.eb.pack))
    (by rw [State.respond_dec, adec]; exact hdec) (by rw [State.respond_cfg, acfg, hcap, Cap.allows_unbounded])
  have hcc := Host.Outcome.next.inj (hload.symm.trans hc)
  have hcin : c.inbox = [] := hcc ▸ ainbox.trans hin
  have hcdec : c.dec = ⟨a.dec.cur, false, [], W, .run, .noError⟩ := hcc ▸ rfl
  have hcdb : c.db = ⟨bitsOfBytes a.eb.pack, 0⟩ := hcc ▸ rfl
  obtain ⟨u, hu, hend⟩ :=
    stepsFrom_decodeCall hcin (by rw [hcdec]) (by rw [hcdec]) (by rw [hcdec]) (by rw [hcdec]) le_rfl
  have hdecode : decodeCall c.dec.W c.db.unread = .ok S := by
    rw [hcdec, hcdb, BitBuffer.unread, List.drop_zero, BitBuffer.bitsOfBytes_pack]
    exact decodeCall_of_encodeCall hcall _
  rw [hdecode] at hend
  obtain ⟨hmode, -, hout⟩ := hend
  exact ⟨u, hu, hmode, hout⟩

end Sys2Proof.Machine

/-! # Proofs: the decoder (42_decoder.md)

`DEC.START`, the symbols one by one, where a cut stream stops, everything one step of the decoder can do, and what
follows for a whole decode call: it ends, its output is bounded, and it is what the batch decoder gives. -/

namespace Sys2Proof.Machine

/-! ## The whole call against the batch decoder -/

/-- The state after `DEC.START(W)` (R180). -/
def decStarted (W : LdWidth) (s : State) : State :=
  (s.withDec ⟨s.dec.cur, false, [], W, .run, .noError⟩).respond .done

theorem exec_decStart (W : LdWidth) (s : State) : exec (.decStart W) s = .next (decStarted W s) := rfl

/-- A call that begins with `DEC.START` ends as the batch decoder does on the unread bits (R193). -/
theorem stepsFrom_decStarted {W : LdWidth} {s : State} {n : Nat} (hin : s.inbox = [])
    (hn : 2 + s.db.avail / 3 ≤ n) :
    ∃ u, stepsFrom step n (decStarted W s) = some u ∧ DecodeEnds u (decodeCall W s.db.unread) :=
  stepsFrom_decodeCall (s := decStarted W s) hin rfl rfl rfl rfl hn

/-- Settles O51: the state after `DEC.START` is the start of a decode call, whose steps are the batch decoder's turns. -/
theorem decoderStepsEqualTheBatchDecoder : Obligations.DecoderStepsEqualTheBatchDecoder := by
  intro W s t n hin ht hn
  cases (exec_decStart W s).symm.trans ht
  obtain ⟨u, hu, hend⟩ := stepsFrom_decStarted (W := W) hin hn
  refine ⟨u, hu, ?_⟩
  cases hcall : decodeCall W s.db.unread <;> exact hcall ▸ hend

/-- Settles O52: a stream that was encoded decodes to its samples, and representable samples have a stream. -/
theorem roundTripOfTheCodec : Obligations.RoundTripOfTheCodec := by
  refine ⟨fun W S bits padding h => decodeCall_of_encodeCall h padding, fun W S hne hrep => ?_⟩
  obtain ⟨bits, hbits⟩ := encodeCall_of_representable hne hrep
  exact ⟨bits, hbits, decodeCall_of_encodeCall hbits⟩

/-! ## `DEC.START` and the symbols, one by one -/

/-- Settles O39: the meaning of `DEC.START` is this state. -/
theorem decStartBeginsACall : Obligations.DecStartBeginsACall := by
  refine ⟨fun p hp => ?_, fun W s => rfl⟩
  rw [decodeCommand, hp]
  rfl

/-- Settles O40: the header is one field of 8 bits. -/
theorem rawHeaderIsTheFirstSample : Obligations.RawHeaderIsTheFirstSample := by
  intro v s hm hh
  have hexec : exec (.raw8 v) s = (rawBody v s).endStep := decSymbol_on hm hh
  refine ⟨fun ha => ?_, fun hshort => ?_⟩
  · rw [hexec, rawBody, decFields_enough (by exact ha)]
    rfl
  · rw [hexec, rawBody, decFields, decRead_short hshort]
    rfl

/-- Settles O44: the Terminator is a symbol of 2 bits without output. -/
theorem terminatorEndsTheCall : Obligations.TerminatorEndsTheCall := fun _ hm hh ha =>
  exec_symbol_afterSymbol (i := .term) rfl rfl hm hh ha

/-- A Small-Delta of band `k` has a selector and a band number of 2 bits each, and a code of `k + 2` bits (R92, R94). -/
theorem symbolFields_small_sum {i : Instr} {k : Band} {c : Nat} (h : smallSymbol i = some (k, c)) (W : LdWidth) :
    (symbolFields W i).sum = 6 + k.val := by
  obtain rfl := smallSymbol_some h
  fin_cases k <;> rfl

/-- The delta of a band code, as R187 writes it. -/
theorem rev_eq (c : Nat) (k : Band) :
    rev c k = if c < 2 ^ (k.val + 1) then (c : Int) - bandHi k else (c : Int) - 1 := by
  split
  · exact rev_low ‹_›
  · exact rev_high (Nat.le_of_not_lt ‹_›)

/-- Settles O41: a Small-Delta is a delta symbol of `6 + k` bits. -/
theorem smallDeltaSymbolMovesTheValue : Obligations.SmallDeltaSymbolMovesTheValue := by
  rintro i k c d x s hi hm hh ha rfl hx
  have hsum := symbolFields_small_sum hi s.dec.W
  rw [exec_delta_inRange (symbolDelta_of_small hi) hm hh (by omega) (by rwa [rev_eq]), hsum]
  rfl

/-! ## A stream cut inside a symbol (R192) -/

/-- The step on a symbol that is cut short after `n` bits of whole fields. -/
theorem step_truncated {s : State} {n : Nat} (hin : s.inbox = []) (hm : s.dec.mode = .run)
    (hcut : decodeSymbol s.dec.hdr s.dec.W s.db.unread = .error (.truncated n)) :
    step s = .next (errorEntry .dec .truncatedStream (advance n s)) :=
  step_of_settle (by simp only [fetch, hin, fetchSymbol, if_pos hm, hcut]; rfl)

theorem decodeSymbol_cut_selector (W : LdWidth) {bits : List Bool} (h : bits.length < 2) :
    decodeSymbol true W bits = .error (.truncated 0) := by
  rw [decodeSymbol, if_neg nofun, readField_short _ _ h]

theorem decodeSymbol_cut_band (W : LdWidth) {r : List Bool} (h : r.length < 2) :
    decodeSymbol true W (field 2 0b00 ++ r) = .error (.truncated 2) := by
  rw [decodeSymbol_small, decodeSmall_eq, readField_short _ _ h]

theorem decodeSymbol_cut_code (W : LdWidth) {k : Nat} {r : List Bool} (hk : k < 4) (h : r.length < k + 2) :
    decodeSymbol true W (field 2 0b00 ++ field 2 k ++ r) = .error (.truncated 4) := by
  rw [List.append_assoc, decodeSymbol_small, decodeSmall_eq, readField_field hk, readField_short _ _ h]

theorem decodeSymbol_cut_run (W : LdWidth) {r : List Bool} (h : r.length < 3) :
    decodeSymbol true W (field 2 0b01 ++ r) = .error (.truncated 2) := by
  rw [decodeSymbol_zr, readField_short _ _ h]

theorem decodeSymbol_cut_sign (W : LdWidth) : decodeSymbol true W (field 2 0b10) = .error (.truncated 2) := rfl

theorem decodeSymbol_cut_magnitude {W : LdWidth} (b : Bool) {r : List Bool} (h : r.length < W.toNat) :
    decodeSymbol true W (field 2 0b10 ++ b :: r) = .error (.truncated 3) := by
  rw [decodeSymbol_ld, readField_enough _ _ (by simp)]
  exact readField_short _ _ h

/-- Settles O46: at each place a stream can end, the symbol decoder reports the bits of the whole fields before it. -/
theorem truncatedStreamStopsTheCall : Obligations.TruncatedStreamStopsTheCall := by
  intro s n hin hm hplace
  refine step_truncated hin hm ?_
  rcases hplace with ⟨hh, hlen, rfl⟩ | ⟨hh, hlen, rfl⟩ | ⟨hh, ⟨r, hr, hlen⟩, rfl⟩ | ⟨hh, ⟨k, r, hk, hr, hlen⟩, rfl⟩ |
    ⟨hh, ⟨r, hr, hlen⟩, rfl⟩ | ⟨hh, hr, rfl⟩ | ⟨hh, ⟨b, r, hr, hlen⟩, rfl⟩
  · rw [hh, decodeSymbol_header, readField_short _ _ hlen]
  · rw [hh, decodeSymbol_cut_selector _ hlen]
  · rw [hh, hr, decodeSymbol_cut_band _ hlen]
  · rw [hh, hr, decodeSymbol_cut_code _ hk hlen]
  · rw [hh, hr, decodeSymbol_cut_run _ hlen]
  · rw [hh, hr, decodeSymbol_cut_sign]
  · rw [hh, hr, decodeSymbol_cut_magnitude b hlen]

/-! ## Everything one step of the decoder can do -/

/-- Every outcome of a step from `RUN` while the host issues nothing (R181 to R192, R221). -/
inductive DecoderStep (s : State) : State → Prop
  /-- The raw first sample (R182). -/
  | header (v : Sample) : s.dec.hdr = false → 8 ≤ s.db.avail →
      DecoderStep s ((advance 8 s).withDec { s.dec with cur := v, out := s.dec.out ++ [v], hdr := true })
  /-- A symbol after the header that appends samples, at most 8 for every 5 of its bits (R183 to R189). -/
  | samples (n : Nat) (x : Sample) (l : List Sample) : s.dec.hdr = true → 3 ≤ n → n ≤ s.db.avail →
      5 * l.length ≤ 8 * n →
      DecoderStep s ((advance n s).withDec { s.dec with cur := x, out := s.dec.out ++ l })
  /-- The Terminator (R190). -/
  | terminated (n : Nat) : s.dec.hdr = true → DecoderStep s ((advance n s).withDec { s.dec with mode := .done })
  /-- A cut stream, or a sum out of range (R191, R192). -/
  | raised (k : ErrCode) (n : Nat) : DecoderStep s (errorEntry .dec k (advance n s))

/-- A symbol appends at most 8 samples for every 5 of its bits: a Zero-Run 8 at most, a delta one for 3 bits or more
(decision D24). -/
theorem symbolOutput_length_le {cur x : Sample} {l : List Sample} {i : Instr} (W : LdWidth) (hi : isSymbol i = true)
    (hhdr : i.atHdr = true) (h : symbolOutput cur i = .ok (some (x, l))) :
    5 * l.length ≤ 8 * (symbolFields W i).sum := by
  have h3 := three_le_symbolFields W hi h
  rcases symbol_form hi hhdr with ⟨d, hd⟩ | ⟨n, rfl⟩ | rfl
  · rw [symbolOutput_delta hd] at h
    obtain ⟨y, -, hy⟩ := exists_of_map_eq_ok h
    cases hy
    rw [List.length_singleton]
    omega
  · cases h
    have := n.isLt
    simp only [List.length_replicate, symbolFields, List.sum_cons, List.sum_nil]
    omega
  · cases h

theorem eq_raw8_of_atHdr {i : Instr} (h : i.atHdr = false) : ∃ v, i = .raw8 v := by
  cases i with
  | raw8 v => exact ⟨v, rfl⟩
  | _ => cases h

/-- The symbol decoder reports a cut stream, or a symbol of this position whose bits are all there (R181). -/
theorem decoderStep_of_step {s t : State} (hin : s.inbox = []) (hm : s.dec.mode = .run) (h : step s = .next t) :
    DecoderStep s t := by
  rcases hsym : decodeSymbol s.dec.hdr s.dec.W s.db.unread with e | ⟨i, rest⟩
  · obtain ⟨n, hcut⟩ := step_cut hin hm hsym
    cases hcut.symm.trans h
    exact .raised _ n
  · obtain ⟨hi, hhdr, ha⟩ := decodeSymbol_isSymbol hsym
    rw [BitBuffer.unread_length] at ha
    rw [step_symbol hin hm hsym] at h
    cases hh : s.dec.hdr with
    | false =>
      obtain ⟨v, rfl⟩ := eq_raw8_of_atHdr (hhdr.trans hh)
      cases ((rawHeaderIsTheFirstSample v s hm hh).1 ha).symm.trans h
      exact .header v hh ha
    | true =>
      rw [hh] at hhdr
      rw [exec_symbol_afterSymbol hi hhdr hm hh ha] at h
      rcases hout : symbolOutput s.dec.cur i with k | _ | ⟨x, l⟩ <;> rw [hout] at h <;> cases h
      · exact .raised k _
      · exact .terminated _ hh
      · exact .samples _ x l hh (three_le_symbolFields _ hi hout) ha (symbolOutput_length_le _ hi hhdr hout)

/-- Settles O49: the steps that stay in `RUN` are the header and the symbols that append samples. -/
theorem eachDecoderStepAdvances : Obligations.EachDecoderStepAdvances := by
  intro s t hin hm h hrun
  have advances {n : Nat} (h3 : 3 ≤ n) (ha : n ≤ s.db.avail) :
      s.db.rp + 3 ≤ s.db.rp + n ∧ s.db.rp + n ≤ s.db.wp := by
    rw [BitBuffer.avail] at ha
    omega
  cases decoderStep_of_step hin hm h with
  | header v _ ha => exact advances (by decide) ha
  | samples n x l _ h3 ha => exact advances h3 ha
  | terminated | raised => cases hrun

/-! ## A decode call ends, with a bounded output -/

/-- While the host issues nothing, the output of a decode call of `total` unread bits is paid for by the bits consumed:
nothing before the header, then one sample for its 8 bits and at most 8 samples for every 5 bits after it (R195, decision
D24). -/
structure OutputPaid (total : Nat) (s : State) : Prop where
  inbox : s.inbox = []
  unpaid : s.dec.hdr = false → s.dec.out = [] ∧ s.db.avail ≤ total
  paid : s.dec.hdr = true → 5 * s.dec.out.length + 8 * s.db.avail + 59 ≤ 8 * total

section OutputPaid

variable {total : Nat} {s t : State}

theorem outputPaid_decStarted (W : LdWidth) (hin : s.inbox = []) : OutputPaid s.db.avail (decStarted W s) where
  inbox := hin
  unpaid _ := ⟨rfl, le_rfl⟩
  paid := nofun

/-- Consumed bits that append nothing. -/
theorem OutputPaid.advance (h : OutputPaid total s) (n : Nat) : OutputPaid total (advance n s) where
  inbox := h.inbox
  unpaid hh := by
    obtain ⟨hout, hle⟩ := h.unpaid hh
    exact ⟨hout, (advance_avail n s).trans_le ((Nat.sub_le _ _).trans hle)⟩
  paid hh := by
    have hpaid := h.paid hh
    have hleft := advance_avail n s
    rw [advance_dec]
    omega

theorem OutputPaid.decoderStep (h : OutputPaid total s) (hstep : DecoderStep s t) : OutputPaid total t := by
  cases hstep with
  | header v hh ha =>
    obtain ⟨hout, hle⟩ := h.unpaid hh
    have hleft := advance_avail 8 s
    refine ⟨h.inbox, nofun, fun _ => ?_⟩
    simp only [State.withDec_dec, State.withDec_db, hout, List.nil_append, List.length_singleton]
    omega
  | samples n x l hh h3 ha hlen =>
    have hpaid := h.paid hh
    have hleft := advance_avail n s
    refine ⟨h.inbox, fun hf => absurd (hh.symm.trans hf) nofun, fun _ => ?_⟩
    simp only [State.withDec_dec, State.withDec_db, List.length_append]
    omega
  | terminated n | raised _ n =>
    obtain ⟨hin, hunpaid, hpaid⟩ := h.advance n
    exact ⟨hin, hunpaid, hpaid⟩

/-- Every step of the machine keeps it: in `RUN` a decoder step, else nothing. -/
theorem OutputPaid.step (h : OutputPaid total s) (hstep : step s = .next t) : OutputPaid total t := by
  by_cases hm : s.dec.mode = .run
  · exact h.decoderStep (decoderStep_of_step h.inbox hm hstep)
  · cases ((decoderOutsideRunDoesNothing.2 s hm).1 h.inbox).symm.trans hstep
    exact h

theorem OutputPaid.length_le (h : OutputPaid total s) : s.dec.out.length ≤ 1 + 8 * (total / 5) := by
  cases hh : s.dec.hdr with
  | false =>
    rw [(h.unpaid hh).1]
    exact Nat.zero_le _
  | true =>
    have hpaid := h.paid hh
    omega

end OutputPaid

/-- What every step keeps holds after any number of steps. -/
theorem stepsFrom_keeps {P : State → Prop} (hP : ∀ s t, P s → step s = .next t → P t) {n : Nat} {s u : State}
    (hs : P s) (h : stepsFrom step n s = some u) : P u := by
  induction n generalizing s with
  | zero =>
    cases h
    exact hs
  | succ n ih =>
    obtain ⟨t, ht⟩ := machineNeverStops s
    rw [stepsFrom_succ ht] at h
    exact ih (hP s t hs ht) h

theorem DecodeEnds.stopped {u : State} {r : Except ErrCode (List Sample)} (h : DecodeEnds u r) :
    u.dec.mode = .done ∨ u.dec.mode = .err := by
  cases r with
  | ok out => exact .inl h.1
  | error k => exact .inr h.1

/-- Settles O50: the call ends as the batch decoder does, and every step pays for the samples it appends. -/
theorem everyDecodeCallEnds : Obligations.EveryDecodeCallEnds := by
  intro W s t n hin ht hn
  cases (exec_decStart W s).symm.trans ht
  obtain ⟨u, hu, hend⟩ := stepsFrom_decStarted (W := W) hin hn
  have hpaid : OutputPaid s.db.avail u :=
    stepsFrom_keeps (fun _ _ h hstep => h.step hstep) (outputPaid_decStarted W hin) hu
  exact ⟨u, hu, hend.stopped, hpaid.length_le⟩

end Sys2Proof.Machine

/-! # Proofs: exceptions (60_exceptions.md)

The reserved code: what each instruction and each move of the machine can leave in the error registers and in the
response. -/

namespace Sys2Proof.Machine

/-! ## `WidthMismatch`, code 5 (R215) -/

theorem ErrCode.code_ne_five {k : ErrCode} : k.code ≠ 5 ↔ k ≠ .widthMismatch := by
  cases k <;> decide

/-- Neither error register nor the response names `WidthMismatch`. -/
structure NoWidthMismatch (s : State) : Prop where
  enc : s.enc.err ≠ .widthMismatch
  dec : s.dec.err ≠ .widthMismatch
  resp : s.resp ≠ .error .widthMismatch

section NoWidthMismatch

variable {s t : State}

/-- The error entry writes the code raised, and the response of an encoder command names the same code (R221, R253). -/
theorem NoWidthMismatch.encRaised {f : Flow} {k : ErrCode} (hs : NoWidthMismatch s) (hraise : RaisedAt f k s)
    (hk : k ≠ .widthMismatch) (h : f.endCommand = .next t) : NoWidthMismatch t := by
  obtain ⟨bits, r, rfl, -⟩ := hraise
  cases h
  exact ⟨hk, hs.dec, by simpa using hk⟩

/-- A symbol raises `TruncatedStream` and `SampleRange` only, and it has no response (R191, R192). -/
theorem NoWidthMismatch.symbol {i : Instr} (hs : NoWidthMismatch s) (hi : isSymbol i = true)
    (h : exec i s = .next t) : NoWidthMismatch t := by
  rcases exec_symbol_outcome hi s with ⟨-, hsame⟩ | ⟨-, f, hf, hdone | hraise⟩
  · cases hsame.symm.trans h
    exact hs
  · obtain ⟨-, samples, cur, m, rfl, -⟩ := hdone
    cases hf.symm.trans h
    exact ⟨hs.enc, hs.dec, hs.resp⟩
  · obtain ⟨n, k, -, hk, rfl⟩ := hraise
    cases hf.symm.trans h
    exact ⟨hs.enc, by rcases hk with rfl | rfl <;> exact nofun, hs.resp⟩

/-- A Bit Buffer command has a response but writes no error register (R137). -/
theorem NoWidthMismatch.buffer {i : Instr} {b : BufId} (hs : NoWidthMismatch s) (hi : bufferOf i = some b)
    (h : exec i s = .next t) : NoWidthMismatch t := by
  rcases exec_buffer_outcome hi s with ⟨r, hr, hne⟩ | ⟨-, B, r, hr, hne, -⟩
  · cases hr.symm.trans h
    exact ⟨hs.enc, hs.dec, hne⟩
  · cases hr.symm.trans h
    exact ⟨by simpa using hs.enc, by simpa using hs.dec, hne _⟩

/-- `ENC.PUSH` raises `Overflow` and `OutOfRange` only (R151, R164). -/
theorem NoWidthMismatch.push {x : Sample} (hs : NoWidthMismatch s) (h : exec (.encPush x) s = .next t) :
    NoWidthMismatch t := by
  by_cases hm : s.enc.mode = .run
  · rw [exec_push_on hm] at h
    rcases pushBody_outcome x s with ⟨bits, p, r, hok, -⟩ | hraise | ⟨-, -, hraise⟩
    · rw [hok] at h
      cases h
      exact ⟨hs.enc, hs.dec, nofun⟩
    · exact hs.encRaised hraise (by decide) h
    · exact hs.encRaised hraise (by decide) h
  · cases (exec_push_off hm).symm.trans h
    exact ⟨hs.enc, hs.dec, nofun⟩

/-- `ENC.FINISH` raises `Overflow` and `EmptyInput` only (R162, R211). -/
theorem NoWidthMismatch.finish (hs : NoWidthMismatch s) (h : exec .encFinish s = .next t) : NoWidthMismatch t := by
  by_cases hm : s.enc.mode = .run
  · rw [exec_finish_on hm] at h
    rcases finishBody_outcome s with ⟨bits, hok, -⟩ | hraise | ⟨-, hempty⟩
    · rw [hok] at h
      cases h
      exact ⟨hs.enc, hs.dec, nofun⟩
    · exact hs.encRaised hraise (by decide) h
    · rw [hempty] at h
      cases h
      exact ⟨nofun, hs.dec, nofun⟩
  · cases (exec_finish_off hm).symm.trans h
    exact ⟨hs.enc, hs.dec, nofun⟩

theorem NoWidthMismatch.exec {i : Instr} (hs : NoWidthMismatch s) (h : exec i s = .next t) : NoWidthMismatch t := by
  rcases instr_form i with hi | ⟨b, hi⟩ | ⟨W, rfl⟩ | ⟨x, rfl⟩ | rfl | ⟨W, rfl⟩
  · exact hs.symbol hi h
  · exact hs.buffer hi h
  · cases h
    exact ⟨nofun, hs.dec, nofun⟩
  · exact hs.push h
  · exact hs.finish h
  · cases h
    exact ⟨hs.enc, nofun, nofun⟩

/-- Of the moves that run no instruction, only the cut symbol raises, and it raises `TruncatedStream` (R192). -/
theorem NoWidthMismatch.step (hs : NoWidthMismatch s) (h : step s = .next t) : NoWidthMismatch t := by
  obtain ⟨l, ⟨i, hf⟩ | hf | hf | hf | ⟨-, n, -, hf⟩⟩ := fetch_cases s
  · have htaken : NoWidthMismatch (s.withInbox l) := ⟨hs.enc, hs.dec, hs.resp⟩
    exact htaken.exec ((step_of_run hf).symm.trans h)
  all_goals cases (step_of_settle hf).symm.trans h
  · exact ⟨hs.enc, hs.dec, hs.resp⟩
  · exact ⟨hs.enc, hs.dec, nofun⟩
  · exact ⟨nofun, nofun, nofun⟩
  · exact ⟨hs.enc, nofun, hs.resp⟩

end NoWidthMismatch

/-- Settles O59: code 5 is `WidthMismatch`, which no move of the machine brings in. -/
theorem widthMismatchIsNeverReported : Obligations.WidthMismatchIsNeverReported := by
  intro s t h henc hdec hresp
  obtain ⟨henc', hdec', hresp'⟩ :=
    NoWidthMismatch.step ⟨ErrCode.code_ne_five.mp henc, ErrCode.code_ne_five.mp hdec, hresp⟩ h
  exact ⟨ErrCode.code_ne_five.mpr henc', ErrCode.code_ne_five.mpr hdec', hresp'⟩

end Sys2Proof.Machine
